-- ==== Sys2Proof/Word.lean ====
section
/-! DEFINITION. The word types of the engine (00_scope.md R7, R11). -/
namespace Sys2Proof

/-- One byte: every wire byte, and every byte of `PIX` and `PAY` (R7, R60). -/
abbrev Byte := BitVec 8

/-- `u16`: bitmap `W`, `H`, `NF` (R7). -/
abbrev Half := BitVec 16

/-- `u32`, and `s32` read as two's complement: caller parameters, addresses, counters, lengths and baud
rates (R7). -/
abbrev Word := BitVec 32

end Sys2Proof
end

