-- ==== Sys2Proof/Config.lean ====
section
/-! DEFINITION. What an implementation fixes (00_scope.md R5), the parameters it leaves open (R6), and the
free values. -/
namespace Sys2Proof

/-- The width of an upload header's length field: 1, 2 or 4 bytes (R6, `UPLEN_W_FONT`, `UPLEN_W_FS`). -/
inductive LenWidth where
  | one
  | two
  | four
deriving DecidableEq, Repr

/-- The width in bytes. -/
def LenWidth.bytes : LenWidth → Nat
  | .one => 1
  | .two => 2
  | .four => 4

/-- The parameters of R6, with the one default it gives. They are constants of an engine instance (R37):
State carries them, no step changes them, and a statement over all states holds for every instance.
`MAX_PARAMS`, at least 2, is given by how many more than 2 it is (`Config.maxParams`). -/
structure Config where
  opReadFile    : Byte
  opReadFs      : Byte
  opUploadFont  : Byte
  opUploadFs    : Byte
  opLs          : Byte
  opFree        : Byte
  opMove        : Byte
  opRemove      : Byte
  upLenWFont    : LenWidth
  upLenWFs      : LenWidth
  spareParams   : Nat
  flushOnAcquire : Bool
  fsCapacity    : Word := 16384#32
deriving DecidableEq, Repr

/-- `MAX_PARAMS` (R6). -/
def Config.maxParams (c : Config) : Nat := 2 + c.spareParams

/-- R6: `MAX_PARAMS` is at least 2. -/
abbrev Config.wf (c : Config) : Prop := 2 ≤ c.maxParams

/-- No instance has a smaller `MAX_PARAMS`. -/
theorem Config.wf_of_instance (c : Config) : c.wf := Nat.le_add_right 2 c.spareParams

/-- The test binding TB of 95_test_vectors.md: `MAX_PARAMS` 8, `FS_CAPACITY` at its default (R6).
DESIGN CHOICE (log 5): the instance `State.reset` stands for. -/
def Config.testBinding : Config where
  opReadFile := 0xD1#8
  opReadFs := 0xD2#8
  opUploadFont := 0xD3#8
  opUploadFs := 0xD4#8
  opLs := 0xD5#8
  opFree := 0xD6#8
  opMove := 0xD7#8
  opRemove := 0xD8#8
  upLenWFont := .two
  upLenWFs := .four
  spareParams := 6
  flushOnAcquire := false

/-- `ESC`, the byte opening every command frame (R5). -/
def Config.esc : Byte := 0xFE#8
/-- `OP_BITMAP` (R5). -/
def Config.opBitmap : Byte := 0x64#8
/-- `OP_WIPE` (R5). -/
def Config.opWipe : Byte := 0x21#8
/-- `WIPE_CONF` (R5). -/
def Config.wipeConf : List Byte := [0x59#8, 0x21#8]
/-- `READY` (R5). -/
def Config.ready : Byte := 0x01#8
/-- `CONFIRM` (R5). -/
def Config.confirm : Byte := 0x01#8
/-- `BAUD_HIGH` (R5). -/
def Config.baudHigh : Word := 115200#32
/-- `SIZE_W` (R5): bytes of a download size and of a free-space count. -/
def Config.sizeW : Nat := 4
/-- `COUNT_W` (R5): bytes of the directory entry count. -/
def Config.countW : Nat := 1
/-- `REC_W` (R5): bytes of one directory record. -/
def Config.recW : Nat := 4
/-- `DIM_MAX` (R5): the largest bitmap width or height. -/
def Config.dimMax : Nat := 255
/-- `STRIDES` (R5): the legal bytes per pixel. -/
def Config.strides : List Nat := [1, 3, 4]

/-- The `k`-th unspecified byte: a byte read from a changed address of `PIX` or `PAY` (R64) or after the
listener broke input exclusivity (R300). A free value (log 8): nothing constrains it. -/
opaque Config.freeByte : Nat → Byte

end Sys2Proof
end

