-- ==== Sys2Proof/Syntax.lean ====
section
/-! DEFINITION. The request descriptor (30_encoding.md R90) and the nine requests of the opcode table
(R92), with the pseudo-requests of R117. -/
namespace Sys2Proof

/-- A request descriptor: the fields of R90 and no others. `params` is `PARAM[0 .. MAX_PARAMS-1]`. -/
structure Request where
  w0      : Word
  x0      : Word
  y0      : Word
  w       : Half
  h       : Half
  nf      : Half
  pixBase : Word
  payBase : Word
  payLen  : Word
  nparam  : Byte
  params  : List Word
deriving DecidableEq, Repr

/-- The requests, one constructor per row of opcode_table.json, with the operands R93 marks as used;
`params` are the used entries `PARAM[0 .. NPARAM-1]`. -/
inductive Instr where
  /-- Code 0 (R138): send one command frame. -/
  | cmd (opcode : Byte) (params : List Word)
  /-- Code 1 (R170): pack and send one bitmap display frame per pixel frame. -/
  | bitmap (x0 y0 : Word) (w h : Half) (thr : Byte) (inv : Bool) (stride : BitVec 3) (nf : Half) (pixBase : Word)
  /-- Code 2 (R206): download one file. -/
  | dlfile (elev : Bool) (params : List Word)
  /-- Code 3 (R207): download the whole filesystem image. -/
  | dlfs (elev : Bool) (params : List Word)
  /-- Code 4 (R209): upload a font file with the echo handshake. -/
  | upfont (params : List Word) (payBase payLen : Word)
  /-- Code 5 (R210): upload a filesystem image with the echo handshake. -/
  | upfs (params : List Word) (payBase payLen : Word)
  /-- Code 6 (R213): read the directory. -/
  | ls (params : List Word)
  /-- Code 7 (R214): read the free-space count. -/
  | free (params : List Word)
  /-- Code 8 (R139): send the fixed wipe frame. -/
  | wipe
deriving DecidableEq, Repr

/-- The pseudo-requests of R117; `Pseudo.expand` (Decode.lean) gives the request each stands for. -/
inductive Pseudo where
  | move (params : List Word)
  | remove (params : List Word)
  | dl (params : List Word)
deriving DecidableEq, Repr

end Sys2Proof
end

