-- ==== Sys2Proof/WellFormed.lean ====
section
/-! DEFINITION. Which requests have a descriptor: the parameter list fits `NPARAM` (u8, R90) and
`MAX_PARAMS` (R95). Every other operand fits its field by its type. -/
namespace Sys2Proof

/-- The caller parameters of a request, empty where R93 marks them ignored. -/
def Instr.params : Instr → List Word
  | .cmd _ ps => ps
  | .bitmap .. => []
  | .dlfile _ ps => ps
  | .dlfs _ ps => ps
  | .upfont ps _ _ => ps
  | .upfs ps _ _ => ps
  | .ls ps => ps
  | .free ps => ps
  | .wipe => []

/-- `NPARAM` is a u8 (R90). -/
abbrev Instr.countFits (i : Instr) : Prop := i.params.length < 256

/-- `NPARAM` is at most `MAX_PARAMS` (R95). -/
abbrev Instr.withinMax (c : Config) (i : Instr) : Prop := i.params.length ≤ c.maxParams

/-- A well-formed request of an instance `c`: one a descriptor of that instance can carry. -/
abbrev Instr.wf (c : Config) (i : Instr) : Prop := i.countFits ∧ i.withinMax c

end Sys2Proof
end

