-- ==== Sys2Proof/Decode.lean ====
section
/-! DEFINITION. The request encoding of 30_encoding.md: the fields of `W0` (R91), the decoder with the
common checks of 40_framer.md R137, the encoder (R116), the opcode table's rows (R118) and the
pseudo-requests (R117). -/
namespace Sys2Proof

/-- `CODE`, `W0[3:0]` (R91). -/
def Request.code (d : Request) : BitVec 4 := d.w0.extractLsb' 0 4
/-- `ELEV`, `W0[4]` (R91). -/
def Request.elev (d : Request) : Bool := d.w0.getLsbD 4
/-- `INV`, `W0[5]` (R91). -/
def Request.inv (d : Request) : Bool := d.w0.getLsbD 5
/-- `STRIDE`, `W0[8:6]` (R91). -/
def Request.stride (d : Request) : BitVec 3 := d.w0.extractLsb' 6 3
/-- The reserved bits `W0[15:9]` (R91). -/
def Request.reserved (d : Request) : BitVec 7 := d.w0.extractLsb' 9 7
/-- `OPCODE`, `W0[23:16]` (R91). -/
def Request.opcode (d : Request) : Byte := d.w0.extractLsb' 16 8
/-- `THR`, `W0[31:24]` (R91). -/
def Request.thr (d : Request) : Byte := d.w0.extractLsb' 24 8

/-- `PARAM[0 .. NPARAM-1]`. -/
def Request.usedParams (d : Request) : List Word := d.params.take d.nparam.toNat

/-- The request codes that use `PARAM` (R93, R137). -/
def usesParams (code : BitVec 4) : Bool :=
  code == 0#4 || (2#4 ≤ code && code ≤ 7#4)

/-- Why a descriptor is no instruction: the three common refusals of R137. -/
inductive BadRequest where
  /-- `CODE` is 9 to 15 (R94, cause 1). -/
  | reservedCode
  /-- `W0[15:9]` is not 0 (R95, cause 2). -/
  | reservedBits
  /-- `NPARAM > MAX_PARAMS` for a code that uses `PARAM` (R95, cause 3). -/
  | tooManyParams
deriving DecidableEq, Repr

/-- The cause recorded in `AUX` (R268). -/
def badRequestCause : BadRequest → Word
  | .reservedCode => 1#32
  | .reservedBits => 2#32
  | .tooManyParams => 3#32

/-- The request of a code, its fields read as R91 and R93 lay them out. -/
def decodeCode (d : Request) : Except BadRequest Instr :=
  match d.code.toNat with
  | 0 => .ok (.cmd d.opcode d.usedParams)
  | 1 => .ok (.bitmap d.x0 d.y0 d.w d.h d.thr d.inv d.stride d.nf d.pixBase)
  | 2 => .ok (.dlfile d.elev d.usedParams)
  | 3 => .ok (.dlfs d.elev d.usedParams)
  | 4 => .ok (.upfont d.usedParams d.payBase d.payLen)
  | 5 => .ok (.upfs d.usedParams d.payBase d.payLen)
  | 6 => .ok (.ls d.usedParams)
  | 7 => .ok (.free d.usedParams)
  | 8 => .ok .wipe
  | _ => .error .reservedCode

/-- The decoder: the common checks of R137 in their order, then the dispatch on `CODE`. Total on every
descriptor; each rejection has its name. -/
def decode (c : Config) (d : Request) : Except BadRequest Instr :=
  if 9 ≤ d.code.toNat then .error .reservedCode
  else if d.reserved ≠ 0#7 then .error .reservedBits
  else if usesParams d.code = true ∧ c.maxParams < d.nparam.toNat then .error .tooManyParams
  else decodeCode d

/-- The request code of an instruction (R92). -/
def instrCode : Instr → BitVec 4
  | .cmd .. => 0#4
  | .bitmap .. => 1#4
  | .dlfile .. => 2#4
  | .dlfs .. => 3#4
  | .upfont .. => 4#4
  | .upfs .. => 5#4
  | .ls .. => 6#4
  | .free .. => 7#4
  | .wipe => 8#4

/-- `W0` from its fields, the reserved bits 0 (R91). -/
def packW0 (thr opcode : Byte) (stride : BitVec 3) (inv elev : Bool) (code : BitVec 4) : Word :=
  thr ++ opcode ++ 0#7 ++ stride ++ BitVec.ofBool inv ++ BitVec.ofBool elev ++ code

/-- A parameter list laid out in `PARAM[0 .. MAX_PARAMS-1]`, the unused entries 0 (R116). A longer list is
kept whole (log 25); Accept takes its first `MAX_PARAMS` entries (log 14). -/
def padParams (maxParams : Nat) (ps : List Word) : List Word :=
  ps ++ List.replicate (maxParams - ps.length) 0#32

/-- The descriptor whose fields are all 0 but `W0` (R116: "Fields not named are 0"). -/
def Request.ofW0 (maxParams : Nat) (w0 : Word) : Request where
  w0 := w0
  x0 := 0#32
  y0 := 0#32
  w := 0#16
  h := 0#16
  nf := 0#16
  pixBase := 0#32
  payBase := 0#32
  payLen := 0#32
  nparam := 0#8
  params := List.replicate maxParams 0#32

/-- A descriptor with parameters and every field but `W0` 0. A list of more than 255 entries, which no
descriptor carries and the spec gives no encoding, gets its length modulo 256 as `NPARAM`. DESIGN CHOICE
(log 25); a well-formed request has no such list (WellFormed.lean). -/
def Request.ofParams (maxParams : Nat) (w0 : Word) (ps : List Word) : Request :=
  { Request.ofW0 maxParams w0 with nparam := BitVec.ofNat 8 ps.length, params := padParams maxParams ps }

/-- The encoder: the descriptor R116 gives a request; fields not named are 0. -/
def encode (c : Config) : Instr → Request
  | .cmd op ps => Request.ofParams c.maxParams (packW0 0#8 op 0#3 false false 0#4) ps
  | .bitmap x0 y0 w h thr inv stride nf pixBase =>
    { Request.ofW0 c.maxParams (packW0 thr 0#8 stride inv false 1#4) with
      x0 := x0, y0 := y0, w := w, h := h, nf := nf, pixBase := pixBase }
  | .dlfile elev ps => Request.ofParams c.maxParams (packW0 0#8 0#8 0#3 false elev 2#4) ps
  | .dlfs elev ps => Request.ofParams c.maxParams (packW0 0#8 0#8 0#3 false elev 3#4) ps
  | .upfont ps base len =>
    { Request.ofParams c.maxParams (packW0 0#8 0#8 0#3 false false 4#4) ps with payBase := base, payLen := len }
  | .upfs ps base len =>
    { Request.ofParams c.maxParams (packW0 0#8 0#8 0#3 false false 5#4) ps with payBase := base, payLen := len }
  | .ls ps => Request.ofParams c.maxParams (packW0 0#8 0#8 0#3 false false 6#4) ps
  | .free ps => Request.ofParams c.maxParams (packW0 0#8 0#8 0#3 false false 7#4) ps
  | .wipe => Request.ofW0 c.maxParams (packW0 0#8 0#8 0#3 false false 8#4)

/-- The request a pseudo-request expands to (R117). -/
def Pseudo.expand (c : Config) : Pseudo → Instr
  | .move ps => .cmd c.opMove ps
  | .remove ps => .cmd c.opRemove ps
  | .dl ps => .dlfile true ps

/-- A row of opcode_table.json over `W0` (R118): it matches when `W0 & mask = pattern`; `encoding` spells the
32 bits from bit 31 down, `0` and `1` fixed, a letter the field a bit belongs to, `x` an ignored bit. -/
structure OpcodeRow where
  mnemonic : String
  pattern  : Word
  mask     : Word
  encoding : String
deriving DecidableEq, Repr

/-- The rows of opcode_table.json, codes 0 to 8 (R118). -/
def opcodeTable : List OpcodeRow :=
  [⟨"cmd", 0x00000000#32, 0x0000FE0F#32, "xxxxxxxxoooooooo0000000xxxxx0000"⟩,
   ⟨"bitmap", 0x00000001#32, 0x0000FE0F#32, "ttttttttxxxxxxxx0000000sssix0001"⟩,
   ⟨"dlfile", 0x00000002#32, 0x0000FE0F#32, "xxxxxxxxxxxxxxxx0000000xxxxe0010"⟩,
   ⟨"dlfs", 0x00000003#32, 0x0000FE0F#32, "xxxxxxxxxxxxxxxx0000000xxxxe0011"⟩,
   ⟨"upfont", 0x00000004#32, 0x0000FE0F#32, "xxxxxxxxxxxxxxxx0000000xxxxx0100"⟩,
   ⟨"upfs", 0x00000005#32, 0x0000FE0F#32, "xxxxxxxxxxxxxxxx0000000xxxxx0101"⟩,
   ⟨"ls", 0x00000006#32, 0x0000FE0F#32, "xxxxxxxxxxxxxxxx0000000xxxxx0110"⟩,
   ⟨"free", 0x00000007#32, 0x0000FE0F#32, "xxxxxxxxxxxxxxxx0000000xxxxx0111"⟩,
   ⟨"wipe", 0x00000008#32, 0x0000FE0F#32, "xxxxxxxxxxxxxxxx0000000xxxxx1000"⟩]

/-- R118's matching rule. -/
def OpcodeRow.accepts (r : OpcodeRow) (w0 : Word) : Bool := w0 &&& r.mask == r.pattern

/-- The table's mnemonic of an instruction (R92). -/
def mnemonicOf : Instr → String
  | .cmd .. => "cmd"
  | .bitmap .. => "bitmap"
  | .dlfile .. => "dlfile"
  | .dlfs .. => "dlfs"
  | .upfont .. => "upfont"
  | .upfs .. => "upfs"
  | .ls .. => "ls"
  | .free .. => "free"
  | .wipe => "wipe"

/-- The instruction the decoder reads from a descriptor whose `W0` is the low `nbits` bits of `w` and
whose other fields are 0. Those fields give `NPARAM = 0`, so every instance answers the same. -/
def decodeTableWord (nbits w : Nat) : Option Instr :=
  match decode Config.testBinding
      (Request.ofW0 Config.testBinding.maxParams (BitVec.ofNat 32 (w % 2 ^ nbits))) with
  | .ok i => some i
  | .error _ => none

end Sys2Proof
end

