-- ==== Sys2Proof/Machine/State.lean ====
section
/-! DEFINITION. The state of the engine (10_state.md) and of the agents around it (00_scope.md R8), the
state after reset (R40), and the reasons a step can stop. -/
namespace Sys2Proof.Machine

/-- `ST`, the 5-bit step register (R21): codes 0 to 19 are named, codes 20 to 31 are reserved (R22, I7).
`stCode` (Operands.lean) gives each its code. -/
inductive St where
  | idle
  | check
  | pause
  | baudGet
  | baudUp
  | flush
  | lock
  | txFrame
  | rxLen
  | rxData
  | dataOut
  | rxReady
  | upSend
  | upEcho
  | upConf
  | pkData
  | unlock
  | baudRestore
  | resume
  | resp
  /-- Code `20 + k`, never entered by a rule (R22). -/
  | reserved (k : Fin 12)
deriving DecidableEq, Repr

/-- The status names of R260; `statusCode` (Operands.lean) gives each its 4-bit code. Codes 9 to 15 have
no name: no rule produces them (I8). -/
inductive Status where
  | ok
  | emptyFile
  | truncatedRead
  | uploadRejected
  | uploadDesync
  | invalidDimensions
  | dimensionOverflow
  | capacityExceeded
  | badRequest
deriving DecidableEq, Repr

/-- One event at the engine's ports (R10), in the order the trace records them. `foreignTx` is a byte of
another writer on the wire (R77): no event of the engine, recorded so that interleaving can be seen. -/
inductive Event where
  | accept (d : Request)
  | pause
  | resume
  | getBaud (r : Word)
  | setBaud (r : Word)
  | flush
  | lock
  | unlock
  | tx (b : Byte)
  /-- A received byte, or `none` for `END`. -/
  | rx (x : Option Byte)
  | data (b : Byte)
  | respond (status : BitVec 4) (value aux : Word)
  | foreignTx (b : Byte)
deriving DecidableEq, Repr

/-- The events the environment may withhold (R9, R303). `Unlock` and `Resume` are not among them: they
always complete (R281, R284). -/
inductive EventKind where
  | accept
  | pause
  | getBaud
  | setBaud
  | flush
  | lock
  | tx
  | rx
  | data
  | respond
deriving DecidableEq, Repr

/-- One action of an agent other than the engine (R8, R280 to R284), or reset (R290). -/
inductive EnvAction where
  /-- The caller offers a descriptor (R282). -/
  | submit (d : Request)
  /-- The transport receives a byte the device sent (R283). -/
  | deviceSends (b : Byte)
  /-- The transport begins (`true`) or stops (`false`) signalling end of input (R280). -/
  | endOfInput (on : Bool)
  /-- The listener consumes the oldest received byte (R281); under `EXCL` this is the breach of R300. -/
  | listenerTakes
  /-- Another writer asks for the TX lock (R284). -/
  | otherLocks
  /-- Another writer returns the TX lock (R284). -/
  | otherUnlocks
  /-- Another writer writes a byte under its lock (R77, R281). -/
  | otherTx (b : Byte)
  /-- The caller writes a byte of `PIX` (R64). -/
  | callerWritesPix (a : Word) (b : Byte)
  /-- The caller writes a byte of `PAY` (R64). -/
  | callerWritesPay (a : Word) (b : Byte)
  /-- Another agent changes the transport's rate (R205). -/
  | otherSetsBaud (r : Word)
  /-- The environment stops offering an event (R9, R303). -/
  | withhold (k : EventKind)
  /-- The environment offers an event again. -/
  | offer (k : EventKind)
  /-- Reset, at any time and in any state (R290, R292). -/
  | reset
deriving DecidableEq, Repr

/-- Whose turn it is: the engine's, or an environment action (log 1). -/
inductive Turn where
  | engine
  | env (a : EnvAction)
deriving DecidableEq, Repr

/-- A byte memory of the caller (`PIX`, `PAY`; R60): address and byte, in the canonical form
`memoryWf` (Ops.lean): addresses strictly rising, no entry 0, which is what an unlisted address
reads as (log 7). -/
abbrev Memory := List Host.Cell

/-- The state: the instance parameters, the engine's registers (R20 to R36), and the state of the other
agents that a rule names. INVENTORY.md lists every field with its rule. -/
structure State where
  /-- The instance parameters (R6, R37); no step changes them. -/
  cfg       : Config
  /-- `ST` (R21). -/
  st        : St
  /-- `RQ` (R23). -/
  rq        : Request
  /-- `STATUS` (R24). -/
  status    : BitVec 4
  /-- `VALUE` (R24). -/
  value     : Word
  /-- `AUX` (R24). -/
  aux       : Word
  /-- `FB` (R25). -/
  fb        : List Byte
  /-- `HI`, a u8 (R25). -/
  hi        : Byte
  /-- `LEN_W` (R26). -/
  lenW      : BitVec 3
  /-- `LEN_IDX` (R26). -/
  lenIdx    : BitVec 3
  /-- `LEN_ACC` (R26). -/
  lenAcc    : Word
  /-- `N` (R27). -/
  n         : Word
  /-- `REM` (R28). -/
  rem       : Word
  /-- `DBYTE` (R28). -/
  dbyte     : Byte
  /-- `RPH` (R29). -/
  rph       : BitVec 2
  /-- `IDX` (R30). -/
  idx       : Word
  /-- `ACKED` (R30). -/
  acked     : Word
  /-- `LAST` (R30). -/
  last      : Byte
  /-- `SAVED_BAUD` (R31). -/
  savedBaud : Word
  /-- `BAUD_CHG` (R32). -/
  baudChg   : Bool
  /-- `EXCL` (R33). -/
  excl      : Bool
  /-- `TXLK` (R34). -/
  txlk      : Bool
  /-- `FR` (R36). -/
  fr        : Half
  /-- `PB` (R36). -/
  pb        : Word
  /-- `PBYTE` (R36). -/
  pbyte     : Byte
  /-- Caller: descriptors offered and not yet accepted, oldest first (R282, R304). -/
  requests  : List Request
  /-- Caller: the pixel memory `PIX` (R60, R61). -/
  pix       : Memory
  /-- Caller: the payload memory `PAY` (R60, R62). -/
  pay       : Memory
  /-- Caller: addresses of `PIX` changed since the current `Accept` (R64). -/
  pixChanged : List Nat
  /-- Caller: addresses of `PAY` changed since the current `Accept` (R64). -/
  payChanged : List Nat
  /-- Transport: the current baud rate (R280). -/
  baud      : Word
  /-- Transport: bytes received and not yet delivered, oldest first (R79, R280). -/
  rx        : List Byte
  /-- Transport: end of input is signalled (R280, log 13). -/
  rxEnd     : Bool
  /-- Listener: the bytes it has consumed (R281). -/
  keys      : List Byte
  /-- Listener: it consumed a byte while `EXCL = 1` in this request (R300). -/
  tapped    : Bool
  /-- Arbiter: another writer holds the TX lock (R284). -/
  otherLock : Bool
  /-- Environment: the events it does not offer at present (R9, R303). -/
  withheld  : List EventKind
  /-- The model's own: how often `HI` has wrapped in the frame being sent (log 9). -/
  hiWraps   : Nat
  /-- The model's own: who moves next (log 1). -/
  turns     : List Turn
  /-- The model's own: how many free values have been drawn (log 8). -/
  draws     : Nat
  /-- The model's own: the events so far, oldest first (log 19). -/
  trace     : List Event
deriving DecidableEq, Repr

/-- An instance `c` right after reset: `ST`, `EXCL`, `TXLK` and `BAUD_CHG` as R40 states them. Every other
register has no value there (R40); the value it holds here is the model's (log 4). The other agents stand
as in the start state of 95_test_vectors.md (log 6): 19200 baud, the TX lock free, nothing received. -/
def State.resetWith (c : Config) : State where
  cfg := c
  st := .idle
  rq := Request.ofW0 c.maxParams 0#32
  status := 0#4
  value := 0#32
  aux := 0#32
  fb := []
  hi := 0#8
  lenW := 0#3
  lenIdx := 0#3
  lenAcc := 0#32
  n := 0#32
  rem := 0#32
  dbyte := 0#8
  rph := 0#2
  idx := 0#32
  acked := 0#32
  last := 0#8
  savedBaud := 0#32
  baudChg := false
  excl := false
  txlk := false
  fr := 0#16
  pb := 0#32
  pbyte := 0#8
  requests := []
  pix := []
  pay := []
  pixChanged := []
  payChanged := []
  baud := 19200#32
  rx := []
  rxEnd := false
  keys := []
  tapped := false
  otherLock := false
  withheld := []
  hiWraps := 0
  turns := []
  draws := 0
  trace := []

/-- The machine right after reset, as the instance with the test binding (log 5). -/
def State.reset : State := State.resetWith Config.testBinding

/-- Why the machine stops. Each stands for what the spec calls a bug of the model or gives no rule; none
is an exception of the engine (those are statuses, R260). All are safe: the model stops where no rule
lets the engine be, and `Inv` (Safety.lean) rules them out. -/
inductive Fault where
  /-- `ST` holds a reserved code (R22, I7). Raised by `engineStep`. Safe. -/
  | reservedState
  /-- `ST` names a step that R215 gives the request in `RQ` no row for. Raised by the meanings. Safe. -/
  | noRule
  /-- `TX_FRAME` with no byte of `FB` left to send (R133 sends only while `HI < len(FB)`). Raised by
  `stepTxFrame`. Safe. -/
  | frameIndexPastEnd
  /-- A read of `PIX` or `PAY` at or above address `2^32`, which does not exist (R60, R63). Raised by
  `stepPkData` and `stepUpSend`. Safe. -/
  | addressOutOfSpace
deriving DecidableEq, Repr

/-- Why an instruction has no meaning. -/
inductive Refusal where
  /-- The instruction's arm has no meaning yet; raised by `exec` alone, and by no arm of this model. Safe. -/
  | notModelled (mnemonic : String)
deriving DecidableEq, Repr

/-- What one step answers. -/
abbrev Result := Host.Outcome State Fault Refusal

end Sys2Proof.Machine
end

