-- ==== Sys2Proof/Machine/Flags.lean ====
section
/-! DEFINITION. The three flags of R32 to R34 (the engine has no condition codes, R35): the outputs that
follow them (R39) and the epilogue's choice by them (R204, R215). -/
namespace Sys2Proof.Machine

/-- The output `pause_listener = EXCL` (R39). -/
def pauseListener (s : State) : Bool := s.excl
/-- The output `tx_locked = TXLK` (R39). -/
def txLocked (s : State) : Bool := s.txlk
/-- The output `baud_elevated = BAUD_CHG` (R39). -/
def baudElevated (s : State) : Bool := s.baudChg
/-- The output `busy = (ST != IDLE)` (R39). -/
def busy (s : State) : Bool := s.st != .idle

/-- After `BAUD_RESTORE`: `RESUME` if `EXCL`, else `RESP` (R215). -/
def afterRestore (s : State) : St := if s.excl then .resume else .resp

/-- After `UNLOCK`: `BAUD_RESTORE` if `BAUD_CHG`, else as after it (R215). -/
def afterUnlock (s : State) : St := if s.baudChg then .baudRestore else afterRestore s

/-- The first step of the epilogue: `UNLOCK` if `TXLK`, else as after it (R204, R215). -/
def epilogueEntry (s : State) : St := if s.txlk then .unlock else afterUnlock s

/-- "After acquisition" (R215): `FLUSH` if `FLUSH_ON_ACQUIRE`, otherwise `LOCK`. -/
def afterAcquisition (s : State) : St := if s.cfg.flushOnAcquire then .flush else .lock

/-- No flag is set: nothing is held (R204, R272). -/
@[simp] abbrev nothingHeld (s : State) : Prop := s.txlk = false ∧ s.baudChg = false ∧ s.excl = false

end Sys2Proof.Machine
end

