-- ==== Sys2Proof/Machine/Operands.lean ====
section
/-! DEFINITION. Operand forms: the codes of `ST` and `STATUS` (R21, R260), the sanitiser and frame builder
(R130, R132), little-endian fields (R12, R65), the address checks (R63), and the packer's pixel functions
(R61, R172 to R174). -/
namespace Sys2Proof.Machine

/-- The code of a step in `ST` (R21). -/
def stCode : St → BitVec 5
  | .idle => 0#5
  | .check => 1#5
  | .pause => 2#5
  | .baudGet => 3#5
  | .baudUp => 4#5
  | .flush => 5#5
  | .lock => 6#5
  | .txFrame => 7#5
  | .rxLen => 8#5
  | .rxData => 9#5
  | .dataOut => 10#5
  | .rxReady => 11#5
  | .upSend => 12#5
  | .upEcho => 13#5
  | .upConf => 14#5
  | .pkData => 15#5
  | .unlock => 16#5
  | .baudRestore => 17#5
  | .resume => 18#5
  | .resp => 19#5
  | .reserved k => BitVec.ofNat 5 (20 + k.val)

/-- The 4-bit status code (R260). -/
def statusCode : Status → BitVec 4
  | .ok => 0#4
  | .emptyFile => 1#4
  | .truncatedRead => 2#4
  | .uploadRejected => 3#4
  | .uploadDesync => 4#4
  | .invalidDimensions => 5#4
  | .dimensionOverflow => 6#4
  | .capacityExceeded => 7#4
  | .badRequest => 8#4

/-- `sanitize(v)`: 0 below 0, else the low 8 bits (R130). -/
def sanitize (v : Word) : Byte := if v.toInt < 0 then 0#8 else v.extractLsb' 0 8

/-- `Frame(op, ps) = [ESC, op] ++ sanitised ps` (R132). -/
def frame (op : Byte) (ps : List Word) : List Byte := Config.esc :: op :: ps.map sanitize

/-- `LE(v, w)`: the `w` low bytes of `v`, least significant first (R12). -/
def leBytes (v : Word) : Nat → List Byte
  | 0 => []
  | w + 1 => v.extractLsb' 0 8 :: leBytes (v >>> 8) w

/-- `fromLE`: the value of bytes, least significant first (R12). -/
def fromLE : List Byte → Nat
  | [] => 0
  | b :: bs => b.toNat + 2 ^ 8 * fromLE bs

/-- The wipe frame, `FE 21 59 21` (R104). -/
def wipeFrame : List Byte := Config.esc :: Config.opWipe :: Config.wipeConf

/-- An upload header: the command frame, then `LE(PAY_LEN, Wl)` (R105). -/
def uploadHeader (op : Byte) (ps : List Word) (len : Word) (wl : LenWidth) : List Byte :=
  frame op ps ++ leBytes len wl.bytes

/-- The six header bytes of a bitmap display frame (R103, R175). -/
def bitmapHeader (x0 y0 : Word) (w h : Half) : List Byte :=
  [Config.esc, Config.opBitmap, sanitize x0, sanitize y0, w.extractLsb' 0 8, h.extractLsb' 0 8]

/-- `NB = W*H div 8`, the packed bytes of one frame (R170). -/
def packedBytes (w h : Half) : Nat := w.toNat * h.toNat / 8

/-- The first address past the pixels of a `bitmap` request, unbounded (R63). -/
def pixEnd (base : Word) (nf w h : Half) (stride : BitVec 3) : Nat :=
  base.toNat + nf.toNat * w.toNat * h.toNat * stride.toNat

/-- The first address past the payload of an upload, unbounded (R63). -/
def payEnd (base len : Word) : Nat := base.toNat + len.toNat

/-- The address of channel byte `k` of pixel `p` of frame `f` (R61). -/
def pixAddr (base : Word) (w h : Half) (stride : BitVec 3) (f p k : Nat) : Nat :=
  base.toNat + (f * w.toNat * h.toNat + p) * stride.toNat + k

/-- The intensity of a pixel from its channel bytes: `sum div S` (R172). -/
def intensity (stride : BitVec 3) (bytes : List Byte) : Nat :=
  (bytes.map BitVec.toNat).sum / stride.toNat

/-- The output bit of a pixel: its darkness exclusive-or the inversion flag (R173). -/
def pixelBit (thr : Byte) (inv : Bool) (level : Nat) : Bool :=
  Bool.xor (decide (level < thr.toNat)) inv

/-- Eight pixel bits as one byte, the first in bit 7 (R67, R174). -/
def packBits (bit : Nat → Bool) : Byte :=
  BitVec.ofBoolListBE [bit 0, bit 1, bit 2, bit 3, bit 4, bit 5, bit 6, bit 7]

/-- Whether a request reads replies from the device (the read-expecting codes 2 to 7, R215). -/
def readExpecting : Instr → Bool
  | .cmd .. => false
  | .bitmap .. => false
  | .dlfile .. => true
  | .dlfs .. => true
  | .upfont .. => true
  | .upfs .. => true
  | .ls .. => true
  | .free .. => true
  | .wipe => false

/-- Whether a request raises the baud rate (R215): uploads always, downloads when `ELEV = 1`. -/
def elevating : Instr → Bool
  | .cmd .. => false
  | .bitmap .. => false
  | .dlfile elev _ => elev
  | .dlfs elev _ => elev
  | .upfont .. => true
  | .upfs .. => true
  | .ls .. => false
  | .free .. => false
  | .wipe => false

end Sys2Proof.Machine
end

