-- ==== Sys2Proof/Machine/Ops.lean ====
section
/-! DEFINITION. The named operations every request is made of: reads of the caller's memories, the
transport's read, `raise` and `finish` with the epilogue (R13, R204, R271), the prologue (R200), the frame
sender (R133), the length decoder (R134) and the payload reader (R135). Each `step...` is one step of the
engine: at most one event; where the environment does not offer it, the state is unchanged (R9, R303). -/
namespace Sys2Proof.Machine

/-! ## Memory -/

/-- The byte at an address; an unlisted address reads as 0 (log 7). -/
def memRead : Memory → Nat → Byte
  | [], _ => 0#8
  | (k, v) :: m, a => if a = k then v else memRead m a

/-- Store a byte, keeping the canonical form. Only the caller writes `PIX` and `PAY` (R60). -/
def memWrite : Memory → Nat → Byte → Memory
  | [], a, b => if b = 0#8 then [] else [(a, b)]
  | (k, v) :: m, a, b =>
    if a < k then (if b = 0#8 then (k, v) :: m else (a, b) :: (k, v) :: m)
    else if a = k then (if b = 0#8 then m else (a, b) :: m)
    else (k, v) :: memWrite m a b

/-- The canonical form from address `lo` up: addresses strictly rising and below `2^32`, no byte 0. -/
def memoryWfFrom : Nat → Memory → Bool
  | _, [] => true
  | lo, (k, v) :: m => decide (lo ≤ k) && decide (k < 2 ^ 32) && v != 0#8 && memoryWfFrom (k + 1) m

/-- The canonical form of a memory. -/
def memoryWf (m : Memory) : Bool := memoryWfFrom 0 m

/-- The `draw`-th read of the machine, at address `a`: the memory's byte, or a free byte where the caller
changed that address during the request (R64, R305). -/
def stableRead (m : Memory) (changed : List Nat) (draw a : Nat) : Byte :=
  if a ∈ changed then Config.freeByte draw else memRead m a

/-! ## Updates

Each names what one event, or one line of pseudocode, does to the state; Laws/State.lean says it field by
field. -/

/-- `ST <- x`. -/
def goto (x : St) (s : State) : State := { s with st := x }

/-- Record an event. -/
def emit (e : Event) (s : State) : State := { s with trace := s.trace ++ [e] }

/-- `Pause()` has completed: `EXCL <- 1` (R33, R200). -/
def paused (s : State) : State := { s with excl := true, trace := s.trace ++ [.pause] }

/-- `Resume()`: `EXCL <- 0` (R33, R204). -/
def resumed (s : State) : State := { s with excl := false, trace := s.trace ++ [.resume] }

/-- `r <- GetBaud()`. -/
def baudRead (s : State) : State := { s with trace := s.trace ++ [.getBaud s.baud] }

/-- `SAVED_BAUD <- r`, the rate just read (R31, R201). -/
def baudSaved (s : State) : State := { s with savedBaud := s.baud }

/-- `SetBaud(BAUD_HIGH)`: `BAUD_CHG <- 1` (R32, R201). -/
def baudRaised (s : State) : State :=
  { s with baud := Config.baudHigh, baudChg := true, trace := s.trace ++ [.setBaud Config.baudHigh] }

/-- `SetBaud(SAVED_BAUD)`: `BAUD_CHG <- 0` (R32, R204, R205). -/
def baudRestored (s : State) : State :=
  { s with baud := s.savedBaud, baudChg := false, trace := s.trace ++ [.setBaud s.savedBaud] }

/-- `Flush()`: every byte received and not delivered is discarded (R72, R202). -/
def flushed (s : State) : State := { s with rx := [], trace := s.trace ++ [.flush] }

/-- `Lock()`: `TXLK <- 1` (R34). -/
def locked (s : State) : State := { s with txlk := true, trace := s.trace ++ [.lock] }

/-- `Unlock()`: `TXLK <- 0` (R34). -/
def unlocked (s : State) : State := { s with txlk := false, trace := s.trace ++ [.unlock] }

/-- `Respond(STATUS, VALUE, AUX)`, and `ST <- IDLE` (R204). -/
def responded (s : State) : State :=
  { s with st := .idle, trace := s.trace ++ [.respond s.status s.value s.aux] }

/-- `FB <- bytes; HI <- 0` (R25). -/
def loadFrame (bytes : List Byte) (s : State) : State := { s with fb := bytes, hi := 0#8, hiWraps := 0 }

/-- How many bytes of `FB` have been sent: `HI`, and 256 for each time it wrapped (R25, log 9). -/
def sentCount (s : State) : Nat := 256 * s.hiWraps + s.hi.toNat

/-- `Tx(FB[HI]); HI <- HI + 1`, `HI` a u8 whose wraps are counted (R25, R133, log 9). -/
def frameByteSent (b : Byte) (s : State) : State :=
  { s with
    hi := s.hi + 1#8, hiWraps := if s.hi = 255#8 then s.hiWraps + 1 else s.hiWraps,
    trace := s.trace ++ [.tx b] }

/-- `IDX <- 0; ACKED <- 0`: a transfer starts (R30). -/
def countersReset (s : State) : State := { s with idx := 0#32, acked := 0#32 }

/-- A received byte is delivered (R72). -/
def rxDelivered (b : Byte) (rest : List Byte) (s : State) : State :=
  { s with rx := rest, trace := s.trace ++ [.rx (some b)] }

/-- A free value has been drawn (log 8). -/
def drawn (k : Nat) (s : State) : State := { s with draws := s.draws + k }

/-- `RPH <- p` (R29). -/
def phase (p : BitVec 2) (s : State) : State := { s with rph := p }

/-- `LEN_W <- w; LEN_IDX <- 0; LEN_ACC <- 0; RPH <- 0`: the start of `LenRead(w)` (R134). -/
def lenStarted (w : Nat) (s : State) : State :=
  { s with lenW := BitVec.ofNat 3 w, lenIdx := 0#3, lenAcc := 0#32, rph := 0#2 }

/-- One byte into the length decoder (R26, R134). -/
def lenByteTaken (b : Byte) (s : State) : State :=
  { s with lenAcc := s.lenAcc + (b.zeroExtend 32 <<< (8 * s.lenIdx.toNat)), lenIdx := s.lenIdx + 1#3 }

/-- `N <- LEN_ACC` (R27, R134). -/
def lenDone (s : State) : State := { s with n := s.lenAcc }

/-- `REM <- n; IDX <- 0; RPH <- 1`: the start of `RxPayload(n)` (R135). -/
def payloadStarted (count : Word) (s : State) : State :=
  { s with rem := count, idx := 0#32, rph := 1#2 }

/-- `DBYTE <- x` (R135). -/
def dataTaken (b : Byte) (s : State) : State := { s with dbyte := b }

/-- `Data(DBYTE); IDX <- IDX + 1; REM <- REM - 1` (R135). -/
def dataHanded (s : State) : State :=
  { s with idx := s.idx + 1#32, rem := s.rem - 1#32, trace := s.trace ++ [.data s.dbyte] }

/-- `LAST <- b; Tx(LAST); IDX <- IDX + 1; RPH <- 3` (R211). -/
def payloadByteSent (b : Byte) (s : State) : State :=
  { s with last := b, idx := s.idx + 1#32, rph := 3#2, trace := s.trace ++ [.tx b] }

/-- `Tx(CONFIRM); ACKED <- ACKED + 1` (R211). -/
def confirmSent (s : State) : State :=
  { s with acked := s.acked + 1#32, trace := s.trace ++ [.tx Config.confirm] }

/-- `FR <- f` (R36). -/
def frameIndex (f : Half) (s : State) : State := { s with fr := f }

/-- `PB <- 0` (R170). -/
def packStarted (s : State) : State := { s with pb := 0#32 }

/-- `PBYTE <- b; Tx(PBYTE); PB <- PB + 1` (R170). -/
def packedByteSent (b : Byte) (s : State) : State :=
  { s with pbyte := b, pb := s.pb + 1#32, trace := s.trace ++ [.tx b] }

/-! ## Events -/

/-- Whether the environment offers events of a kind (R9). -/
def offers (s : State) (k : EventKind) : Bool := !s.withheld.contains k

/-- A step whose event the environment offers goes to `t`; otherwise the engine waits (R9, R303). -/
def whenOffered (k : EventKind) (s t : State) : Result :=
  if offers s k then .next t else .next s

/-- `x <- Rx()` (R10): the oldest received byte, or `END` (`none` inside) when none is held and the
transport signals end of input. The outer `none`: neither is offered. A byte read after the listener broke
exclusivity is a free byte (R300); `END` consumes nothing (R271). -/
def receive (s : State) : Option (Option Byte × State) :=
  if offers s .rx then
    match s.rx with
    | b :: rest =>
      if s.tapped then
        some (some (Config.freeByte s.draws), drawn 1 (rxDelivered (Config.freeByte s.draws) rest s))
      else some (some b, rxDelivered b rest s)
    | [] => if s.rxEnd then some (none, emit (.rx none) s) else none
  else none

/-- One reading step: wait, or go on with `END` or with the byte. -/
def stepRx (s : State) (onEnd : State → State) (onByte : Byte → State → State) : Result :=
  match receive s with
  | none => .next s
  | some (none, t) => .next (onEnd t)
  | some (some x, t) => .next (onByte x t)

/-! ## Ending a request: raise, finish, epilogue -/

/-- End the operation with an outcome: record it and go to the first step of the epilogue. Nothing else
changes (R13, R271). -/
def conclude (status : Status) (value aux : Word) (s : State) : State :=
  { s with status := statusCode status, value := value, aux := aux, st := epilogueEntry s }

/-- `raise S(v, a)`: take an exception (R13, R271). -/
def raise (status : Status) (value aux : Word) (s : State) : State := conclude status value aux s

/-- `finish S(v, a)`: complete without an error (R13). -/
def finish (status : Status) (value : Word) (s : State) : State := conclude status value 0#32 s

/-- The epilogue's steps (R204, R215), the only way back to `IDLE` (R272): `UNLOCK`, `BAUD_RESTORE`,
`RESUME`, `RESP`. Any other step has no row in R215 for the request at hand. -/
def stepEpilogue (s : State) : Result :=
  match s.st with
  | .unlock => .next (goto (afterUnlock s) (unlocked s))
  | .baudRestore => whenOffered .setBaud s (goto (afterRestore s) (baudRestored s))
  | .resume => .next (goto .resp (resumed s))
  | .resp => whenOffered .respond s (responded s)
  | _ => .fault .noRule

/-! ## Frames -/

/-- `LOCK`: `Lock(); TXLK <- 1`, then `k`. It completes only when no other writer holds the lock (R77). -/
def stepLock (k : State → State) (s : State) : Result :=
  if offers s .lock && !s.otherLock then .next (k (goto .txFrame (locked s))) else .next s

/-- `TX_FRAME` (R133): `Tx(FB[HI]); HI <- HI + 1`, then `done` when no byte of `FB` is left. The byte sent is
the one at `sentCount`, which is `HI` in a frame of at most 255 bytes (log 9). -/
def stepTxFrame (done : State → State) (s : State) : Result :=
  match s.fb[sentCount s]? with
  | none => .fault .frameIndexPastEnd
  | some b =>
    whenOffered .tx s
      (if sentCount (frameByteSent b s) < s.fb.length then frameByteSent b s else done (frameByteSent b s))

/-! ## The prologue of a read-expecting request -/

/-- `Prologue(elev)` (R200 to R203, R215): `PAUSE`, `BAUD_GET`, `BAUD_UP`, `FLUSH`, `LOCK`; then the
epilogue's steps. -/
def stepBracket (elev : Bool) (s : State) : Result :=
  match s.st with
  | .pause => whenOffered .pause s (goto (if elev then .baudGet else afterAcquisition s) (paused s))
  | .baudGet =>
    if elev then
      whenOffered .getBaud s
        (if s.baud = Config.baudHigh then goto (afterAcquisition s) (baudRead s)
         else goto .baudUp (baudSaved (baudRead s)))
    else .fault .noRule
  | .baudUp =>
    if elev then whenOffered .setBaud s (goto (afterAcquisition s) (baudRaised s)) else .fault .noRule
  | .flush => whenOffered .flush s (goto .lock (flushed s))
  | .lock => stepLock id s
  | _ => stepEpilogue s

/-! ## Reading a length field and a payload -/

/-- The start of `LenRead(w)` (R134): set up the length decoder and go to `RX_LEN`. -/
def beginLen (w : Nat) (s : State) : State := goto .rxLen (lenStarted w s)

/-- `RX_LEN` (R134): one byte of the field; when it is complete, `N <- LEN_ACC` and `done`. -/
def stepRxLen (done : State → State) (s : State) : Result :=
  stepRx s
    (fun t => raise .truncatedRead (s.lenIdx.zeroExtend 32) (s.rph.zeroExtend 32) t)
    (fun b t =>
      if (lenByteTaken b t).lenIdx.toNat < t.lenW.toNat then lenByteTaken b t
      else done (lenDone (lenByteTaken b t)))

/-- The start of `RxPayload(n)` (R135): `RX_DATA` if a byte is to come, otherwise `done`. -/
def beginPayload (count : Word) (done : State → State) (s : State) : State :=
  if count = 0#32 then done (payloadStarted count s) else goto .rxData (payloadStarted count s)

/-- `RX_DATA` (R135): one payload or record byte into `DBYTE`. -/
def stepRxData (s : State) : Result :=
  stepRx s
    (fun t => raise .truncatedRead s.idx (s.rph.zeroExtend 32) t)
    (fun b t => goto .dataOut (dataTaken b t))

/-- `DATA_OUT` (R135): `Data(DBYTE)`, count it, and read on while bytes remain. -/
def stepDataOut (done : State → State) (s : State) : Result :=
  whenOffered .data s
    (if (dataHanded s).rem = 0#32 then done (dataHanded s) else goto .rxData (dataHanded s))

/-! ## Requests -/

/-- A descriptor with exactly `MAX_PARAMS` parameter entries, as R90 gives every descriptor (log 14). -/
def fitRequest (maxParams : Nat) (d : Request) : Request :=
  { d with params := padParams maxParams (d.params.take maxParams) }

/-- `RQ <- d`, and `CHECK` next (R137). What the caller changed before is stable from now on, and a breach
of exclusivity belongs to its own request (R64, R300). -/
def latch (d : Request) (s : State) : State :=
  { s with rq := d, st := .check, pixChanged := [], payChanged := [], tapped := false }

/-- `RQ <- Accept()` of the caller's oldest descriptor, the rest left waiting (R137, R304). -/
def accepted (d : Request) (rest : List Request) (s : State) : State :=
  emit (.accept d) (latch d { s with requests := rest })

/-- `IDLE` (R137): accept the caller's oldest descriptor, or wait. -/
def stepIdle (s : State) : Result :=
  match s.requests with
  | [] => .next s
  | d :: rest => whenOffered .accept s (accepted (fitRequest s.cfg.maxParams d) rest s)

/-- A request the common checks of R137 refuse: `CHECK` raises `BAD_REQUEST` with the cause, and the
epilogue's steps follow. -/
def stepRefused (e : BadRequest) (s : State) : Result :=
  match s.st with
  | .check => .next (raise .badRequest 0#32 (badRequestCause e) s)
  | _ => stepEpilogue s

end Sys2Proof.Machine
end

