-- ==== Sys2Proof/Machine/Framer.lean ====
section
/-! DEFINITION. The command framer's requests (40_framer.md): `cmd` (R138) and `wipe` (R139). -/
namespace Sys2Proof.Machine

/-- A request that sends one frame and reads nothing: `CHECK` loads it, `LOCK`, `TX_FRAME`, then
`OK(length, 0)` (R138, R139). -/
def frameOnly (bytes : List Byte) (s : State) : Result :=
  match s.st with
  | .check => .next (goto .lock (loadFrame bytes s))
  | .lock => stepLock id s
  | .txFrame => stepTxFrame (finish .ok (BitVec.ofNat 32 bytes.length)) s
  | _ => stepEpilogue s

/-- `cmd` (R138): one step of the request. `VALUE` is the number of bytes sent, `2 + NPARAM`. -/
def execCmd (opcode : Byte) (params : List Word) (s : State) : Result :=
  frameOnly (frame opcode params) s

/-- `wipe` (R139): one step of the request. -/
def execWipe (s : State) : Result :=
  frameOnly wipeFrame s

end Sys2Proof.Machine
end

