-- ==== Sys2Proof/Machine/Packer.lean ====
section
/-! DEFINITION. The bitmap packer's request `bitmap` (41_packer.md R170 to R178). -/
namespace Sys2Proof.Machine

/-- The operands of a `bitmap` request that the packer's functions read. -/
structure Picture where
  w       : Half
  h       : Half
  thr     : Byte
  inv     : Bool
  stride  : BitVec 3
  pixBase : Word
deriving DecidableEq, Repr

/-- `BitmapChecks()` (R171), in its order: the status, value and aux of the first check that fails. -/
def bitmapChecks (w h nf : Half) (stride : BitVec 3) (pixBase : Word) : Option (Status × Word × Word) :=
  if stride.toNat ∉ Config.strides then some (.badRequest, 0#32, 4#32)
  else if nf = 0#16 then some (.badRequest, 0#32, 5#32)
  else if Config.dimMax < w.toNat ∨ Config.dimMax < h.toNat then
    some (.dimensionOverflow, w.zeroExtend 32, h.zeroExtend 32)
  else if w.toNat * h.toNat % 8 ≠ 0 then
    some (.invalidDimensions, BitVec.ofNat 32 (w.toNat * h.toNat), 0#32)
  else if 2 ^ 32 < pixEnd pixBase nf w h stride then some (.badRequest, 0#32, 6#32)
  else none

/-- The intensity of pixel `p` of frame `f` (R172). Its `S` reads are draws `draw + p mod 8 * S` on. -/
def pixelLevel (pic : Picture) (s : State) (f p : Nat) : Nat :=
  intensity pic.stride ((List.range pic.stride.toNat).map fun k =>
    stableRead s.pix s.pixChanged (s.draws + p % 8 * pic.stride.toNat + k)
      (pixAddr pic.pixBase pic.w pic.h pic.stride f p k))

/-- `PackByte(f, j)` (R174): pixels `8j` to `8j + 7` of frame `f`, the first in bit 7. -/
def packByte (pic : Picture) (s : State) (f j : Nat) : Byte :=
  packBits fun i => pixelBit pic.thr pic.inv (pixelLevel pic s f (8 * j + i))

/-- The first address past the pixels of packed byte `j` of frame `f` (R61). -/
def packEnd (pic : Picture) (f j : Nat) : Nat :=
  pixAddr pic.pixBase pic.w pic.h pic.stride f (8 * j + 8) 0

/-- `PK_DATA` (R170): pack and send one byte; `8 * S` bytes of `PIX` are read. -/
def stepPkData (pic : Picture) (s : State) : Result :=
  if 2 ^ 32 < packEnd pic s.fr.toNat s.pb.toNat then .fault .addressOutOfSpace
  else
    whenOffered .tx s
      (goto (if (s.pb + 1#32).toNat < packedBytes pic.w pic.h then .pkData else .unlock)
        (drawn (8 * pic.stride.toNat) (packedByteSent (packByte pic s s.fr.toNat s.pb.toNat) s)))

/-- `UNLOCK` of a bitmap frame (R170): `FR <- FR + 1`, then the next frame's `LOCK`, or after the last one
`OK(NF, 0)` with `FR = NF` (log 10). -/
def stepFrameUnlock (nf : Half) (s : State) : Result :=
  if s.fr.toNat + 1 < nf.toNat then .next (goto .lock (frameIndex (s.fr + 1#16) (unlocked s)))
  else .next (finish .ok (nf.zeroExtend 32) (frameIndex (s.fr + 1#16) (unlocked s)))

/-- `CHECK` of `bitmap` (R170): the checks, then the first frame's `LOCK`. -/
def bitmapCheck (w h nf : Half) (stride : BitVec 3) (pixBase : Word) (s : State) : State :=
  match bitmapChecks w h nf stride pixBase with
  | some (status, value, aux) => raise status value aux s
  | none => goto .lock (frameIndex 0#16 s)

/-- `bitmap` (R170): one step of the request. -/
def execBitmap (x0 y0 : Word) (w h : Half) (thr : Byte) (inv : Bool) (stride : BitVec 3) (nf : Half)
    (pixBase : Word) (s : State) : Result :=
  match s.st with
  | .check => .next (bitmapCheck w h nf stride pixBase s)
  | .lock => stepLock (fun t => packStarted (loadFrame (bitmapHeader x0 y0 w h) t)) s
  | .txFrame => stepTxFrame (goto (if 0 < packedBytes w h then .pkData else .unlock)) s
  | .pkData => stepPkData ⟨w, h, thr, inv, stride, pixBase⟩ s
  | .unlock => stepFrameUnlock nf s
  | _ => stepEpilogue s

end Sys2Proof.Machine
end

