-- ==== Sys2Proof/Machine/Sequencer.lean ====
section
/-! DEFINITION. The handshake sequencer's requests (42_sequencer.md): downloads (R206 to R208), uploads
(R209 to R211), `ls` (R213) and `free` (R214). -/
namespace Sys2Proof.Machine

/-! ## Downloads -/

/-- After the 4-byte size (R208): `EMPTY_FILE` when it is 0, otherwise the payload. -/
def afterSize (s : State) : State :=
  if s.n = 0#32 then finish .emptyFile 0#32 s
  else beginPayload s.n (finish .ok s.n) s

/-- `CHECK` of a download (R208): load the command; `IDX` and `ACKED` start at 0 (R30, log 11). -/
def downloadCheck (op : Byte) (params : List Word) (s : State) : State :=
  goto .pause (countersReset (loadFrame (frame op params) s))

/-- `Download(op)` (R208), one step. -/
def download (op : Byte) (elev : Bool) (params : List Word) (s : State) : Result :=
  match s.st with
  | .check => .next (downloadCheck op params s)
  | .txFrame => stepTxFrame (beginLen Config.sizeW) s
  | .rxLen => stepRxLen afterSize s
  | .rxData => stepRxData s
  | .dataOut => stepDataOut (finish .ok s.n) s
  | _ => stepBracket elev s

/-- `dlfile` (R206): one step of the request. -/
def execDlfile (elev : Bool) (params : List Word) (s : State) : Result :=
  download s.cfg.opReadFile elev params s

/-- `dlfs` (R207): one step of the request. -/
def execDlfs (elev : Bool) (params : List Word) (s : State) : Result :=
  download s.cfg.opReadFs elev params s

/-! ## Uploads -/

/-- The checks of an upload (R211), in their order: the status, value and aux of the first that fails.
`capacity` is `FS_CAPACITY` for a filesystem upload and absent for a font (R210, R267). -/
def uploadChecks (capacity : Option Word) (wl : LenWidth) (base len : Word) :
    Option (Status × Word × Word) :=
  match capacity with
  | some cap =>
    if cap.toNat < len.toNat then some (.capacityExceeded, len, cap)
    else if 2 ^ (8 * wl.bytes) ≤ len.toNat then some (.badRequest, 0#32, 7#32)
    else if 2 ^ 32 < payEnd base len then some (.badRequest, 0#32, 6#32)
    else none
  | none =>
    if 2 ^ (8 * wl.bytes) ≤ len.toNat then some (.badRequest, 0#32, 7#32)
    else if 2 ^ 32 < payEnd base len then some (.badRequest, 0#32, 6#32)
    else none

/-- `RX_READY` (R211): one byte, which must be `READY`. -/
def stepRxReady (len : Word) (s : State) : Result :=
  stepRx s
    (fun t => raise .truncatedRead 0#32 (s.rph.zeroExtend 32) t)
    (fun r t =>
      if r ≠ Config.ready then raise .uploadRejected (r.zeroExtend 32) 0#32 t
      else if t.idx.toNat < len.toNat then goto .upSend t
      else finish .ok len t)

/-- The payload byte at `PAY_BASE + IDX` (R62, R64). -/
def payloadByte (base : Word) (s : State) : Byte :=
  stableRead s.pay s.payChanged s.draws (base.toNat + s.idx.toNat)

/-- `UP_SEND` (R211): read the payload byte at `PAY_BASE + IDX`, send it, count it. -/
def stepUpSend (base : Word) (s : State) : Result :=
  if 2 ^ 32 ≤ base.toNat + s.idx.toNat then .fault .addressOutOfSpace
  else whenOffered .tx s (goto .upEcho (drawn 1 (payloadByteSent (payloadByte base s) s)))

/-- `UP_ECHO` (R211): the echo must equal the byte sent. -/
def stepUpEcho (s : State) : Result :=
  stepRx s
    (fun t => raise .truncatedRead (s.idx - 1#32) (s.rph.zeroExtend 32) t)
    (fun e t =>
      if e ≠ s.last then
        raise .uploadDesync (s.idx - 1#32) ((s.last.zeroExtend 32 <<< 8) ||| e.zeroExtend 32) t
      else goto .upConf t)

/-- `UP_CONF` (R211): confirm the byte, and send the next or finish. -/
def stepUpConf (len : Word) (s : State) : Result :=
  whenOffered .tx s
    (if s.idx.toNat < len.toNat then goto .upSend (confirmSent s) else finish .ok len (confirmSent s))

/-- The operands of `Upload(op, Wl, is_fs)` (R211); `capacity` is present when `is_fs = 1`. -/
structure UploadKind where
  op       : Byte
  wl       : LenWidth
  capacity : Option Word
deriving DecidableEq, Repr

/-- `CHECK` of an upload (R211): the checks, then the header with `IDX` and `ACKED` at 0. -/
def uploadCheck (u : UploadKind) (params : List Word) (base len : Word) (s : State) : State :=
  match uploadChecks u.capacity u.wl base len with
  | some (status, value, aux) => raise status value aux s
  | none => goto .pause (countersReset (loadFrame (uploadHeader u.op params len u.wl) s))

/-- `Upload(op, Wl, is_fs)` (R211), one step. -/
def upload (u : UploadKind) (params : List Word) (base len : Word) (s : State) : Result :=
  match s.st with
  | .check => .next (uploadCheck u params base len s)
  | .txFrame => stepTxFrame (fun t => goto .rxReady (phase 2#2 t)) s
  | .rxReady => stepRxReady len s
  | .upSend => stepUpSend base s
  | .upEcho => stepUpEcho s
  | .upConf => stepUpConf len s
  | _ => stepBracket true s

/-- A font upload of an instance (R209). -/
def fontUpload (c : Config) : UploadKind := ⟨c.opUploadFont, c.upLenWFont, none⟩

/-- A filesystem upload of an instance (R210). -/
def fsUpload (c : Config) : UploadKind := ⟨c.opUploadFs, c.upLenWFs, some c.fsCapacity⟩

/-- `upfont` (R209): one step of the request. -/
def execUpfont (params : List Word) (payBase payLen : Word) (s : State) : Result :=
  upload (fontUpload s.cfg) params payBase payLen s

/-- `upfs` (R210): one step of the request. -/
def execUpfs (params : List Word) (payBase payLen : Word) (s : State) : Result :=
  upload (fsUpload s.cfg) params payBase payLen s

/-! ## Directory and free space -/

/-- `ls` (R213): one step of the request. The records are `4 * N` bytes, in one read. -/
def execLs (params : List Word) (s : State) : Result :=
  match s.st with
  | .check => .next (goto .pause (loadFrame (frame s.cfg.opLs params) s))
  | .txFrame => stepTxFrame (beginLen Config.countW) s
  | .rxLen =>
    stepRxLen (fun t => beginPayload (BitVec.ofNat 32 (Config.recW * t.n.toNat)) (finish .ok t.n) t) s
  | .rxData => stepRxData s
  | .dataOut => stepDataOut (finish .ok s.n) s
  | _ => stepBracket false s

/-- `free` (R214): one step of the request. The count is reported unchanged. -/
def execFree (params : List Word) (s : State) : Result :=
  match s.st with
  | .check => .next (goto .pause (loadFrame (frame s.cfg.opFree params) s))
  | .txFrame => stepTxFrame (beginLen Config.sizeW) s
  | .rxLen => stepRxLen (fun t => finish .ok t.n t) s
  | _ => stepBracket false s

end Sys2Proof.Machine
end

