-- ==== Sys2Proof/Machine/Dispatch.lean ====
section
/-! DEFINITION. One arm per request: one step of it, the one `ST` names (R9, R14). -/
namespace Sys2Proof.Machine

def exec (i : Instr) (s : State) : Host.Outcome State Fault Refusal :=
  match i with
  | .cmd opcode params => Sys2Proof.Machine.execCmd opcode params s
  | .bitmap x0 y0 w h thr inv stride nf pixBase => Sys2Proof.Machine.execBitmap x0 y0 w h thr inv stride nf pixBase s
  | .dlfile elev params => Sys2Proof.Machine.execDlfile elev params s
  | .dlfs elev params => Sys2Proof.Machine.execDlfs elev params s
  | .upfont params payBase payLen => Sys2Proof.Machine.execUpfont params payBase payLen s
  | .upfs params payBase payLen => Sys2Proof.Machine.execUpfs params payBase payLen s
  | .ls params => Sys2Proof.Machine.execLs params s
  | .free params => Sys2Proof.Machine.execFree params s
  | .wipe => Sys2Proof.Machine.execWipe s

end Sys2Proof.Machine
end

