-- ==== Sys2Proof/Machine/Environment.lean ====
section
/-! DEFINITION. What the agents around the engine do (R8, R280 to R284) and reset (R290, R292). -/
namespace Sys2Proof.Machine

/-- Reset (R290): the engine's registers take their reset values; no event is performed and no other agent
changes (R292): the transport's rate, the received bytes and the caller's memories stay. -/
def resetEngine (s : State) : State :=
  { State.resetWith s.cfg with
    requests := s.requests, pix := s.pix, pay := s.pay, pixChanged := s.pixChanged,
    payChanged := s.payChanged, baud := s.baud, rx := s.rx, rxEnd := s.rxEnd, keys := s.keys,
    tapped := s.tapped, otherLock := s.otherLock, withheld := s.withheld, turns := s.turns,
    draws := s.draws, trace := s.trace }

/-- The changed addresses after the caller stores `b` at `a`: during a request (`busy`) an address whose
byte differs from what it held joins them (R64, log 20). -/
def noteChange (s : State) (m : Memory) (changed : List Nat) (a : Nat) (b : Byte) : List Nat :=
  if busy s = true ∧ memRead m a ≠ b then a :: changed else changed

/-- The listener takes the oldest received byte (R281). Under `EXCL` that is a breach: what the engine
reads from then on in the request is unspecified (R300). -/
def listenerTake (s : State) : State :=
  match s.rx with
  | [] => s
  | b :: rest => { s with rx := rest, keys := s.keys ++ [b], tapped := s.tapped || s.excl }

/-- One environment action. An attempt the arbiter does not grant does nothing (R284, log 15). -/
def applyEnv (a : EnvAction) (s : State) : State :=
  match a with
  | .submit d => { s with requests := s.requests ++ [d] }
  | .deviceSends b => { s with rx := s.rx ++ [b] }
  | .endOfInput on => { s with rxEnd := on }
  | .listenerTakes => listenerTake s
  | .otherLocks => if s.txlk then s else { s with otherLock := true }
  | .otherUnlocks => { s with otherLock := false }
  | .otherTx b => if s.otherLock then emit (.foreignTx b) s else s
  | .callerWritesPix a b =>
    { s with pix := memWrite s.pix a.toNat b, pixChanged := noteChange s s.pix s.pixChanged a.toNat b }
  | .callerWritesPay a b =>
    { s with pay := memWrite s.pay a.toNat b, payChanged := noteChange s s.pay s.payChanged a.toNat b }
  | .otherSetsBaud r => { s with baud := r }
  | .withhold k => { s with withheld := k :: s.withheld }
  | .offer k => { s with withheld := s.withheld.filter (· != k) }
  | .reset => resetEngine s

end Sys2Proof.Machine
end

