-- ==== Sys2Proof/Machine/Engine.lean ====
section
/-! DEFINITION. One turn of the engine, and one turn of the whole system (R8, R9). -/
namespace Sys2Proof.Machine

/-- One step of the engine: `IDLE` accepts; otherwise the request latched in `RQ` takes the step `ST`
names; a descriptor the decoder rejects is refused in `CHECK` (R137). -/
def engineStep (s : State) : Result :=
  match s.st with
  | .reserved _ => .fault .reservedState
  | .idle => stepIdle s
  | _ =>
    match decode s.cfg s.rq with
    | .ok i => exec i s
    | .error e => stepRefused e s

/-- One turn: the engine's, or one environment action (log 1). No turn listed is an engine turn. -/
def turnStep (s : State) : Result :=
  match s.turns with
  | [] => engineStep s
  | .engine :: rest => engineStep { s with turns := rest }
  | .env a :: rest => .next (applyEnv a { s with turns := rest })

/-- The turns with an engine turn first. -/
def engineFirst (turns : List Turn) : List Turn :=
  match turns with
  | [] => []
  | t :: rest => .engine :: t :: rest

/-- The state right after the `Accept` of the descriptor whose `W0` is the low `nbits` bits of `w` and
whose other fields are 0, the engine to move next (log 2). -/
def placeRequest (nbits w : Nat) (s : State) : State :=
  { latch (Request.ofW0 s.cfg.maxParams (BitVec.ofNat 32 (w % 2 ^ nbits))) s with
    turns := engineFirst s.turns }

end Sys2Proof.Machine
end

