-- ==== Sys2Proof/Machine/Step.lean ====
section
/-! DEFINITION. The step function and the placing of a request. -/
namespace Sys2Proof.Machine

/-- One step of the system. -/
def step (s : State) : Host.Outcome State Fault Refusal := turnStep s

/-- `s` with a request placed where the next step runs it: latched in `RQ`, `ST = CHECK`, the engine to
move. The machine fetches nothing (R81): this stands for a completed `Accept` (log 2). -/
def State.withFetchWord (s : State) (nbits w : Nat) : State := placeRequest nbits w s

end Sys2Proof.Machine
end

