-- ==== Sys2Proof/Machine/Caller.lean ====
section
/-! DEFINITION. What the caller and an observer read off the events (R60, R75, R282), and the directory
records the caller decodes (30_encoding.md R112). The engine reads none of this. -/
namespace Sys2Proof.Machine

/-! ## The streams of R60, as views of the trace -/

/-- The TX stream: the bytes the engine has written, in order. -/
def txStream (trace : List Event) : List Byte :=
  trace.filterMap fun e => match e with
    | .tx b => some b
    | _ => none

/-- The RX stream as the engine has read it: the bytes delivered, in order. -/
def rxStream (trace : List Event) : List Byte :=
  trace.filterMap fun e => match e with
    | .rx x => x
    | _ => none

/-- The data-out stream: the bytes handed to the caller, in order. -/
def dataStream (trace : List Event) : List Byte :=
  trace.filterMap fun e => match e with
    | .data b => some b
    | _ => none

/-- The wire: every byte written, by the engine (`true`) or by another writer (`false`), in order (R71). -/
def wire (trace : List Event) : List (Bool × Byte) :=
  trace.filterMap fun e => match e with
    | .tx b => some (true, b)
    | .foreignTx b => some (false, b)
    | _ => none

/-- The response records, in order. -/
def responses (trace : List Event) : List (BitVec 4 × Word × Word) :=
  trace.filterMap fun e => match e with
    | .respond s v a => some (s, v, a)
    | _ => none

/-- What the caller keeps of each finished request's `Data` bytes, oldest request first: all of them when
the status is `OK`, none otherwise (R282). `got` holds the bytes of the request under way. -/
def keptData : List Event → List Byte → List (List Byte)
  | [], _ => []
  | .accept _ :: es, _ => keptData es []
  | .data b :: es, got => keptData es (got ++ [b])
  | .respond s _ _ :: es, got => (if s = 0#4 then got else []) :: keptData es []
  | _ :: es, got => keptData es got

/-! ## Directory records -/

/-- `fileType` of a record (R112). -/
inductive FileType where
  | font
  | bitmap
deriving DecidableEq, Repr

/-- The fields of one 4-byte directory record (R112). -/
structure DirRecord where
  used     : Bool
  fileType : FileType
  fileId   : BitVec 7
  size     : BitVec 16
deriving DecidableEq, Repr

/-- One record from its four bytes (R112, C17). -/
def dirRecord (b0 b1 b2 b3 : Byte) : DirRecord where
  used := b0 != 0#8
  fileType := if b1.getLsbD 0 then .bitmap else .font
  fileId := b1.extractLsb' 1 7
  size := b3 ++ b2

/-- The records of the bytes `ls` delivers, four bytes each, the unused slots left out (R112). -/
def directory : List Byte → List DirRecord
  | b0 :: b1 :: b2 :: b3 :: rest =>
    if (dirRecord b0 b1 b2 b3).used then dirRecord b0 b1 b2 b3 :: directory rest else directory rest
  | _ => []

end Sys2Proof.Machine
end

