-- ==== Sys2Proof/Safety.lean ====
section
/-! DEFINITION. Runs of several steps, and what a safe state is: the invariant of the step machine of
42_sequencer.md R215 over the flags of R32 to R34. -/
namespace Sys2Proof.Machine

/-- `k` steps, stopping at the first fault or refusal. -/
def steps : Nat → State → Result
  | 0, s => .next s
  | k + 1, s =>
    match step s with
    | .next t => steps k t
    | .fault r => .fault r
    | .refused r => .refused r

/-- The environment offers every event it can offer, no other writer holds the TX lock, and only the
engine moves. -/
abbrev quiet (s : State) : Prop := s.turns = [] ∧ s.withheld = [] ∧ s.otherLock = false

/-- The frame a request loads into `FB` (R100 to R106): for `bitmap` the six header bytes. -/
def frameOf (c : Config) : Instr → List Byte
  | .cmd op ps => frame op ps
  | .bitmap x0 y0 w h _ _ _ _ _ => bitmapHeader x0 y0 w h
  | .dlfile _ ps => frame c.opReadFile ps
  | .dlfs _ ps => frame c.opReadFs ps
  | .upfont ps _ len => uploadHeader c.opUploadFont ps len c.upLenWFont
  | .upfs ps _ len => uploadHeader c.opUploadFs ps len c.upLenWFs
  | .ls ps => frame c.opLs ps
  | .free ps => frame c.opFree ps
  | .wipe => wipeFrame

/-- The first of a request's own checks that fails in `CHECK` (R171, R211), if one does. -/
def ownChecks (c : Config) : Instr → Option (Status × Word × Word)
  | .bitmap _ _ w h _ _ stride nf base => bitmapChecks w h nf stride base
  | .upfont _ base len => uploadChecks none c.upLenWFont base len
  | .upfs _ base len => uploadChecks (some c.fsCapacity) c.upLenWFs base len
  | .cmd .. => none
  | .dlfile .. => none
  | .dlfs .. => none
  | .ls .. => none
  | .free .. => none
  | .wipe => none

/-- The width of the length field a request reads, 0 for none (R109 to R111). -/
def lengthWidth : Instr → Nat
  | .dlfile .. => Config.sizeW
  | .dlfs .. => Config.sizeW
  | .ls .. => Config.countW
  | .free .. => Config.sizeW
  | .cmd .. => 0
  | .bitmap .. => 0
  | .upfont .. => 0
  | .upfs .. => 0
  | .wipe => 0

/-- How many payload or record bytes follow a length `n`, where a request reads any (R109, R110). -/
def payloadCount : Instr → Word → Option Word
  | .dlfile .., n => some n
  | .dlfs .., n => some n
  | .ls .., n => some (BitVec.ofNat 32 (Config.recW * n.toNat))
  | .free .., _ => none
  | .cmd .., _ => none
  | .bitmap .., _ => none
  | .upfont .., _ => none
  | .upfs .., _ => none
  | .wipe, _ => none

/-- The payload length of an upload. -/
def uploadLen : Instr → Option Word
  | .upfont _ _ len => some len
  | .upfs _ _ len => some len
  | .cmd .. => none
  | .bitmap .. => none
  | .dlfile .. => none
  | .dlfs .. => none
  | .ls .. => none
  | .free .. => none
  | .wipe => none

/-- The frame count and the packed bytes of one frame of a `bitmap` request (R170). -/
def bitmapShape : Instr → Option (Nat × Nat)
  | .bitmap _ _ w h _ _ _ nf _ => some (nf.toNat, packedBytes w h)
  | .cmd .. => none
  | .dlfile .. => none
  | .dlfs .. => none
  | .upfont .. => none
  | .upfs .. => none
  | .ls .. => none
  | .free .. => none
  | .wipe => none

/-- `STATUS` holds a status R260 names. -/
@[simp] abbrev concluded (s : State) : Prop := s.status.toNat ≤ 8

/-- The flags of a request between its `CHECK` and its epilogue: the lock as given, the token exactly for
a read-expecting request, the rate raised only by an elevating one (R32 to R34, R76, R200). -/
@[simp] abbrev flagsAre (i : Instr) (lock : Bool) (s : State) : Prop :=
  s.txlk = lock ∧ s.excl = readExpecting i ∧ (s.baudChg = true → elevating i = true)

/-- The header frame stands whole in `FB`, nothing sent (R25). -/
@[simp] abbrev frameLoaded (i : Instr) (s : State) : Prop :=
  s.fb = frameOf s.cfg i ∧ s.hi = 0#8 ∧ s.hiWraps = 0

/-- A bitmap request is at a frame it has (R36); no other request is constrained. -/
@[simp] abbrev frameInRange (i : Instr) (s : State) : Prop :=
  ∀ nf nb, bitmapShape i = some (nf, nb) → s.fr.toNat < nf

/-- An upload's counters before its first payload byte (R30, R211); no other request is constrained. -/
@[simp] abbrev countersClear (i : Instr) (s : State) : Prop :=
  uploadLen i ≠ none → s.idx = 0#32 ∧ s.acked = 0#32

/-- Payload byte `IDX - 1` of an upload has been sent and not confirmed (R216, R264). -/
@[simp] abbrev oneUnconfirmed (i : Instr) (s : State) : Prop :=
  ∃ len, uploadLen i = some len ∧ s.idx.toNat ≤ len.toNat ∧ s.idx.toNat = s.acked.toNat + 1

/-- `IDX` bytes of a payload have been handed over and `REM` are to come (R28, R30, R135). -/
@[simp] abbrev payloadSplit (i : Instr) (s : State) : Prop :=
  s.rem ≠ 0#32 ∧ ∃ count, payloadCount i s.n = some count ∧ s.idx.toNat + s.rem.toNat = count.toNat

/-- What holds while the request `i` stands at the step `ST` (R215): its checks have passed until it has
ended, the flags are those of R32 to R34, and the registers are those the step reads. -/
def requestInv (i : Instr) (s : State) : Prop :=
  match s.st with
  | .idle => nothingHeld s
  | .reserved _ => False
  | .check => nothingHeld s
  | .pause =>
    ownChecks s.cfg i = none ∧ readExpecting i = true ∧ nothingHeld s ∧ frameLoaded i s ∧ countersClear i s
  | .baudGet =>
    ownChecks s.cfg i = none ∧ elevating i = true ∧ flagsAre i false s ∧ s.baudChg = false ∧
      frameLoaded i s ∧ countersClear i s
  | .baudUp =>
    ownChecks s.cfg i = none ∧ elevating i = true ∧ flagsAre i false s ∧ s.baudChg = false ∧
      frameLoaded i s ∧ countersClear i s
  | .flush =>
    ownChecks s.cfg i = none ∧ readExpecting i = true ∧ s.cfg.flushOnAcquire = true ∧ flagsAre i false s ∧
      frameLoaded i s ∧ countersClear i s
  | .lock =>
    ownChecks s.cfg i = none ∧ flagsAre i false s ∧ (bitmapShape i = none → frameLoaded i s) ∧
      frameInRange i s ∧ countersClear i s
  | .txFrame =>
    ownChecks s.cfg i = none ∧ flagsAre i true s ∧ s.fb = frameOf s.cfg i ∧ sentCount s < s.fb.length ∧
      (bitmapShape i ≠ none → s.pb = 0#32) ∧ frameInRange i s ∧ countersClear i s
  | .rxLen =>
    flagsAre i true s ∧ s.lenW.toNat = lengthWidth i ∧ s.lenIdx.toNat < lengthWidth i ∧ s.rph = 0#2 ∧
      s.lenAcc.toNat < 2 ^ (8 * s.lenIdx.toNat)
  | .rxData => flagsAre i true s ∧ payloadSplit i s ∧ s.rph = 1#2
  | .dataOut => flagsAre i true s ∧ payloadSplit i s ∧ s.rph = 1#2
  | .rxReady =>
    ownChecks s.cfg i = none ∧ flagsAre i true s ∧ uploadLen i ≠ none ∧ countersClear i s ∧ s.rph = 2#2
  | .upSend =>
    ownChecks s.cfg i = none ∧ flagsAre i true s ∧ s.acked = s.idx ∧
      ∃ len, uploadLen i = some len ∧ s.idx.toNat < len.toNat
  | .upEcho => ownChecks s.cfg i = none ∧ flagsAre i true s ∧ oneUnconfirmed i s ∧ s.rph = 3#2
  | .upConf => ownChecks s.cfg i = none ∧ flagsAre i true s ∧ oneUnconfirmed i s ∧ s.rph = 3#2
  | .pkData =>
    ownChecks s.cfg i = none ∧ flagsAre i true s ∧
      ∃ nf nb, bitmapShape i = some (nf, nb) ∧ s.fr.toNat < nf ∧ s.pb.toNat < nb
  | .unlock =>
    flagsAre i true s ∧ (bitmapShape i = none → concluded s) ∧
      ∀ nf nb, bitmapShape i = some (nf, nb) →
        ownChecks s.cfg i = none ∧ s.fr.toNat < nf ∧ s.pb.toNat = nb
  | .baudRestore =>
    elevating i = true ∧ readExpecting i = true ∧ s.txlk = false ∧ s.excl = true ∧ s.baudChg = true ∧ concluded s
  | .resume =>
    readExpecting i = true ∧ s.txlk = false ∧ s.excl = true ∧ s.baudChg = false ∧ concluded s
  | .resp => nothingHeld s ∧ concluded s

/-- What holds at the step `ST`: between requests nothing is held (R272); a reserved code is never there
(R22); during a request, the request's own invariant; a descriptor the decoder rejects is refused in
`CHECK` with nothing held (R137). -/
def stepInv (s : State) : Prop :=
  match s.st with
  | .idle => nothingHeld s
  | .reserved _ => False
  | _ =>
    match decode s.cfg s.rq with
    | .ok i => requestInv i s
    | .error _ => nothingHeld s ∧ (s.st = .check ∨ s.st = .resp ∧ concluded s)

/-- The invariant every step keeps: the caller's memories are canonical, `RQ` has `MAX_PARAMS` parameter
entries (R23), the TX lock has one holder (R34, R284), and the step's own invariant. -/
def Inv (s : State) : Prop :=
  memoryWf s.pix = true ∧ memoryWf s.pay = true ∧ s.rq.params.length = s.cfg.maxParams ∧
    (s.txlk = true → s.otherLock = false) ∧ stepInv s

/-- The event a step performs that the environment may withhold (R21, R303); `CHECK`, `UNLOCK` and `RESUME`
have none. -/
def eventOf : St → Option EventKind
  | .idle => some .accept
  | .check => none
  | .pause => some .pause
  | .baudGet => some .getBaud
  | .baudUp => some .setBaud
  | .flush => some .flush
  | .lock => some .lock
  | .txFrame => some .tx
  | .rxLen => some .rx
  | .rxData => some .rx
  | .dataOut => some .data
  | .rxReady => some .rx
  | .upSend => some .tx
  | .upEcho => some .rx
  | .upConf => some .tx
  | .pkData => some .tx
  | .unlock => none
  | .baudRestore => some .setBaud
  | .resume => none
  | .resp => some .respond
  | .reserved _ => none

/-- A bitmap request with packed bytes to send, `NB > 0` (R215). -/
def hasPacked (i : Instr) : Bool :=
  match bitmapShape i with
  | some (_, nb) => decide (0 < nb)
  | none => false

/-- A bitmap request with a frame after the current one, `FR + 1 < NF` (R215). -/
def hasNextFrame (i : Instr) (s : State) : Bool :=
  match bitmapShape i with
  | some (nf, _) => decide (s.fr.toNat + 1 < nf)
  | none => false

/-- A request with payload or record bytes to read after the length `n` (R215). -/
def hasPayload (i : Instr) (n : Word) : Bool :=
  match payloadCount i n with
  | some count => count != 0#32
  | none => false

/-- The next state of a step of the request `i` that has performed its event, from `s` to `t`: the table of
R215, row by row; the index in the row of `TX_FRAME` is `sentCount` (log 9). -/
def nextStateRow (i : Instr) (s t : State) : Prop :=
  match s.st with
  | .idle => t.st = .check
  | .check =>
    if ownChecks s.cfg i ≠ none then t.st = .resp
    else if readExpecting i = true then t.st = .pause else t.st = .lock
  | .pause => if elevating i = true then t.st = .baudGet else t.st = afterAcquisition s
  | .baudGet => if s.baud ≠ Config.baudHigh then t.st = .baudUp else t.st = afterAcquisition s
  | .baudUp => t.st = afterAcquisition s
  | .flush => t.st = .lock
  | .lock => t.st = .txFrame
  | .txFrame =>
    if sentCount t < t.fb.length then t.st = .txFrame
    else if 0 < lengthWidth i then t.st = .rxLen
    else if uploadLen i ≠ none then t.st = .rxReady
    else if hasPacked i = true then t.st = .pkData
    else t.st = .unlock
  | .rxLen =>
    if t.trace = s.trace ++ [.rx none] then t.st = .unlock
    else if t.lenIdx.toNat < t.lenW.toNat then t.st = .rxLen
    else if hasPayload i t.n = true then t.st = .rxData
    else t.st = .unlock
  | .rxData => if t.trace = s.trace ++ [.rx none] then t.st = .unlock else t.st = .dataOut
  | .dataOut => if 0 < t.rem.toNat then t.st = .rxData else t.st = .unlock
  | .rxReady =>
    if t.trace = s.trace ++ [.rx (some Config.ready)] then
      ∃ len, uploadLen i = some len ∧ (if 0 < len.toNat then t.st = .upSend else t.st = .unlock)
    else t.st = .unlock
  | .upSend => t.st = .upEcho
  | .upEcho =>
    if t.trace = s.trace ++ [.rx (some s.last)] then t.st = .upConf else t.st = .unlock
  | .upConf => ∃ len, uploadLen i = some len ∧ (if s.idx.toNat < len.toNat then t.st = .upSend else t.st = .unlock)
  | .pkData =>
    ∃ nf nb, bitmapShape i = some (nf, nb) ∧ (if t.pb.toNat < nb then t.st = .pkData else t.st = .unlock)
  | .unlock =>
    if hasNextFrame i s = true then
      t.st = .lock ∧ t.fr.toNat = s.fr.toNat + 1
    else t.st = afterUnlock s
  | .baudRestore => t.st = afterRestore s
  | .resume => t.st = .resp
  | .resp => t.st = .idle
  | .reserved _ => False

/-- The rate the transport had before the request is `rate`: it runs at it, or the engine has raised it or is
about to and has saved it (R31, R32, R205). -/
def rateKept (rate : Word) (s : State) : Prop :=
  (s.baudChg = false → s.baud = rate) ∧ (s.baudChg = true ∨ s.st = .baudUp → s.savedBaud = rate)

/-- Whether two descriptors agree on what their common code uses (R93) and on the bits R91 checks. -/
def agreeOnUsed (d e : Request) : Prop :=
  d.code = e.code ∧ d.reserved = e.reserved ∧
    (usesParams d.code = true → d.nparam = e.nparam ∧ d.usedParams = e.usedParams) ∧
    (d.code = 0#4 → d.opcode = e.opcode) ∧
    (d.code = 1#4 → d.inv = e.inv ∧ d.stride = e.stride ∧ d.thr = e.thr ∧ d.x0 = e.x0 ∧ d.y0 = e.y0 ∧
      d.w = e.w ∧ d.h = e.h ∧ d.nf = e.nf ∧ d.pixBase = e.pixBase) ∧
    (d.code = 2#4 ∨ d.code = 3#4 → d.elev = e.elev) ∧
    (d.code = 4#4 ∨ d.code = 5#4 → d.payBase = e.payBase ∧ d.payLen = e.payLen)

end Sys2Proof.Machine
end

