-- ==== Sys2Proof/Certificates/Slice0/Obligations.lean ====
section
/-! DEFINITION. The statements for the provers. Each docstring names the rule of spec/ it formalises; where a
statement rests on a choice of the model it names the log entry. Statements over all states hold for every
instance, since State carries the instance parameters (R6, R37). -/

open Sys2Proof Sys2Proof.Machine

/-! ## Encoding -/

/-- R91, R93, R116: decoding the descriptor of a well-formed request gives the request back, with every
operand, for every instance. -/
def Obligations.DecodeEncodeRoundTrip : Prop :=
  ∀ (c : Config) (i : Instr), i.wf c → decode c (encode c i) = .ok i

/-- R91, last sentence, with R93's table: two descriptors that agree on the code, on the reserved bits and on
the fields their code uses decode alike. -/
def Obligations.DecodeIgnoresUnusedFields : Prop :=
  ∀ (c : Config) (d e : Request), agreeOnUsed d e → decode c d = decode c e

/-- R118: a descriptor that decodes matches exactly the row of its mnemonic; and a descriptor whose `W0`
matches a row, and whose parameter count is within `MAX_PARAMS` where the code uses one, decodes to a request
of that row. -/
def Obligations.OpcodeTableMatchesDecoder : Prop :=
  (∀ (c : Config) (d : Request) (i : Instr), decode c d = .ok i →
    ∀ r ∈ opcodeTable, (r.accepts d.w0 = true ↔ r.mnemonic = mnemonicOf i)) ∧
  (∀ (c : Config) (d : Request), ∀ r ∈ opcodeTable, r.accepts d.w0 = true →
    (usesParams d.code = true → d.nparam.toNat ≤ c.maxParams) →
    ∃ i, decode c d = .ok i ∧ mnemonicOf i = r.mnemonic)

/-- Words written out from 30_encoding.md R91, R92 and R116's examples decode to the requests they stand
for: a sanity statement. -/
def Obligations.SpecWordsDecode : Prop :=
  decodeTableWord 32 0x00580000 = some (.cmd 0x58#8 []) ∧
  decodeTableWord 32 0x80000041 =
    some (.bitmap 0#32 0#32 0#16 0#16 128#8 false 1#3 0#16 0#32) ∧
  decodeTableWord 32 0x00000012 = some (.dlfile true []) ∧
  decodeTableWord 32 0x00000008 = some .wipe ∧
  decodeTableWord 32 0x00000009 = none ∧ decodeTableWord 32 0x00580200 = none

/-- R115, which the spec derives from R100 to R106: the number of bytes a request sends per frame. -/
def Obligations.FrameLengthByRequest : Prop :=
  ∀ (c : Config) (op : Byte) (ps : List Word) (e : Bool) (base len : Word) (x0 y0 : Word) (w h nf : Half)
    (thr : Byte) (inv : Bool) (st : BitVec 3),
    (frameOf c (.cmd op ps)).length = 2 + ps.length ∧
    (frameOf c (.dlfile e ps)).length = 2 + ps.length ∧
    (frameOf c (.dlfs e ps)).length = 2 + ps.length ∧
    (frameOf c (.ls ps)).length = 2 + ps.length ∧
    (frameOf c (.free ps)).length = 2 + ps.length ∧
    (frameOf c (.upfont ps base len)).length = 2 + ps.length + c.upLenWFont.bytes ∧
    (frameOf c (.upfs ps base len)).length = 2 + ps.length + c.upLenWFs.bytes ∧
    (frameOf c (.bitmap x0 y0 w h thr inv st nf base)).length + packedBytes w h =
      6 + w.toNat * h.toNat / 8 ∧
    (frameOf c .wipe).length = 4

/-- Log 9: `HI` is a u8 (R25). In an instance with at most 249 parameters every frame of a well-formed
request has at most 255 bytes, so `HI` indexes every byte of it and the model's count of wraps stays 0;
derived. -/
def Obligations.FrameFitsByteIndex : Prop :=
  ∀ (c : Config) (i : Instr), i.wf c → c.maxParams ≤ 249 → (frameOf c i).length ≤ 255

/-! ## Operand functions -/

/-- R130: `sanitize(v)` is 0 for a negative value and the low 8 bits of any other, `max(0, v) & 0xFF`. -/
def Obligations.SanitizeSaturatesThenMasks : Prop :=
  ∀ v : Word, ((sanitize v).toNat : Int) = (max 0 v.toInt) % 256

/-- R12, R65: `LE(v, w)` has `w` bytes, and `fromLE` of them is `v` modulo `2^(8w)`. -/
def Obligations.LittleEndianRoundTrip : Prop :=
  ∀ (v : Word) (w : Nat), (leBytes v w).length = w ∧ fromLE (leBytes v w) = v.toNat % 2 ^ (8 * w)

/-- R172, R173, R174 with R61 and R67: bit `7 - i` of packed byte `j` of frame `f` is the bit of pixel
`8j + i`: whether the channel sum, divided by the stride, is below the threshold, exclusive-or the inversion
flag. Channel byte `k` is the byte of `PIX` at `PIX_BASE + (f*W*H + p)*S + k`; where the caller changed that
address during the request (R64, R305) it is the free value of draw `draws + i*S + k`, whatever that is; the
numbering is the model's choice, log 8. -/
def Obligations.PackedBitIsPixelDarkness : Prop :=
  ∀ (pic : Picture) (s : State) (f j i : Nat), i < 8 →
    (packByte pic s f j).getLsbD (7 - i) =
      Bool.xor
        (decide (((List.range pic.stride.toNat).map fun k =>
            (if pic.pixBase.toNat +
                (f * pic.w.toNat * pic.h.toNat + (8 * j + i)) * pic.stride.toNat + k ∈ s.pixChanged then
              Config.freeByte (s.draws + i * pic.stride.toNat + k)
            else memRead s.pix (pic.pixBase.toNat +
              (f * pic.w.toNat * pic.h.toNat + (8 * j + i)) * pic.stride.toNat + k)).toNat).sum
              / pic.stride.toNat < pic.thr.toNat))
        pic.inv

/-- R177, which the spec derives from R172 to R174: inversion complements every packed byte; white pixels pack
to `00` and black ones to `FF` at threshold 128; a packed byte depends only on the bytes of its own eight pixels, so on no other frame. -/
def Obligations.PackerLaws : Prop :=
  (∀ (pic : Picture) (s : State) (f j : Nat),
    packByte { pic with inv := true } s f j = packByte { pic with inv := false } s f j ^^^ 0xFF#8) ∧
  (∀ (pic : Picture) (s : State) (f j : Nat), s.pixChanged = [] → pic.thr = 128#8 → pic.inv = false →
    pic.stride.toNat ∈ Config.strides →
    (∀ a, pixAddr pic.pixBase pic.w pic.h pic.stride f (8 * j) 0 ≤ a → a < packEnd pic f j →
      memRead s.pix a = 255#8) → packByte pic s f j = 0x00#8) ∧
  (∀ (pic : Picture) (s : State) (f j : Nat), s.pixChanged = [] → pic.thr = 128#8 → pic.inv = false →
    pic.stride.toNat ∈ Config.strides →
    (∀ a, pixAddr pic.pixBase pic.w pic.h pic.stride f (8 * j) 0 ≤ a → a < packEnd pic f j →
      memRead s.pix a = 0#8) → packByte pic s f j = 0xFF#8) ∧
  (∀ (pic : Picture) (s t : State) (f j : Nat), s.pixChanged = [] → t.pixChanged = [] →
    (∀ a, pixAddr pic.pixBase pic.w pic.h pic.stride f (8 * j) 0 ≤ a → a < packEnd pic f j →
      memRead s.pix a = memRead t.pix a) → packByte pic s f j = packByte pic t f j)

/-- R112: the fields of a directory record, and each four bytes taken as one slot, unused ones left out. -/
def Obligations.DirectoryRecordFields : Prop :=
  (∀ b0 b1 b2 b3 : Byte,
    ((dirRecord b0 b1 b2 b3).used = true ↔ b0.toNat ≠ 0) ∧
    ((dirRecord b0 b1 b2 b3).fileType = .bitmap ↔ b1.toNat % 2 = 1) ∧
    (dirRecord b0 b1 b2 b3).fileId.toNat = b1.toNat / 2 ∧
    (dirRecord b0 b1 b2 b3).size.toNat = b2.toNat + 256 * b3.toNat) ∧
  (∀ (b0 b1 b2 b3 : Byte) (slots rest : List Byte), slots.length % 4 = 0 →
    directory (slots ++ b0 :: b1 :: b2 :: b3 :: rest) =
      directory slots ++ (if b0.toNat ≠ 0 then [dirRecord b0 b1 b2 b3] else []) ++ directory rest)

/-! ## The step machine -/

/-- R9, R14, R137: at every step of a request, the engine's turn runs the request latched in `RQ`. That an
empty list of turns is an engine turn, and that a listed engine turn is used up, is the model's choice, log 1;
that `RQ` is decoded anew at each step is the model's reading, log 24. -/
def Obligations.StepRunsDecodedRequest : Prop :=
  ∀ (s : State) (i : Instr) (rest : List Turn), s.st ≠ .idle → stCode s.st ≤ 19#5 →
    decode s.cfg s.rq = .ok i →
    (s.turns = [] → step s = exec i s) ∧
    (s.turns = .engine :: rest → step s = exec i { s with turns := rest })

/-- R137 (its first line), R23, R304: in `IDLE` the engine accepts the caller's oldest descriptor, latching
it whole, or waits while there is none. A descriptor has `MAX_PARAMS` parameter entries (R90). The model's own:
the wait answers the unchanged state (log 3); the records of changed addresses (R64) and of a breach of
exclusivity (R300) are of one request, so this step clears them (logs 20 and 21). -/
def Obligations.IdleAcceptsOldestDescriptor : Prop :=
  ∀ (s : State), s.turns = [] → s.st = .idle → s.withheld = [] →
    (s.requests = [] → step s = .next s) ∧
    (∀ d rest, s.requests = d :: rest → d.params.length = s.cfg.maxParams →
      step s = .next { s with
        rq := d, st := .check, requests := rest, pixChanged := [], payChanged := [], tapped := false,
        trace := s.trace ++ [.accept d] })

/-- R23, R81, R304: a step of the engine outside `IDLE` accepts nothing and leaves `RQ` alone. -/
def Obligations.RequestLatchedUntilNextAccept : Prop :=
  ∀ (s t : State), engineStep s = .next t → s.st ≠ .idle →
    t.rq = s.rq ∧ t.requests = s.requests ∧ ∀ d, t.trace ≠ s.trace ++ [.accept d]

/-- R94, R95, R137: the common checks, in their order: a reserved code is refused with cause 1, else set
reserved bits with cause 2, else too many parameters with cause 3; nothing is performed and the response is
next. -/
def Obligations.CommonChecksRefuseBadRequest : Prop :=
  ∀ (s : State), s.turns = [] → s.st = .check → nothingHeld s →
    (9 ≤ s.rq.code.toNat →
      step s = .next { s with st := .resp, status := 8#4, value := 0#32, aux := 1#32 }) ∧
    (s.rq.code.toNat < 9 → s.rq.reserved ≠ 0#7 →
      step s = .next { s with st := .resp, status := 8#4, value := 0#32, aux := 2#32 }) ∧
    (s.rq.code.toNat < 9 → s.rq.reserved = 0#7 → s.rq.code.toNat ∈ [0, 2, 3, 4, 5, 6, 7] →
      s.cfg.maxParams < s.rq.nparam.toNat →
      step s = .next { s with st := .resp, status := 8#4, value := 0#32, aux := 3#32 })

/-- R215, which the spec derives from R138 and R200 to R214: a step that performs its event goes to the state
the table gives, row by row. The model's own: a step that answers the state it left is one that waits (log 3);
in the row of `TX_FRAME` the index the table calls `HI` is `HI` and 256 for each time the u8 has wrapped in this
frame (log 9). -/
def Obligations.StepFollowsNextStateTable : Prop :=
  ∀ (s t : State) (i : Instr), Inv s → s.turns = [] → s.st ≠ .idle → decode s.cfg s.rq = .ok i →
    step s = .next t → t ≠ s → nextStateRow i s t

/-- R9, R303: a step whose event the environment does not offer leaves the engine waiting in its state: an
event it withholds, a byte that neither arrives nor ends, a lock another writer holds. That the wait is a step
which answers the unchanged state as its next state is the model's choice, log 3. -/
def Obligations.UnofferedEventWaits : Prop :=
  (∀ (s : State) (k : EventKind), Inv s → s.turns = [] → eventOf s.st = some k → k ∈ s.withheld →
    step s = .next s) ∧
  (∀ (s : State), Inv s → s.turns = [] → eventOf s.st = some .rx → s.rx = [] → s.rxEnd = false →
    step s = .next s) ∧
  (∀ (s : State), Inv s → s.turns = [] → s.st = .lock → s.otherLock = true → step s = .next s)

/-- R32, R33, R34, R35: which steps of the engine change a flag, and to what. -/
def Obligations.FlagsChangeOnlyAtTheirSteps : Prop :=
  ∀ (s t : State), engineStep s = .next t →
    (t.excl ≠ s.excl → s.st = .pause ∧ t.excl = true ∨ s.st = .resume ∧ t.excl = false) ∧
    (t.txlk ≠ s.txlk → s.st = .lock ∧ t.txlk = true ∨ s.st = .unlock ∧ t.txlk = false) ∧
    (t.baudChg ≠ s.baudChg →
      s.st = .baudUp ∧ t.baudChg = true ∨ s.st = .baudRestore ∧ t.baudChg = false)

/-! ## Invariants -/

/-- The invariant of Safety.lean is kept by every step, the engine's and the environment's, reset included:
memories canonical, `RQ` of `MAX_PARAMS` entries, one holder of the TX lock, no reserved `ST` code, flags and
registers as R215's step needs them, only named statuses at `RESP`. It holds of the model's environment: a
writer that keeps the arbiter's rule (log 15), a descriptor fitted to `MAX_PARAMS` entries (log 14); and its
frame index is `HI` with the model's count of its wraps (log 9). -/
def Obligations.InvariantKeptByEveryStep : Prop :=
  ∀ (s t : State), Inv s → step s = .next t → Inv t

/-- The invariant holds right after reset, for every instance (R40, R290). -/
def Obligations.InvariantHoldsAtReset : Prop :=
  ∀ c : Config, Inv (State.resetWith c)

/-- R12, R22, R63: from a state that meets the invariant no step faults or refuses, and every step of every
request answers a next state: no reserved `ST` code, no step without a rule, no frame index past its frame, no
address outside the space. The model's own: that a step whose event is not offered answers a next state, the
unchanged one, is its choice, log 3; the four stops ruled out are those of log 18. -/
def Obligations.InvariantStepNeverFaults : Prop :=
  ∀ s : State, Inv s → (∃ t, step s = .next t) ∧
    ∀ i, s.st ≠ .idle → decode s.cfg s.rq = .ok i → ∃ t, exec i s = .next t

/-- R31, R32, and the last sentence of R205, which the spec derives from R201 and R204: the rate the transport
had before a request is kept as `rateKept` says by every step but another agent's change of the rate and a
reset. -/
def Obligations.PriorRateKeptByEveryStep : Prop :=
  ∀ (s t : State) (rate : Word), Inv s → rateKept rate s →
    (∀ r rest, s.turns ≠ .env (.otherSetsBaud r) :: rest) →
    (∀ rest, s.turns ≠ .env .reset :: rest) →
    step s = .next t → rateKept rate t

/-- R272, which the spec derives from R271 and R204: after the response the engine is in `IDLE` with every flag
0, and the transport runs at the rate it had before the request. -/
def Obligations.ResponseLeavesNothingHeld : Prop :=
  ∀ (s : State) (rate : Word), Inv s → rateKept rate s → s.turns = [] → s.withheld = [] → s.st = .resp →
    ∃ t, step s = .next t ∧ t.st = .idle ∧ t.txlk = false ∧ t.baudChg = false ∧ t.excl = false ∧
      t.baud = rate ∧ t.trace = s.trace ++ [.respond s.status s.value s.aux] ∧ s.status.toNat ≤ 8

/-! ## Frames -/

/-- R9, R37, R60: whatever step of whatever request `exec` performs, at most one event is recorded, and the
instance parameters, the latched request, the caller's queue, every byte of `PIX` and `PAY`, and the other
agents' state are unchanged. The destinations are the engine registers, the transport's rate and input and
the count of free values drawn. -/
def Obligations.ExecLeavesOthersUnchanged : Prop :=
  ∀ (i : Instr) (s t : State), exec i s = .next t →
    t.cfg = s.cfg ∧ t.rq = s.rq ∧ t.requests = s.requests ∧
    (∀ a, memRead t.pix a = memRead s.pix a) ∧ (∀ a, memRead t.pay a = memRead s.pay a) ∧
    t.pixChanged = s.pixChanged ∧ t.payChanged = s.payChanged ∧ t.rxEnd = s.rxEnd ∧ t.keys = s.keys ∧
    t.tapped = s.tapped ∧ t.otherLock = s.otherLock ∧ t.withheld = s.withheld ∧ t.turns = s.turns ∧
    ∃ es : List Event, t.trace = s.trace ++ es ∧ es.length ≤ 1

/-- R138, R139, R170, and R178, which the spec derives: `cmd`, `wipe` and `bitmap` write neither `EXCL` nor
`BAUD_CHG`, read no byte, change no rate, and leave the length decoder, the payload and the transfer registers
alone; `cmd` and `wipe` leave the packer's registers alone too. -/
def Obligations.NonReadingRequestFrame : Prop :=
  ∀ (i : Instr) (s t : State), readExpecting i = false → Inv s → decode s.cfg s.rq = .ok i → s.st ≠ .idle →
    exec i s = .next t →
    t.excl = s.excl ∧ t.baudChg = s.baudChg ∧ t.baud = s.baud ∧ t.savedBaud = s.savedBaud ∧ t.rx = s.rx ∧
    t.lenW = s.lenW ∧ t.lenIdx = s.lenIdx ∧ t.lenAcc = s.lenAcc ∧ t.n = s.n ∧ t.rem = s.rem ∧
    t.dbyte = s.dbyte ∧ t.rph = s.rph ∧ t.idx = s.idx ∧ t.acked = s.acked ∧ t.last = s.last ∧
    (bitmapShape i = none → t.fr = s.fr ∧ t.pb = s.pb ∧ t.pbyte = s.pbyte ∧ t.draws = s.draws)

/-- R206 to R214: what the read-expecting requests leave alone: the packer's registers in all of them; the
length decoder, `N`, `REM` and `DBYTE` in an upload; `LAST` in all but an upload; the rate, `SAVED_BAUD`,
`BAUD_CHG` and `ACKED` in `ls` and `free`; `REM`, `DBYTE` and `IDX` in `free`. -/
def Obligations.ReadingRequestFrame : Prop :=
  ∀ (i : Instr) (s t : State), readExpecting i = true → Inv s → decode s.cfg s.rq = .ok i → s.st ≠ .idle →
    exec i s = .next t →
    t.fr = s.fr ∧ t.pb = s.pb ∧ t.pbyte = s.pbyte ∧
    (uploadLen i ≠ none → t.lenW = s.lenW ∧ t.lenIdx = s.lenIdx ∧ t.lenAcc = s.lenAcc ∧ t.n = s.n ∧
      t.rem = s.rem ∧ t.dbyte = s.dbyte) ∧
    (uploadLen i = none → t.last = s.last) ∧
    (∀ ps, i = .ls ps ∨ i = .free ps →
      t.baud = s.baud ∧ t.savedBaud = s.savedBaud ∧ t.baudChg = s.baudChg ∧ t.acked = s.acked) ∧
    (∀ ps, i = .free ps → t.rem = s.rem ∧ t.dbyte = s.dbyte ∧ t.idx = s.idx)

/-- R24, R13: `STATUS`, `VALUE` and `AUX` are written only by the step that ends the operation: the step
whose next state is the first of the epilogue, and which is none of the epilogue's own steps. The `UNLOCK` of
`bitmap` is a step of its operation (R170); every other `UNLOCK` is the epilogue's. -/
def Obligations.OutcomeWrittenOnlyAtTheEnd : Prop :=
  ∀ (i : Instr) (s t : State), exec i s = .next t →
    t.status ≠ s.status ∨ t.value ≠ s.value ∨ t.aux ≠ s.aux →
    t.st = epilogueEntry t ∧ s.st ≠ .baudRestore ∧ s.st ≠ .resume ∧ s.st ≠ .resp ∧
      (s.st = .unlock → bitmapShape i ≠ none)

/-! ## The framer's requests -/

/-- R138, R100: `cmd`. In `CHECK` it loads its frame and asks for the lock; in a quiet environment the whole
request then sends exactly `FE op sanitize(p)...` under one lock and responds `OK(2 + NPARAM, 0)`; nothing
else changes. `HI`, a u8, ends at the frame's length modulo 256, the rest in the model's count of its wraps
(log 9). -/
def Obligations.CmdSendsItsFrame : Prop :=
  ∀ (op : Byte) (ps : List Word) (s : State), s.st = .check →
    exec (.cmd op ps) s =
      .next { s with st := .lock, fb := Config.esc :: op :: ps.map sanitize, hi := 0#8, hiWraps := 0 } ∧
    (quiet s → nothingHeld s → decode s.cfg s.rq = .ok (.cmd op ps) →
      steps (ps.length + 6) s = .next { s with
        st := .idle, fb := Config.esc :: op :: ps.map sanitize, hi := BitVec.ofNat 8 (2 + ps.length),
        hiWraps := (2 + ps.length) / 256,
        status := 0#4, value := BitVec.ofNat 32 (2 + ps.length), aux := 0#32,
        trace := s.trace ++ [.lock] ++ (Config.esc :: op :: ps.map sanitize).map .tx ++
          [.unlock, .respond 0#4 (BitVec.ofNat 32 (2 + ps.length)) 0#32] })

/-- R139, R104: `wipe`. In `CHECK` it loads `FE 21 59 21`; in a quiet environment the whole request sends
exactly those four bytes under one lock and responds `OK(4, 0)`; nothing else changes. The count of `HI`'s
wraps is the model's own, log 9. -/
def Obligations.WipeSendsFixedFrame : Prop :=
  ∀ (s : State), s.st = .check →
    exec .wipe s = .next { s with st := .lock, fb := [0xFE#8, 0x21#8, 0x59#8, 0x21#8], hi := 0#8, hiWraps := 0 } ∧
    (quiet s → nothingHeld s → decode s.cfg s.rq = .ok .wipe →
      steps 8 s = .next { s with
        st := .idle, fb := [0xFE#8, 0x21#8, 0x59#8, 0x21#8], hi := 4#8, hiWraps := 0, status := 0#4,
        value := 4#32, aux := 0#32,
        trace := s.trace ++ [.lock, .tx 0xFE#8, .tx 0x21#8, .tx 0x59#8, .tx 0x21#8, .unlock,
          .respond 0#4 4#32 0#32] })

/-- R133: one step of the frame sender, in every request: while the transport accepts the byte, the next byte
of `FB` is sent, the index advances by one, and the step is `TX_FRAME` again exactly while bytes are left. The
index is `HI`, and 256 for each time the u8 has wrapped in this frame, a count that is the model's own
(log 9). -/
def Obligations.FrameSenderSendsByteAtIndex : Prop :=
  ∀ (i : Instr) (s : State) (b : Byte), s.st = .txFrame → s.withheld = [] → Inv s →
    decode s.cfg s.rq = .ok i → s.fb[256 * s.hiWraps + s.hi.toNat]? = some b →
    ∃ t, exec i s = .next t ∧ t.trace = s.trace ++ [.tx b] ∧ t.fb = s.fb ∧ t.hi = s.hi + 1#8 ∧
      256 * t.hiWraps + t.hi.toNat = 256 * s.hiWraps + s.hi.toNat + 1 ∧
      (t.st = .txFrame ↔ 256 * s.hiWraps + s.hi.toNat + 1 < s.fb.length)

/-- Log 9, the model's reading of R25 beside R133 and R138: `HI` is a u8, so in a frame of more than 256 bytes
it wraps to 0 after the byte at 255, and the frame goes on with the byte at 256: two steps. -/
def Obligations.LongFrameIndexWraps : Prop :=
  ∀ (op : Byte) (ps : List Word) (s : State) (b c : Byte), s.st = .txFrame → quiet s →
    decode s.cfg s.rq = .ok (.cmd op ps) → s.hi = 255#8 → s.hiWraps = 0 → s.fb[255]? = some b →
    s.fb[256]? = some c →
    exec (.cmd op ps) s = .next { s with hi := 0#8, hiWraps := 1, trace := s.trace ++ [.tx b] } ∧
    ∃ t, steps 2 s = .next t ∧ t.hi = 1#8 ∧ t.trace = s.trace ++ [.tx b, .tx c]

/-! ## The packer's request -/

/-- R171, R265, R266, R268: the checks of `bitmap`, in their order; the first that fails ends the request
before any event. Otherwise the first frame is next. -/
def Obligations.BitmapChecksInOrder : Prop :=
  ∀ (x0 y0 : Word) (w h : Half) (thr : Byte) (inv : Bool) (stride : BitVec 3) (nf : Half) (base : Word)
    (s : State), s.st = .check → nothingHeld s →
    exec (.bitmap x0 y0 w h thr inv stride nf base) s = .next
      (if ¬(stride.toNat = 1 ∨ stride.toNat = 3 ∨ stride.toNat = 4) then
        { s with st := .resp, status := 8#4, value := 0#32, aux := 4#32 }
      else if nf.toNat = 0 then { s with st := .resp, status := 8#4, value := 0#32, aux := 5#32 }
      else if 255 < w.toNat ∨ 255 < h.toNat then
        { s with st := .resp, status := 6#4, value := w.zeroExtend 32, aux := h.zeroExtend 32 }
      else if ¬(8 ∣ w.toNat * h.toNat) then
        { s with st := .resp, status := 5#4, value := w.zeroExtend 32 * h.zeroExtend 32, aux := 0#32 }
      else if 2 ^ 32 < base.toNat + nf.toNat * w.toNat * h.toNat * stride.toNat then
        { s with st := .resp, status := 8#4, value := 0#32, aux := 6#32 }
      else { s with st := .lock, fr := 0#16 })

/-- R170, R175, R176: one frame of `bitmap`, from its `LOCK`: the six header bytes, then packed bytes
`0 .. NB-1` of frame `FR`, under one lock; then `FR` advances, and the next frame's `LOCK` is next, or after the
last frame the response `OK(NF, 0)`. `FR` advances after the last frame too, as R170's loop has it; that R36's
range of `FR` is that of a frame being sent is the model's reading, log 10. A byte the caller changed is a free
draw, numbered on from `draws`, log 8. -/
def Obligations.BitmapSendsOneFrame : Prop :=
  ∀ (x0 y0 : Word) (w h : Half) (thr : Byte) (inv : Bool) (stride : BitVec 3) (nf : Half) (base : Word)
    (s : State), s.st = .lock → quiet s → nothingHeld s →
    decode s.cfg s.rq = .ok (.bitmap x0 y0 w h thr inv stride nf base) →
    bitmapChecks w h nf stride base = none → s.fr.toNat < nf.toNat →
    ∃ t, steps (8 + packedBytes w h) s = .next t ∧
      t.trace = s.trace ++
        [.lock, .tx 0xFE#8, .tx 0x64#8, .tx (sanitize x0), .tx (sanitize y0), .tx (w.extractLsb' 0 8),
          .tx (h.extractLsb' 0 8)] ++
        (List.range (packedBytes w h)).map (fun j => .tx (packByte ⟨w, h, thr, inv, stride, base⟩
          { s with draws := s.draws + 8 * stride.toNat * j } s.fr.toNat j)) ++ [.unlock] ∧
      nothingHeld t ∧ t.pb.toNat = packedBytes w h ∧
      t.fr.toNat = s.fr.toNat + 1 ∧ (s.fr.toNat + 1 < nf.toNat → t.st = .lock) ∧
      (s.fr.toNat + 1 = nf.toNat →
        t.st = .resp ∧ t.status = 0#4 ∧ t.value = nf.zeroExtend 32 ∧ t.aux = 0#32)

/-- R170, R176, R178: `bitmap`. When its checks pass, `CHECK` goes to the first frame; in a quiet environment
the whole request sends `NF` frames in order, each with the same header and its own packed bytes, and responds
`OK(NF, 0)`, reading no byte. The caller has changed no byte. -/
def Obligations.BitmapSendsEveryFrame : Prop :=
  ∀ (x0 y0 : Word) (w h : Half) (thr : Byte) (inv : Bool) (stride : BitVec 3) (nf : Half) (base : Word)
    (s : State), s.st = .check → bitmapChecks w h nf stride base = none →
    exec (.bitmap x0 y0 w h thr inv stride nf base) s = .next { s with st := .lock, fr := 0#16 } ∧
    (quiet s → nothingHeld s → s.pixChanged = [] →
      decode s.cfg s.rq = .ok (.bitmap x0 y0 w h thr inv stride nf base) →
      ∃ t, steps (2 + nf.toNat * (8 + packedBytes w h)) s = .next t ∧ t.st = .idle ∧ nothingHeld t ∧
        t.rx = s.rx ∧
        t.trace = s.trace ++
          (List.range nf.toNat).flatMap (fun f =>
            [.lock] ++ (bitmapHeader x0 y0 w h).map .tx ++
            (List.range (packedBytes w h)).map (fun j =>
              .tx (packByte ⟨w, h, thr, inv, stride, base⟩ s f j)) ++ [.unlock]) ++
          [.respond 0#4 (nf.zeroExtend 32) 0#32])

/-! ## The brackets of the read-expecting requests -/

/-- R200, R201, R202, R215: the prologue, from `PAUSE` in a quiet environment: the token, the rate raised and
the old one saved exactly when the request elevates and the transport is not at 115200 already, the flush
exactly when the instance has it, then the lock; the frame stands loaded.
At a frame's first byte the model's own count of `HI`'s wraps (log 9) is 0 with `HI`. -/
def Obligations.PrologueTakesTokenRateAndLock : Prop :=
  ∀ (i : Instr) (s : State), s.st = .pause → quiet s → Inv s → decode s.cfg s.rq = .ok i →
    ∃ k t, k ≤ 5 ∧ steps k s = .next t ∧ t.st = .txFrame ∧ t.excl = true ∧ t.txlk = true ∧
      t.fb = s.fb ∧ t.hi = 0#8 ∧ t.hiWraps = 0 ∧ t.rx = (if s.cfg.flushOnAcquire = true then [] else s.rx) ∧
      (t.baudChg = true ↔ elevating i = true ∧ s.baud ≠ Config.baudHigh) ∧
      (elevating i = true → t.baud = Config.baudHigh) ∧ (elevating i = false → t.baud = s.baud) ∧
      (t.baudChg = true → t.savedBaud = s.baud) ∧ (t.baudChg = false → t.savedBaud = s.savedBaud) ∧
      t.trace = s.trace ++ [.pause] ++
        (if elevating i = true then
          .getBaud s.baud :: (if s.baud ≠ Config.baudHigh then [.setBaud Config.baudHigh] else [])
         else []) ++
        (if s.cfg.flushOnAcquire = true then [.flush] else []) ++ [.lock]

/-- R204, R205, R215: the epilogue, from its first step in a quiet environment, for every request: whatever is
held is released in the order lock, rate, token, and the outcome is reported; the rate is restored exactly
when it was changed. -/
def Obligations.EpilogueReleasesInOrder : Prop :=
  ∀ (i : Instr) (s : State), quiet s → Inv s → decode s.cfg s.rq = .ok i → bitmapShape i = none →
    s.st = epilogueEntry s →
    ∃ k t, k ≤ 4 ∧ steps k s = .next t ∧ t.st = .idle ∧ nothingHeld t ∧
      t.baud = (if s.baudChg = true then s.savedBaud else s.baud) ∧
      t.status = s.status ∧ t.value = s.value ∧ t.aux = s.aux ∧
      t.trace = s.trace ++ (if s.txlk = true then [.unlock] else []) ++
        (if s.baudChg = true then [.setBaud s.savedBaud] else []) ++
        (if s.excl = true then [.resume] else []) ++ [.respond s.status s.value s.aux]

/-! ## Downloads, directory, free space -/

/-- R206, R207, R208, R109: `dlfile` and `dlfs`. `CHECK` loads the read command and starts the prologue. From
the frame's first byte, in a quiet environment with the whole reply received, the request sends its frame,
reads the 4-byte size, hands every payload byte to the caller in order, and ends `OK(N, 0)`; a size of 0 ends
`EMPTY_FILE(0, 0)` with nothing more read. `IDX` and `ACKED` at 0 in `CHECK` is R30 (log 11).
At a frame's first byte the model's own count of `HI`'s wraps (log 9) is 0 with `HI`. -/
def Obligations.DownloadDeliversPayload : Prop :=
  ∀ (i : Instr) (op : Byte) (elev : Bool) (ps : List Word) (s : State),
    (i = .dlfile elev ps ∧ op = s.cfg.opReadFile ∨ i = .dlfs elev ps ∧ op = s.cfg.opReadFs) →
    (s.st = .check → exec i s = .next { s with
      st := .pause, fb := Config.esc :: op :: ps.map sanitize, hi := 0#8, hiWraps := 0,
      idx := 0#32, acked := 0#32 }) ∧
    (∀ (size : Word) (payload rest : List Byte), s.st = .txFrame → quiet s → s.txlk = true →
      s.tapped = false → decode s.cfg s.rq = .ok i → s.fb = frame op ps → s.hi = 0#8 →
      s.hiWraps = 0 → s.rx = leBytes size 4 ++ payload ++ rest → payload.length = size.toNat →
      ∃ t, steps (s.fb.length + 4 + 2 * payload.length) s = .next t ∧ t.st = .unlock ∧ t.rx = rest ∧
        t.n = size ∧ t.aux = 0#32 ∧ t.value = size ∧ t.status = (if size = 0#32 then 1#4 else 0#4) ∧
        t.txlk = true ∧ t.excl = s.excl ∧ t.baudChg = s.baudChg ∧
        t.trace = s.trace ++ (frame op ps).map .tx ++ (leBytes size 4).map (fun b => .rx (some b)) ++
          payload.flatMap (fun b => [.rx (some b), .data b]))

/-- R213, R110: `ls`. `CHECK` loads the command. From the frame's first byte, in a quiet environment with the
whole reply received, the request sends its frame, reads the count, hands all `4 * C` record bytes to the
caller in order, used or not, and ends `OK(C, 0)`.
At a frame's first byte the model's own count of `HI`'s wraps (log 9) is 0 with `HI`. -/
def Obligations.LsDeliversRecords : Prop :=
  ∀ (ps : List Word) (s : State),
    (s.st = .check → exec (.ls ps) s = .next { s with
      st := .pause, fb := Config.esc :: s.cfg.opLs :: ps.map sanitize, hi := 0#8, hiWraps := 0 }) ∧
    (∀ (count : Byte) (records rest : List Byte), s.st = .txFrame → quiet s → s.txlk = true →
      s.tapped = false → decode s.cfg s.rq = .ok (.ls ps) → s.fb = frame s.cfg.opLs ps → s.hi = 0#8 →
      s.hiWraps = 0 → s.rx = count :: records ++ rest → records.length = 4 * count.toNat →
      ∃ t, steps (s.fb.length + 1 + 2 * records.length) s = .next t ∧ t.st = .unlock ∧ t.rx = rest ∧
        t.status = 0#4 ∧ t.value = count.zeroExtend 32 ∧ t.aux = 0#32 ∧ t.txlk = true ∧ t.excl = s.excl ∧
        t.baudChg = s.baudChg ∧
        t.trace = s.trace ++ (frame s.cfg.opLs ps).map .tx ++ [.rx (some count)] ++
          records.flatMap (fun b => [.rx (some b), .data b]))

/-- R214, R111, R134: `free`. `CHECK` loads the command. From the frame's first byte, in a quiet environment
with the reply received, the request sends its frame, reads the 4-byte little-endian count and ends
`OK(count, 0)` with no data.
At a frame's first byte the model's own count of `HI`'s wraps (log 9) is 0 with `HI`. -/
def Obligations.FreeReportsCount : Prop :=
  ∀ (ps : List Word) (s : State),
    (s.st = .check → exec (.free ps) s = .next { s with
      st := .pause, fb := Config.esc :: s.cfg.opFree :: ps.map sanitize, hi := 0#8, hiWraps := 0 }) ∧
    (∀ (b0 b1 b2 b3 : Byte) (rest : List Byte), s.st = .txFrame → quiet s → s.txlk = true →
      s.tapped = false → decode s.cfg s.rq = .ok (.free ps) → s.fb = frame s.cfg.opFree ps → s.hi = 0#8 →
      s.hiWraps = 0 → s.rx = b0 :: b1 :: b2 :: b3 :: rest →
      ∃ t, steps (s.fb.length + 4) s = .next t ∧ t.st = .unlock ∧ t.rx = rest ∧ t.status = 0#4 ∧
        t.value.toNat = b0.toNat + 2 ^ 8 * b1.toNat + 2 ^ 16 * b2.toNat + 2 ^ 24 * b3.toNat ∧
        t.aux = 0#32 ∧ t.txlk = true ∧ t.excl = s.excl ∧ t.baudChg = s.baudChg ∧
        t.trace = s.trace ++ (frame s.cfg.opFree ps).map .tx ++
          [.rx (some b0), .rx (some b1), .rx (some b2), .rx (some b3)])

/-- R134: the length decoder of every request that has one: byte `b` at index `LEN_IDX = k` adds `b << 8k`,
and the field stays below `2^(8 (k+1))`; after the last byte `N` is the whole value. -/
def Obligations.LengthDecoderAssemblesLittleEndian : Prop :=
  ∀ (i : Instr) (s : State) (b : Byte) (rest : List Byte), s.st = .rxLen → Inv s → s.withheld = [] →
    decode s.cfg s.rq = .ok i → s.tapped = false → s.rx = b :: rest →
    ∃ t, exec i s = .next t ∧ t.rx = rest ∧ t.trace = s.trace ++ [.rx (some b)] ∧
      t.lenAcc.toNat = s.lenAcc.toNat + b.toNat * 2 ^ (8 * s.lenIdx.toNat) ∧
      t.lenIdx.toNat = s.lenIdx.toNat + 1 ∧
      (t.st = .rxLen ↔ s.lenIdx.toNat + 1 < lengthWidth i) ∧
      (s.lenIdx.toNat + 1 = lengthWidth i → t.n = t.lenAcc)

/-- R262: end of input, at every step that reads: `TRUNCATED_READ`, with the count within the phase, in its
range, and the phase code, and the epilogue next. The byte that did not come consumes nothing (R271). -/
def Obligations.EndOfInputRaisesTruncatedRead : Prop :=
  ∀ (i : Instr) (s : State), Inv s → decode s.cfg s.rq = .ok i → s.withheld = [] → s.rx = [] →
    s.rxEnd = true →
    (s.st = .rxLen → s.lenIdx.toNat < s.lenW.toNat ∧ exec i s = .next { s with
      st := .unlock, status := 2#4, value := s.lenIdx.zeroExtend 32, aux := 0#32,
      trace := s.trace ++ [.rx none] }) ∧
    (s.st = .rxData → (∃ count, payloadCount i s.n = some count ∧ s.idx.toNat < count.toNat) ∧
      exec i s = .next { s with
        st := .unlock, status := 2#4, value := s.idx, aux := 1#32, trace := s.trace ++ [.rx none] }) ∧
    (s.st = .rxReady → exec i s = .next { s with
      st := .unlock, status := 2#4, value := 0#32, aux := 2#32, trace := s.trace ++ [.rx none] }) ∧
    (s.st = .upEcho → s.idx.toNat = s.acked.toNat + 1 ∧ exec i s = .next { s with
      st := .unlock, status := 2#4, value := s.acked, aux := 3#32, trace := s.trace ++ [.rx none] })

/-! ## Uploads -/

/-- R211, R267, R268: the checks of `upfs` and `upfont`, in their order; the first that fails ends the request
before any event. Otherwise the header is loaded and the prologue starts.
At a frame's first byte the model's own count of `HI`'s wraps (log 9) is 0 with `HI`. -/
def Obligations.UploadChecksInOrder : Prop :=
  ∀ (ps : List Word) (base len : Word) (s : State), s.st = .check → nothingHeld s →
    exec (.upfs ps base len) s = .next
      (if s.cfg.fsCapacity.toNat < len.toNat then
        { s with st := .resp, status := 7#4, value := len, aux := s.cfg.fsCapacity }
      else if 2 ^ (8 * s.cfg.upLenWFs.bytes) ≤ len.toNat then
        { s with st := .resp, status := 8#4, value := 0#32, aux := 7#32 }
      else if 2 ^ 32 < base.toNat + len.toNat then
        { s with st := .resp, status := 8#4, value := 0#32, aux := 6#32 }
      else { s with
        st := .pause, idx := 0#32, acked := 0#32, hi := 0#8, hiWraps := 0,
        fb := Config.esc :: s.cfg.opUploadFs :: ps.map sanitize ++ leBytes len s.cfg.upLenWFs.bytes }) ∧
    exec (.upfont ps base len) s = .next
      (if 2 ^ (8 * s.cfg.upLenWFont.bytes) ≤ len.toNat then
        { s with st := .resp, status := 8#4, value := 0#32, aux := 7#32 }
      else if 2 ^ 32 < base.toNat + len.toNat then
        { s with st := .resp, status := 8#4, value := 0#32, aux := 6#32 }
      else { s with
        st := .pause, idx := 0#32, acked := 0#32, hi := 0#8, hiWraps := 0,
        fb := Config.esc :: s.cfg.opUploadFont :: ps.map sanitize ++ leBytes len s.cfg.upLenWFont.bytes })

/-- R209, R210, R211, R107: `upfont` and `upfs`. When the checks pass, `CHECK` loads the header and starts the
prologue. From the header's first byte, in a quiet environment with a device that is ready and echoes every
byte, the request sends the header, reads the ready byte, and for each payload byte sends it, reads its echo
and confirms it; it ends `OK(PAY_LEN, 0)`. The caller has changed no byte.
At a frame's first byte the model's own count of `HI`'s wraps (log 9) is 0 with `HI`. -/
def Obligations.UploadSendsConfirmedPayload : Prop :=
  ∀ (i : Instr) (ps : List Word) (base len : Word) (s : State),
    (i = .upfont ps base len ∨ i = .upfs ps base len) → ownChecks s.cfg i = none →
    (s.st = .check → exec i s = .next { s with
      st := .pause, fb := frameOf s.cfg i, hi := 0#8, hiWraps := 0, idx := 0#32, acked := 0#32 }) ∧
    (∀ (payload rest : List Byte), s.st = .txFrame → quiet s → s.txlk = true → s.tapped = false →
      s.payChanged = [] → decode s.cfg s.rq = .ok i → s.fb = frameOf s.cfg i → s.hi = 0#8 →
      s.hiWraps = 0 → s.idx = 0#32 → s.acked = 0#32 →
      payload = (List.range len.toNat).map (fun k => memRead s.pay (base.toNat + k)) →
      s.rx = 0x01#8 :: payload ++ rest →
      ∃ t, steps (s.fb.length + 1 + 3 * len.toNat) s = .next t ∧ t.st = .unlock ∧ t.rx = rest ∧
        t.idx = len ∧ t.acked = len ∧ t.status = 0#4 ∧ t.value = len ∧ t.aux = 0#32 ∧ t.txlk = true ∧
        t.excl = s.excl ∧ t.baudChg = s.baudChg ∧
        t.trace = s.trace ++ (frameOf s.cfg i).map .tx ++ [.rx (some 0x01#8)] ++
          payload.flatMap (fun b => [.tx b, .rx (some b), .tx 0x01#8]))

/-- R263: a byte other than `0x01` after the header ends the upload with `UPLOAD_REJECTED(r, 0)`; no payload
byte has been sent, and none is. -/
def Obligations.WrongReadyByteRejectsUpload : Prop :=
  ∀ (i : Instr) (ps : List Word) (base len : Word) (s : State) (r : Byte) (rest : List Byte),
    (i = .upfont ps base len ∨ i = .upfs ps base len) → Inv s → decode s.cfg s.rq = .ok i →
    s.st = .rxReady → s.withheld = [] → s.tapped = false → s.rx = r :: rest → r ≠ 0x01#8 →
    s.idx = 0#32 ∧ exec i s = .next { s with
      st := .unlock, status := 3#4, value := r.zeroExtend 32, aux := 0#32, rx := rest,
      trace := s.trace ++ [.rx (some r)] }

/-- R264: a wrong echo of payload byte `i` ends the upload with `UPLOAD_DESYNC(i, LAST << 8 | e)`: bytes
`0 .. i` have been sent, bytes `0 .. i-1` confirmed, byte `i` not. -/
def Obligations.WrongEchoDesyncsUpload : Prop :=
  ∀ (i : Instr) (ps : List Word) (base len : Word) (s : State) (e : Byte) (rest : List Byte),
    (i = .upfont ps base len ∨ i = .upfs ps base len) → Inv s → decode s.cfg s.rq = .ok i →
    s.st = .upEcho → s.withheld = [] → s.tapped = false → s.rx = e :: rest → e ≠ s.last →
    s.idx.toNat = s.acked.toNat + 1 ∧
    ∃ t, exec i s = .next t ∧ t.st = .unlock ∧ t.status = 4#4 ∧ t.value = s.acked ∧
      t.aux.toNat = 256 * s.last.toNat + e.toNat ∧ t.rx = rest ∧ t.acked = s.acked ∧ t.idx = s.idx ∧
      t.trace = s.trace ++ [.rx (some e)]

/-- R64, R305: one payload byte of an upload: the byte at `PAY_BASE + IDX` goes out and into `LAST`; where the
caller changed that address during the request it is a free value, whatever that is, and nothing else
differs. -/
def Obligations.UploadSendsOneByte : Prop :=
  ∀ (i : Instr) (ps : List Word) (base len : Word) (s : State),
    (i = .upfont ps base len ∨ i = .upfs ps base len) → s.st = .upSend → s.withheld = [] →
    base.toNat + s.idx.toNat < 2 ^ 32 →
    (base.toNat + s.idx.toNat ∉ s.payChanged → exec i s = .next { s with
      st := .upEcho, last := memRead s.pay (base.toNat + s.idx.toNat), idx := s.idx + 1#32, rph := 3#2,
      draws := s.draws + 1, trace := s.trace ++ [.tx (memRead s.pay (base.toNat + s.idx.toNat))] }) ∧
    (base.toNat + s.idx.toNat ∈ s.payChanged → exec i s = .next { s with
      st := .upEcho, last := Config.freeByte s.draws, idx := s.idx + 1#32, rph := 3#2,
      draws := s.draws + 1, trace := s.trace ++ [.tx (Config.freeByte s.draws)] })

/-- R216, which the spec derives from R211: the bytes an upload has written and read since its header began,
at its three ends: success writes `Lh + 2L` and reads `1 + L`; a rejection writes `Lh` and reads 1; a desync at
byte `k` writes `Lh + 2k + 1` and reads `2 + k`, with `IDX = k + 1` and `ACKED = k`.
At a frame's first byte the model's own count of `HI`'s wraps (log 9) is 0 with `HI`. -/
def Obligations.UploadByteCounts : Prop :=
  ∀ (i : Instr) (ps : List Word) (base len : Word) (s : State) (payload rest : List Byte),
    (i = .upfont ps base len ∨ i = .upfs ps base len) → ownChecks s.cfg i = none →
    s.st = .txFrame → quiet s → s.txlk = true → s.tapped = false → s.payChanged = [] →
    decode s.cfg s.rq = .ok i → s.fb = frameOf s.cfg i → s.hi = 0#8 → s.hiWraps = 0 → s.idx = 0#32 →
    s.acked = 0#32 →
    payload = (List.range len.toNat).map (fun k => memRead s.pay (base.toNat + k)) →
    (s.rx = 0x01#8 :: payload ++ rest →
      ∃ n t, steps n s = .next t ∧ t.st = .unlock ∧ t.status = 0#4 ∧
        (txStream t.trace).length = (txStream s.trace).length + s.fb.length + 2 * len.toNat ∧
        (rxStream t.trace).length = (rxStream s.trace).length + 1 + len.toNat) ∧
    (∀ r, r ≠ 0x01#8 → s.rx = r :: rest →
      ∃ n t, steps n s = .next t ∧ t.st = .unlock ∧ t.status = 3#4 ∧
        (txStream t.trace).length = (txStream s.trace).length + s.fb.length ∧
        (rxStream t.trace).length = (rxStream s.trace).length + 1) ∧
    (∀ (k : Nat) (b e : Byte), payload[k]? = some b → e ≠ b →
      s.rx = 0x01#8 :: payload.take k ++ e :: rest →
      ∃ n t, steps n s = .next t ∧ t.st = .unlock ∧ t.status = 4#4 ∧ t.idx.toNat = k + 1 ∧
        t.acked.toNat = k ∧
        (txStream t.trace).length = (txStream s.trace).length + s.fb.length + 2 * k + 1 ∧
        (rxStream t.trace).length = (rxStream s.trace).length + 2 + k)

/-! ## The other agents, and reset -/

/-- R34, R71, R77: while the engine holds the TX lock no step, of the engine or of the environment, puts
another writer's byte on the wire. The environment's half is the model's choice, log 15: the other writers keep
R281 and the arbiter R284, so a writer without the lock writes nothing. -/
def Obligations.NoForeignByteUnderTxLock : Prop :=
  ∀ (s t : State), Inv s → s.txlk = true → step s = .next t →
    (wire t.trace).filter (fun b => !b.1) = (wire s.trace).filter (fun b => !b.1)

/-- R300: a byte the listener takes while `EXCL = 1` is lost to the engine, and each byte the engine reads
later in the request is unspecified: after the breach each of the four reading steps of a request goes on as it
does without one from a byte that is the free value of its draw. That such a byte takes the place of the oldest
received one, which is used up, is the model's reading, log 21; that it is the free value of its draw, whatever
that is, is log 8. -/
def Obligations.BrokenExclusivityFreesReads : Prop :=
  (∀ (s : State) (b : Byte) (rest : List Byte), s.excl = true → s.rx = b :: rest →
    applyEnv .listenerTakes s = { s with rx := rest, keys := s.keys ++ [b], tapped := true }) ∧
  (∀ (s : State) (b : Byte) (rest : List Byte), s.tapped = true → s.withheld = [] → s.rx = b :: rest →
    ∃ t, receive s = some (some (Config.freeByte s.draws), t) ∧ t.rx = rest ∧ t.draws = s.draws + 1 ∧
      t.trace = s.trace ++ [.rx (some (Config.freeByte s.draws))]) ∧
  (∀ (i : Instr) (s : State) (b : Byte) (rest : List Byte), Inv s → decode s.cfg s.rq = .ok i →
    s.st = .rxLen ∨ s.st = .rxData ∨ s.st = .rxReady ∨ s.st = .upEcho →
    s.tapped = true → s.withheld = [] → s.rx = b :: rest →
    ∃ u, exec i { s with tapped := false, rx := Config.freeByte s.draws :: rest } = .next u ∧
      exec i s = .next { u with tapped := true, draws := s.draws + 1 } ∧ u.rx = rest ∧
      u.trace = s.trace ++ [.rx (some (Config.freeByte s.draws))])

/-- R60, R64: the caller's write to `PIX` or `PAY`: a read at its address gives the byte, every other address
of both memories reads as before, the canonical form is kept, and during a request a changed address is noted
as changed. -/
def Obligations.CallerWriteReadsBack : Prop :=
  ∀ (s : State) (a : Word) (b : Byte), memoryWf s.pix = true → memoryWf s.pay = true →
    (memRead (applyEnv (.callerWritesPix a b) s).pix a.toNat = b ∧
      (∀ c, c ≠ a.toNat → memRead (applyEnv (.callerWritesPix a b) s).pix c = memRead s.pix c) ∧
      (applyEnv (.callerWritesPix a b) s).pay = s.pay ∧
      memoryWf (applyEnv (.callerWritesPix a b) s).pix = true ∧
      (s.st ≠ .idle → memRead s.pix a.toNat ≠ b →
        a.toNat ∈ (applyEnv (.callerWritesPix a b) s).pixChanged)) ∧
    (memRead (applyEnv (.callerWritesPay a b) s).pay a.toNat = b ∧
      (∀ c, c ≠ a.toNat → memRead (applyEnv (.callerWritesPay a b) s).pay c = memRead s.pay c) ∧
      (applyEnv (.callerWritesPay a b) s).pix = s.pix ∧
      memoryWf (applyEnv (.callerWritesPay a b) s).pay = true ∧
      (s.st ≠ .idle → memRead s.pay a.toNat ≠ b →
        a.toNat ∈ (applyEnv (.callerWritesPay a b) s).payChanged))

/-- R290, R40: reset, in any state: `ST = IDLE`, the three flags 0, no event, and nothing outside the engine's
registers changed. The four outputs are then 0 (R39). The engine's other registers, to which R40 gives no
value, are not spoken of (log 4). The unchanged rate is the model's reading, log 16; that reset keeps the other
agents' state and the model's own fields, but for the count of wraps that goes with `HI` (log 9), is logs 6, 8,
19, 20 and 21. -/
def Obligations.ResetClearsFlagsWithoutEvents : Prop :=
  (∀ s : State,
    (applyEnv .reset s).st = .idle ∧ nothingHeld (applyEnv .reset s) ∧
    busy (applyEnv .reset s) = false ∧ pauseListener (applyEnv .reset s) = false ∧
    txLocked (applyEnv .reset s) = false ∧ baudElevated (applyEnv .reset s) = false ∧
    (applyEnv .reset s).trace = s.trace ∧ (applyEnv .reset s).cfg = s.cfg ∧
    (applyEnv .reset s).baud = s.baud ∧ (applyEnv .reset s).rx = s.rx ∧
    (applyEnv .reset s).rxEnd = s.rxEnd ∧ (applyEnv .reset s).keys = s.keys ∧
    (applyEnv .reset s).tapped = s.tapped ∧ (applyEnv .reset s).otherLock = s.otherLock ∧
    (applyEnv .reset s).withheld = s.withheld ∧ (applyEnv .reset s).turns = s.turns ∧
    (applyEnv .reset s).draws = s.draws ∧ (applyEnv .reset s).requests = s.requests ∧
    (applyEnv .reset s).pixChanged = s.pixChanged ∧ (applyEnv .reset s).payChanged = s.payChanged ∧
    ∀ a, memRead (applyEnv .reset s).pix a = memRead s.pix a ∧
      memRead (applyEnv .reset s).pay a = memRead s.pay a) ∧
  State.reset.st = .idle ∧ nothingHeld State.reset
end

