-- ==== Sys2Proof/Laws/State.lean ====
section
/-! SUPPORT. One lemma per field per named update of the state, each true by `rfl`. -/
namespace Sys2Proof.Machine

@[simp] theorem goto_cfg (x : St) (s : State) : (goto x s).cfg = s.cfg := rfl
@[simp] theorem goto_st (x : St) (s : State) : (goto x s).st = x := rfl
@[simp] theorem goto_rq (x : St) (s : State) : (goto x s).rq = s.rq := rfl
@[simp] theorem goto_status (x : St) (s : State) : (goto x s).status = s.status := rfl
@[simp] theorem goto_value (x : St) (s : State) : (goto x s).value = s.value := rfl
@[simp] theorem goto_aux (x : St) (s : State) : (goto x s).aux = s.aux := rfl
@[simp] theorem goto_fb (x : St) (s : State) : (goto x s).fb = s.fb := rfl
@[simp] theorem goto_hi (x : St) (s : State) : (goto x s).hi = s.hi := rfl
@[simp] theorem goto_lenW (x : St) (s : State) : (goto x s).lenW = s.lenW := rfl
@[simp] theorem goto_lenIdx (x : St) (s : State) : (goto x s).lenIdx = s.lenIdx := rfl
@[simp] theorem goto_lenAcc (x : St) (s : State) : (goto x s).lenAcc = s.lenAcc := rfl
@[simp] theorem goto_n (x : St) (s : State) : (goto x s).n = s.n := rfl
@[simp] theorem goto_rem (x : St) (s : State) : (goto x s).rem = s.rem := rfl
@[simp] theorem goto_dbyte (x : St) (s : State) : (goto x s).dbyte = s.dbyte := rfl
@[simp] theorem goto_rph (x : St) (s : State) : (goto x s).rph = s.rph := rfl
@[simp] theorem goto_idx (x : St) (s : State) : (goto x s).idx = s.idx := rfl
@[simp] theorem goto_acked (x : St) (s : State) : (goto x s).acked = s.acked := rfl
@[simp] theorem goto_last (x : St) (s : State) : (goto x s).last = s.last := rfl
@[simp] theorem goto_savedBaud (x : St) (s : State) : (goto x s).savedBaud = s.savedBaud := rfl
@[simp] theorem goto_baudChg (x : St) (s : State) : (goto x s).baudChg = s.baudChg := rfl
@[simp] theorem goto_excl (x : St) (s : State) : (goto x s).excl = s.excl := rfl
@[simp] theorem goto_txlk (x : St) (s : State) : (goto x s).txlk = s.txlk := rfl
@[simp] theorem goto_fr (x : St) (s : State) : (goto x s).fr = s.fr := rfl
@[simp] theorem goto_pb (x : St) (s : State) : (goto x s).pb = s.pb := rfl
@[simp] theorem goto_pbyte (x : St) (s : State) : (goto x s).pbyte = s.pbyte := rfl
@[simp] theorem goto_requests (x : St) (s : State) : (goto x s).requests = s.requests := rfl
@[simp] theorem goto_pix (x : St) (s : State) : (goto x s).pix = s.pix := rfl
@[simp] theorem goto_pay (x : St) (s : State) : (goto x s).pay = s.pay := rfl
@[simp] theorem goto_pixChanged (x : St) (s : State) : (goto x s).pixChanged = s.pixChanged := rfl
@[simp] theorem goto_payChanged (x : St) (s : State) : (goto x s).payChanged = s.payChanged := rfl
@[simp] theorem goto_baud (x : St) (s : State) : (goto x s).baud = s.baud := rfl
@[simp] theorem goto_rx (x : St) (s : State) : (goto x s).rx = s.rx := rfl
@[simp] theorem goto_rxEnd (x : St) (s : State) : (goto x s).rxEnd = s.rxEnd := rfl
@[simp] theorem goto_keys (x : St) (s : State) : (goto x s).keys = s.keys := rfl
@[simp] theorem goto_tapped (x : St) (s : State) : (goto x s).tapped = s.tapped := rfl
@[simp] theorem goto_otherLock (x : St) (s : State) : (goto x s).otherLock = s.otherLock := rfl
@[simp] theorem goto_withheld (x : St) (s : State) : (goto x s).withheld = s.withheld := rfl
@[simp] theorem goto_hiWraps (x : St) (s : State) : (goto x s).hiWraps = s.hiWraps := rfl
@[simp] theorem goto_turns (x : St) (s : State) : (goto x s).turns = s.turns := rfl
@[simp] theorem goto_draws (x : St) (s : State) : (goto x s).draws = s.draws := rfl
@[simp] theorem goto_trace (x : St) (s : State) : (goto x s).trace = s.trace := rfl

@[simp] theorem emit_cfg (e : Event) (s : State) : (emit e s).cfg = s.cfg := rfl
@[simp] theorem emit_st (e : Event) (s : State) : (emit e s).st = s.st := rfl
@[simp] theorem emit_rq (e : Event) (s : State) : (emit e s).rq = s.rq := rfl
@[simp] theorem emit_status (e : Event) (s : State) : (emit e s).status = s.status := rfl
@[simp] theorem emit_value (e : Event) (s : State) : (emit e s).value = s.value := rfl
@[simp] theorem emit_aux (e : Event) (s : State) : (emit e s).aux = s.aux := rfl
@[simp] theorem emit_fb (e : Event) (s : State) : (emit e s).fb = s.fb := rfl
@[simp] theorem emit_hi (e : Event) (s : State) : (emit e s).hi = s.hi := rfl
@[simp] theorem emit_lenW (e : Event) (s : State) : (emit e s).lenW = s.lenW := rfl
@[simp] theorem emit_lenIdx (e : Event) (s : State) : (emit e s).lenIdx = s.lenIdx := rfl
@[simp] theorem emit_lenAcc (e : Event) (s : State) : (emit e s).lenAcc = s.lenAcc := rfl
@[simp] theorem emit_n (e : Event) (s : State) : (emit e s).n = s.n := rfl
@[simp] theorem emit_rem (e : Event) (s : State) : (emit e s).rem = s.rem := rfl
@[simp] theorem emit_dbyte (e : Event) (s : State) : (emit e s).dbyte = s.dbyte := rfl
@[simp] theorem emit_rph (e : Event) (s : State) : (emit e s).rph = s.rph := rfl
@[simp] theorem emit_idx (e : Event) (s : State) : (emit e s).idx = s.idx := rfl
@[simp] theorem emit_acked (e : Event) (s : State) : (emit e s).acked = s.acked := rfl
@[simp] theorem emit_last (e : Event) (s : State) : (emit e s).last = s.last := rfl
@[simp] theorem emit_savedBaud (e : Event) (s : State) : (emit e s).savedBaud = s.savedBaud := rfl
@[simp] theorem emit_baudChg (e : Event) (s : State) : (emit e s).baudChg = s.baudChg := rfl
@[simp] theorem emit_excl (e : Event) (s : State) : (emit e s).excl = s.excl := rfl
@[simp] theorem emit_txlk (e : Event) (s : State) : (emit e s).txlk = s.txlk := rfl
@[simp] theorem emit_fr (e : Event) (s : State) : (emit e s).fr = s.fr := rfl
@[simp] theorem emit_pb (e : Event) (s : State) : (emit e s).pb = s.pb := rfl
@[simp] theorem emit_pbyte (e : Event) (s : State) : (emit e s).pbyte = s.pbyte := rfl
@[simp] theorem emit_requests (e : Event) (s : State) : (emit e s).requests = s.requests := rfl
@[simp] theorem emit_pix (e : Event) (s : State) : (emit e s).pix = s.pix := rfl
@[simp] theorem emit_pay (e : Event) (s : State) : (emit e s).pay = s.pay := rfl
@[simp] theorem emit_pixChanged (e : Event) (s : State) : (emit e s).pixChanged = s.pixChanged := rfl
@[simp] theorem emit_payChanged (e : Event) (s : State) : (emit e s).payChanged = s.payChanged := rfl
@[simp] theorem emit_baud (e : Event) (s : State) : (emit e s).baud = s.baud := rfl
@[simp] theorem emit_rx (e : Event) (s : State) : (emit e s).rx = s.rx := rfl
@[simp] theorem emit_rxEnd (e : Event) (s : State) : (emit e s).rxEnd = s.rxEnd := rfl
@[simp] theorem emit_keys (e : Event) (s : State) : (emit e s).keys = s.keys := rfl
@[simp] theorem emit_tapped (e : Event) (s : State) : (emit e s).tapped = s.tapped := rfl
@[simp] theorem emit_otherLock (e : Event) (s : State) : (emit e s).otherLock = s.otherLock := rfl
@[simp] theorem emit_withheld (e : Event) (s : State) : (emit e s).withheld = s.withheld := rfl
@[simp] theorem emit_hiWraps (e : Event) (s : State) : (emit e s).hiWraps = s.hiWraps := rfl
@[simp] theorem emit_turns (e : Event) (s : State) : (emit e s).turns = s.turns := rfl
@[simp] theorem emit_draws (e : Event) (s : State) : (emit e s).draws = s.draws := rfl
@[simp] theorem emit_trace (e : Event) (s : State) : (emit e s).trace = s.trace ++ [e] := rfl

@[simp] theorem paused_cfg (s : State) : (paused s).cfg = s.cfg := rfl
@[simp] theorem paused_st (s : State) : (paused s).st = s.st := rfl
@[simp] theorem paused_rq (s : State) : (paused s).rq = s.rq := rfl
@[simp] theorem paused_status (s : State) : (paused s).status = s.status := rfl
@[simp] theorem paused_value (s : State) : (paused s).value = s.value := rfl
@[simp] theorem paused_aux (s : State) : (paused s).aux = s.aux := rfl
@[simp] theorem paused_fb (s : State) : (paused s).fb = s.fb := rfl
@[simp] theorem paused_hi (s : State) : (paused s).hi = s.hi := rfl
@[simp] theorem paused_lenW (s : State) : (paused s).lenW = s.lenW := rfl
@[simp] theorem paused_lenIdx (s : State) : (paused s).lenIdx = s.lenIdx := rfl
@[simp] theorem paused_lenAcc (s : State) : (paused s).lenAcc = s.lenAcc := rfl
@[simp] theorem paused_n (s : State) : (paused s).n = s.n := rfl
@[simp] theorem paused_rem (s : State) : (paused s).rem = s.rem := rfl
@[simp] theorem paused_dbyte (s : State) : (paused s).dbyte = s.dbyte := rfl
@[simp] theorem paused_rph (s : State) : (paused s).rph = s.rph := rfl
@[simp] theorem paused_idx (s : State) : (paused s).idx = s.idx := rfl
@[simp] theorem paused_acked (s : State) : (paused s).acked = s.acked := rfl
@[simp] theorem paused_last (s : State) : (paused s).last = s.last := rfl
@[simp] theorem paused_savedBaud (s : State) : (paused s).savedBaud = s.savedBaud := rfl
@[simp] theorem paused_baudChg (s : State) : (paused s).baudChg = s.baudChg := rfl
@[simp] theorem paused_excl (s : State) : (paused s).excl = true := rfl
@[simp] theorem paused_txlk (s : State) : (paused s).txlk = s.txlk := rfl
@[simp] theorem paused_fr (s : State) : (paused s).fr = s.fr := rfl
@[simp] theorem paused_pb (s : State) : (paused s).pb = s.pb := rfl
@[simp] theorem paused_pbyte (s : State) : (paused s).pbyte = s.pbyte := rfl
@[simp] theorem paused_requests (s : State) : (paused s).requests = s.requests := rfl
@[simp] theorem paused_pix (s : State) : (paused s).pix = s.pix := rfl
@[simp] theorem paused_pay (s : State) : (paused s).pay = s.pay := rfl
@[simp] theorem paused_pixChanged (s : State) : (paused s).pixChanged = s.pixChanged := rfl
@[simp] theorem paused_payChanged (s : State) : (paused s).payChanged = s.payChanged := rfl
@[simp] theorem paused_baud (s : State) : (paused s).baud = s.baud := rfl
@[simp] theorem paused_rx (s : State) : (paused s).rx = s.rx := rfl
@[simp] theorem paused_rxEnd (s : State) : (paused s).rxEnd = s.rxEnd := rfl
@[simp] theorem paused_keys (s : State) : (paused s).keys = s.keys := rfl
@[simp] theorem paused_tapped (s : State) : (paused s).tapped = s.tapped := rfl
@[simp] theorem paused_otherLock (s : State) : (paused s).otherLock = s.otherLock := rfl
@[simp] theorem paused_withheld (s : State) : (paused s).withheld = s.withheld := rfl
@[simp] theorem paused_hiWraps (s : State) : (paused s).hiWraps = s.hiWraps := rfl
@[simp] theorem paused_turns (s : State) : (paused s).turns = s.turns := rfl
@[simp] theorem paused_draws (s : State) : (paused s).draws = s.draws := rfl
@[simp] theorem paused_trace (s : State) : (paused s).trace = s.trace ++ [.pause] := rfl

@[simp] theorem resumed_cfg (s : State) : (resumed s).cfg = s.cfg := rfl
@[simp] theorem resumed_st (s : State) : (resumed s).st = s.st := rfl
@[simp] theorem resumed_rq (s : State) : (resumed s).rq = s.rq := rfl
@[simp] theorem resumed_status (s : State) : (resumed s).status = s.status := rfl
@[simp] theorem resumed_value (s : State) : (resumed s).value = s.value := rfl
@[simp] theorem resumed_aux (s : State) : (resumed s).aux = s.aux := rfl
@[simp] theorem resumed_fb (s : State) : (resumed s).fb = s.fb := rfl
@[simp] theorem resumed_hi (s : State) : (resumed s).hi = s.hi := rfl
@[simp] theorem resumed_lenW (s : State) : (resumed s).lenW = s.lenW := rfl
@[simp] theorem resumed_lenIdx (s : State) : (resumed s).lenIdx = s.lenIdx := rfl
@[simp] theorem resumed_lenAcc (s : State) : (resumed s).lenAcc = s.lenAcc := rfl
@[simp] theorem resumed_n (s : State) : (resumed s).n = s.n := rfl
@[simp] theorem resumed_rem (s : State) : (resumed s).rem = s.rem := rfl
@[simp] theorem resumed_dbyte (s : State) : (resumed s).dbyte = s.dbyte := rfl
@[simp] theorem resumed_rph (s : State) : (resumed s).rph = s.rph := rfl
@[simp] theorem resumed_idx (s : State) : (resumed s).idx = s.idx := rfl
@[simp] theorem resumed_acked (s : State) : (resumed s).acked = s.acked := rfl
@[simp] theorem resumed_last (s : State) : (resumed s).last = s.last := rfl
@[simp] theorem resumed_savedBaud (s : State) : (resumed s).savedBaud = s.savedBaud := rfl
@[simp] theorem resumed_baudChg (s : State) : (resumed s).baudChg = s.baudChg := rfl
@[simp] theorem resumed_excl (s : State) : (resumed s).excl = false := rfl
@[simp] theorem resumed_txlk (s : State) : (resumed s).txlk = s.txlk := rfl
@[simp] theorem resumed_fr (s : State) : (resumed s).fr = s.fr := rfl
@[simp] theorem resumed_pb (s : State) : (resumed s).pb = s.pb := rfl
@[simp] theorem resumed_pbyte (s : State) : (resumed s).pbyte = s.pbyte := rfl
@[simp] theorem resumed_requests (s : State) : (resumed s).requests = s.requests := rfl
@[simp] theorem resumed_pix (s : State) : (resumed s).pix = s.pix := rfl
@[simp] theorem resumed_pay (s : State) : (resumed s).pay = s.pay := rfl
@[simp] theorem resumed_pixChanged (s : State) : (resumed s).pixChanged = s.pixChanged := rfl
@[simp] theorem resumed_payChanged (s : State) : (resumed s).payChanged = s.payChanged := rfl
@[simp] theorem resumed_baud (s : State) : (resumed s).baud = s.baud := rfl
@[simp] theorem resumed_rx (s : State) : (resumed s).rx = s.rx := rfl
@[simp] theorem resumed_rxEnd (s : State) : (resumed s).rxEnd = s.rxEnd := rfl
@[simp] theorem resumed_keys (s : State) : (resumed s).keys = s.keys := rfl
@[simp] theorem resumed_tapped (s : State) : (resumed s).tapped = s.tapped := rfl
@[simp] theorem resumed_otherLock (s : State) : (resumed s).otherLock = s.otherLock := rfl
@[simp] theorem resumed_withheld (s : State) : (resumed s).withheld = s.withheld := rfl
@[simp] theorem resumed_hiWraps (s : State) : (resumed s).hiWraps = s.hiWraps := rfl
@[simp] theorem resumed_turns (s : State) : (resumed s).turns = s.turns := rfl
@[simp] theorem resumed_draws (s : State) : (resumed s).draws = s.draws := rfl
@[simp] theorem resumed_trace (s : State) : (resumed s).trace = s.trace ++ [.resume] := rfl

@[simp] theorem baudRead_cfg (s : State) : (baudRead s).cfg = s.cfg := rfl
@[simp] theorem baudRead_st (s : State) : (baudRead s).st = s.st := rfl
@[simp] theorem baudRead_rq (s : State) : (baudRead s).rq = s.rq := rfl
@[simp] theorem baudRead_status (s : State) : (baudRead s).status = s.status := rfl
@[simp] theorem baudRead_value (s : State) : (baudRead s).value = s.value := rfl
@[simp] theorem baudRead_aux (s : State) : (baudRead s).aux = s.aux := rfl
@[simp] theorem baudRead_fb (s : State) : (baudRead s).fb = s.fb := rfl
@[simp] theorem baudRead_hi (s : State) : (baudRead s).hi = s.hi := rfl
@[simp] theorem baudRead_lenW (s : State) : (baudRead s).lenW = s.lenW := rfl
@[simp] theorem baudRead_lenIdx (s : State) : (baudRead s).lenIdx = s.lenIdx := rfl
@[simp] theorem baudRead_lenAcc (s : State) : (baudRead s).lenAcc = s.lenAcc := rfl
@[simp] theorem baudRead_n (s : State) : (baudRead s).n = s.n := rfl
@[simp] theorem baudRead_rem (s : State) : (baudRead s).rem = s.rem := rfl
@[simp] theorem baudRead_dbyte (s : State) : (baudRead s).dbyte = s.dbyte := rfl
@[simp] theorem baudRead_rph (s : State) : (baudRead s).rph = s.rph := rfl
@[simp] theorem baudRead_idx (s : State) : (baudRead s).idx = s.idx := rfl
@[simp] theorem baudRead_acked (s : State) : (baudRead s).acked = s.acked := rfl
@[simp] theorem baudRead_last (s : State) : (baudRead s).last = s.last := rfl
@[simp] theorem baudRead_savedBaud (s : State) : (baudRead s).savedBaud = s.savedBaud := rfl
@[simp] theorem baudRead_baudChg (s : State) : (baudRead s).baudChg = s.baudChg := rfl
@[simp] theorem baudRead_excl (s : State) : (baudRead s).excl = s.excl := rfl
@[simp] theorem baudRead_txlk (s : State) : (baudRead s).txlk = s.txlk := rfl
@[simp] theorem baudRead_fr (s : State) : (baudRead s).fr = s.fr := rfl
@[simp] theorem baudRead_pb (s : State) : (baudRead s).pb = s.pb := rfl
@[simp] theorem baudRead_pbyte (s : State) : (baudRead s).pbyte = s.pbyte := rfl
@[simp] theorem baudRead_requests (s : State) : (baudRead s).requests = s.requests := rfl
@[simp] theorem baudRead_pix (s : State) : (baudRead s).pix = s.pix := rfl
@[simp] theorem baudRead_pay (s : State) : (baudRead s).pay = s.pay := rfl
@[simp] theorem baudRead_pixChanged (s : State) : (baudRead s).pixChanged = s.pixChanged := rfl
@[simp] theorem baudRead_payChanged (s : State) : (baudRead s).payChanged = s.payChanged := rfl
@[simp] theorem baudRead_baud (s : State) : (baudRead s).baud = s.baud := rfl
@[simp] theorem baudRead_rx (s : State) : (baudRead s).rx = s.rx := rfl
@[simp] theorem baudRead_rxEnd (s : State) : (baudRead s).rxEnd = s.rxEnd := rfl
@[simp] theorem baudRead_keys (s : State) : (baudRead s).keys = s.keys := rfl
@[simp] theorem baudRead_tapped (s : State) : (baudRead s).tapped = s.tapped := rfl
@[simp] theorem baudRead_otherLock (s : State) : (baudRead s).otherLock = s.otherLock := rfl
@[simp] theorem baudRead_withheld (s : State) : (baudRead s).withheld = s.withheld := rfl
@[simp] theorem baudRead_hiWraps (s : State) : (baudRead s).hiWraps = s.hiWraps := rfl
@[simp] theorem baudRead_turns (s : State) : (baudRead s).turns = s.turns := rfl
@[simp] theorem baudRead_draws (s : State) : (baudRead s).draws = s.draws := rfl
@[simp] theorem baudRead_trace (s : State) : (baudRead s).trace = s.trace ++ [.getBaud s.baud] := rfl

@[simp] theorem baudSaved_cfg (s : State) : (baudSaved s).cfg = s.cfg := rfl
@[simp] theorem baudSaved_st (s : State) : (baudSaved s).st = s.st := rfl
@[simp] theorem baudSaved_rq (s : State) : (baudSaved s).rq = s.rq := rfl
@[simp] theorem baudSaved_status (s : State) : (baudSaved s).status = s.status := rfl
@[simp] theorem baudSaved_value (s : State) : (baudSaved s).value = s.value := rfl
@[simp] theorem baudSaved_aux (s : State) : (baudSaved s).aux = s.aux := rfl
@[simp] theorem baudSaved_fb (s : State) : (baudSaved s).fb = s.fb := rfl
@[simp] theorem baudSaved_hi (s : State) : (baudSaved s).hi = s.hi := rfl
@[simp] theorem baudSaved_lenW (s : State) : (baudSaved s).lenW = s.lenW := rfl
@[simp] theorem baudSaved_lenIdx (s : State) : (baudSaved s).lenIdx = s.lenIdx := rfl
@[simp] theorem baudSaved_lenAcc (s : State) : (baudSaved s).lenAcc = s.lenAcc := rfl
@[simp] theorem baudSaved_n (s : State) : (baudSaved s).n = s.n := rfl
@[simp] theorem baudSaved_rem (s : State) : (baudSaved s).rem = s.rem := rfl
@[simp] theorem baudSaved_dbyte (s : State) : (baudSaved s).dbyte = s.dbyte := rfl
@[simp] theorem baudSaved_rph (s : State) : (baudSaved s).rph = s.rph := rfl
@[simp] theorem baudSaved_idx (s : State) : (baudSaved s).idx = s.idx := rfl
@[simp] theorem baudSaved_acked (s : State) : (baudSaved s).acked = s.acked := rfl
@[simp] theorem baudSaved_last (s : State) : (baudSaved s).last = s.last := rfl
@[simp] theorem baudSaved_savedBaud (s : State) : (baudSaved s).savedBaud = s.baud := rfl
@[simp] theorem baudSaved_baudChg (s : State) : (baudSaved s).baudChg = s.baudChg := rfl
@[simp] theorem baudSaved_excl (s : State) : (baudSaved s).excl = s.excl := rfl
@[simp] theorem baudSaved_txlk (s : State) : (baudSaved s).txlk = s.txlk := rfl
@[simp] theorem baudSaved_fr (s : State) : (baudSaved s).fr = s.fr := rfl
@[simp] theorem baudSaved_pb (s : State) : (baudSaved s).pb = s.pb := rfl
@[simp] theorem baudSaved_pbyte (s : State) : (baudSaved s).pbyte = s.pbyte := rfl
@[simp] theorem baudSaved_requests (s : State) : (baudSaved s).requests = s.requests := rfl
@[simp] theorem baudSaved_pix (s : State) : (baudSaved s).pix = s.pix := rfl
@[simp] theorem baudSaved_pay (s : State) : (baudSaved s).pay = s.pay := rfl
@[simp] theorem baudSaved_pixChanged (s : State) : (baudSaved s).pixChanged = s.pixChanged := rfl
@[simp] theorem baudSaved_payChanged (s : State) : (baudSaved s).payChanged = s.payChanged := rfl
@[simp] theorem baudSaved_baud (s : State) : (baudSaved s).baud = s.baud := rfl
@[simp] theorem baudSaved_rx (s : State) : (baudSaved s).rx = s.rx := rfl
@[simp] theorem baudSaved_rxEnd (s : State) : (baudSaved s).rxEnd = s.rxEnd := rfl
@[simp] theorem baudSaved_keys (s : State) : (baudSaved s).keys = s.keys := rfl
@[simp] theorem baudSaved_tapped (s : State) : (baudSaved s).tapped = s.tapped := rfl
@[simp] theorem baudSaved_otherLock (s : State) : (baudSaved s).otherLock = s.otherLock := rfl
@[simp] theorem baudSaved_withheld (s : State) : (baudSaved s).withheld = s.withheld := rfl
@[simp] theorem baudSaved_hiWraps (s : State) : (baudSaved s).hiWraps = s.hiWraps := rfl
@[simp] theorem baudSaved_turns (s : State) : (baudSaved s).turns = s.turns := rfl
@[simp] theorem baudSaved_draws (s : State) : (baudSaved s).draws = s.draws := rfl
@[simp] theorem baudSaved_trace (s : State) : (baudSaved s).trace = s.trace := rfl

@[simp] theorem baudRaised_cfg (s : State) : (baudRaised s).cfg = s.cfg := rfl
@[simp] theorem baudRaised_st (s : State) : (baudRaised s).st = s.st := rfl
@[simp] theorem baudRaised_rq (s : State) : (baudRaised s).rq = s.rq := rfl
@[simp] theorem baudRaised_status (s : State) : (baudRaised s).status = s.status := rfl
@[simp] theorem baudRaised_value (s : State) : (baudRaised s).value = s.value := rfl
@[simp] theorem baudRaised_aux (s : State) : (baudRaised s).aux = s.aux := rfl
@[simp] theorem baudRaised_fb (s : State) : (baudRaised s).fb = s.fb := rfl
@[simp] theorem baudRaised_hi (s : State) : (baudRaised s).hi = s.hi := rfl
@[simp] theorem baudRaised_lenW (s : State) : (baudRaised s).lenW = s.lenW := rfl
@[simp] theorem baudRaised_lenIdx (s : State) : (baudRaised s).lenIdx = s.lenIdx := rfl
@[simp] theorem baudRaised_lenAcc (s : State) : (baudRaised s).lenAcc = s.lenAcc := rfl
@[simp] theorem baudRaised_n (s : State) : (baudRaised s).n = s.n := rfl
@[simp] theorem baudRaised_rem (s : State) : (baudRaised s).rem = s.rem := rfl
@[simp] theorem baudRaised_dbyte (s : State) : (baudRaised s).dbyte = s.dbyte := rfl
@[simp] theorem baudRaised_rph (s : State) : (baudRaised s).rph = s.rph := rfl
@[simp] theorem baudRaised_idx (s : State) : (baudRaised s).idx = s.idx := rfl
@[simp] theorem baudRaised_acked (s : State) : (baudRaised s).acked = s.acked := rfl
@[simp] theorem baudRaised_last (s : State) : (baudRaised s).last = s.last := rfl
@[simp] theorem baudRaised_savedBaud (s : State) : (baudRaised s).savedBaud = s.savedBaud := rfl
@[simp] theorem baudRaised_baudChg (s : State) : (baudRaised s).baudChg = true := rfl
@[simp] theorem baudRaised_excl (s : State) : (baudRaised s).excl = s.excl := rfl
@[simp] theorem baudRaised_txlk (s : State) : (baudRaised s).txlk = s.txlk := rfl
@[simp] theorem baudRaised_fr (s : State) : (baudRaised s).fr = s.fr := rfl
@[simp] theorem baudRaised_pb (s : State) : (baudRaised s).pb = s.pb := rfl
@[simp] theorem baudRaised_pbyte (s : State) : (baudRaised s).pbyte = s.pbyte := rfl
@[simp] theorem baudRaised_requests (s : State) : (baudRaised s).requests = s.requests := rfl
@[simp] theorem baudRaised_pix (s : State) : (baudRaised s).pix = s.pix := rfl
@[simp] theorem baudRaised_pay (s : State) : (baudRaised s).pay = s.pay := rfl
@[simp] theorem baudRaised_pixChanged (s : State) : (baudRaised s).pixChanged = s.pixChanged := rfl
@[simp] theorem baudRaised_payChanged (s : State) : (baudRaised s).payChanged = s.payChanged := rfl
@[simp] theorem baudRaised_baud (s : State) : (baudRaised s).baud = Config.baudHigh := rfl
@[simp] theorem baudRaised_rx (s : State) : (baudRaised s).rx = s.rx := rfl
@[simp] theorem baudRaised_rxEnd (s : State) : (baudRaised s).rxEnd = s.rxEnd := rfl
@[simp] theorem baudRaised_keys (s : State) : (baudRaised s).keys = s.keys := rfl
@[simp] theorem baudRaised_tapped (s : State) : (baudRaised s).tapped = s.tapped := rfl
@[simp] theorem baudRaised_otherLock (s : State) : (baudRaised s).otherLock = s.otherLock := rfl
@[simp] theorem baudRaised_withheld (s : State) : (baudRaised s).withheld = s.withheld := rfl
@[simp] theorem baudRaised_hiWraps (s : State) : (baudRaised s).hiWraps = s.hiWraps := rfl
@[simp] theorem baudRaised_turns (s : State) : (baudRaised s).turns = s.turns := rfl
@[simp] theorem baudRaised_draws (s : State) : (baudRaised s).draws = s.draws := rfl
@[simp] theorem baudRaised_trace (s : State) : (baudRaised s).trace = s.trace ++ [.setBaud Config.baudHigh] := rfl

@[simp] theorem baudRestored_cfg (s : State) : (baudRestored s).cfg = s.cfg := rfl
@[simp] theorem baudRestored_st (s : State) : (baudRestored s).st = s.st := rfl
@[simp] theorem baudRestored_rq (s : State) : (baudRestored s).rq = s.rq := rfl
@[simp] theorem baudRestored_status (s : State) : (baudRestored s).status = s.status := rfl
@[simp] theorem baudRestored_value (s : State) : (baudRestored s).value = s.value := rfl
@[simp] theorem baudRestored_aux (s : State) : (baudRestored s).aux = s.aux := rfl
@[simp] theorem baudRestored_fb (s : State) : (baudRestored s).fb = s.fb := rfl
@[simp] theorem baudRestored_hi (s : State) : (baudRestored s).hi = s.hi := rfl
@[simp] theorem baudRestored_lenW (s : State) : (baudRestored s).lenW = s.lenW := rfl
@[simp] theorem baudRestored_lenIdx (s : State) : (baudRestored s).lenIdx = s.lenIdx := rfl
@[simp] theorem baudRestored_lenAcc (s : State) : (baudRestored s).lenAcc = s.lenAcc := rfl
@[simp] theorem baudRestored_n (s : State) : (baudRestored s).n = s.n := rfl
@[simp] theorem baudRestored_rem (s : State) : (baudRestored s).rem = s.rem := rfl
@[simp] theorem baudRestored_dbyte (s : State) : (baudRestored s).dbyte = s.dbyte := rfl
@[simp] theorem baudRestored_rph (s : State) : (baudRestored s).rph = s.rph := rfl
@[simp] theorem baudRestored_idx (s : State) : (baudRestored s).idx = s.idx := rfl
@[simp] theorem baudRestored_acked (s : State) : (baudRestored s).acked = s.acked := rfl
@[simp] theorem baudRestored_last (s : State) : (baudRestored s).last = s.last := rfl
@[simp] theorem baudRestored_savedBaud (s : State) : (baudRestored s).savedBaud = s.savedBaud := rfl
@[simp] theorem baudRestored_baudChg (s : State) : (baudRestored s).baudChg = false := rfl
@[simp] theorem baudRestored_excl (s : State) : (baudRestored s).excl = s.excl := rfl
@[simp] theorem baudRestored_txlk (s : State) : (baudRestored s).txlk = s.txlk := rfl
@[simp] theorem baudRestored_fr (s : State) : (baudRestored s).fr = s.fr := rfl
@[simp] theorem baudRestored_pb (s : State) : (baudRestored s).pb = s.pb := rfl
@[simp] theorem baudRestored_pbyte (s : State) : (baudRestored s).pbyte = s.pbyte := rfl
@[simp] theorem baudRestored_requests (s : State) : (baudRestored s).requests = s.requests := rfl
@[simp] theorem baudRestored_pix (s : State) : (baudRestored s).pix = s.pix := rfl
@[simp] theorem baudRestored_pay (s : State) : (baudRestored s).pay = s.pay := rfl
@[simp] theorem baudRestored_pixChanged (s : State) : (baudRestored s).pixChanged = s.pixChanged := rfl
@[simp] theorem baudRestored_payChanged (s : State) : (baudRestored s).payChanged = s.payChanged := rfl
@[simp] theorem baudRestored_baud (s : State) : (baudRestored s).baud = s.savedBaud := rfl
@[simp] theorem baudRestored_rx (s : State) : (baudRestored s).rx = s.rx := rfl
@[simp] theorem baudRestored_rxEnd (s : State) : (baudRestored s).rxEnd = s.rxEnd := rfl
@[simp] theorem baudRestored_keys (s : State) : (baudRestored s).keys = s.keys := rfl
@[simp] theorem baudRestored_tapped (s : State) : (baudRestored s).tapped = s.tapped := rfl
@[simp] theorem baudRestored_otherLock (s : State) : (baudRestored s).otherLock = s.otherLock := rfl
@[simp] theorem baudRestored_withheld (s : State) : (baudRestored s).withheld = s.withheld := rfl
@[simp] theorem baudRestored_hiWraps (s : State) : (baudRestored s).hiWraps = s.hiWraps := rfl
@[simp] theorem baudRestored_turns (s : State) : (baudRestored s).turns = s.turns := rfl
@[simp] theorem baudRestored_draws (s : State) : (baudRestored s).draws = s.draws := rfl
@[simp] theorem baudRestored_trace (s : State) : (baudRestored s).trace = s.trace ++ [.setBaud s.savedBaud] := rfl

@[simp] theorem flushed_cfg (s : State) : (flushed s).cfg = s.cfg := rfl
@[simp] theorem flushed_st (s : State) : (flushed s).st = s.st := rfl
@[simp] theorem flushed_rq (s : State) : (flushed s).rq = s.rq := rfl
@[simp] theorem flushed_status (s : State) : (flushed s).status = s.status := rfl
@[simp] theorem flushed_value (s : State) : (flushed s).value = s.value := rfl
@[simp] theorem flushed_aux (s : State) : (flushed s).aux = s.aux := rfl
@[simp] theorem flushed_fb (s : State) : (flushed s).fb = s.fb := rfl
@[simp] theorem flushed_hi (s : State) : (flushed s).hi = s.hi := rfl
@[simp] theorem flushed_lenW (s : State) : (flushed s).lenW = s.lenW := rfl
@[simp] theorem flushed_lenIdx (s : State) : (flushed s).lenIdx = s.lenIdx := rfl
@[simp] theorem flushed_lenAcc (s : State) : (flushed s).lenAcc = s.lenAcc := rfl
@[simp] theorem flushed_n (s : State) : (flushed s).n = s.n := rfl
@[simp] theorem flushed_rem (s : State) : (flushed s).rem = s.rem := rfl
@[simp] theorem flushed_dbyte (s : State) : (flushed s).dbyte = s.dbyte := rfl
@[simp] theorem flushed_rph (s : State) : (flushed s).rph = s.rph := rfl
@[simp] theorem flushed_idx (s : State) : (flushed s).idx = s.idx := rfl
@[simp] theorem flushed_acked (s : State) : (flushed s).acked = s.acked := rfl
@[simp] theorem flushed_last (s : State) : (flushed s).last = s.last := rfl
@[simp] theorem flushed_savedBaud (s : State) : (flushed s).savedBaud = s.savedBaud := rfl
@[simp] theorem flushed_baudChg (s : State) : (flushed s).baudChg = s.baudChg := rfl
@[simp] theorem flushed_excl (s : State) : (flushed s).excl = s.excl := rfl
@[simp] theorem flushed_txlk (s : State) : (flushed s).txlk = s.txlk := rfl
@[simp] theorem flushed_fr (s : State) : (flushed s).fr = s.fr := rfl
@[simp] theorem flushed_pb (s : State) : (flushed s).pb = s.pb := rfl
@[simp] theorem flushed_pbyte (s : State) : (flushed s).pbyte = s.pbyte := rfl
@[simp] theorem flushed_requests (s : State) : (flushed s).requests = s.requests := rfl
@[simp] theorem flushed_pix (s : State) : (flushed s).pix = s.pix := rfl
@[simp] theorem flushed_pay (s : State) : (flushed s).pay = s.pay := rfl
@[simp] theorem flushed_pixChanged (s : State) : (flushed s).pixChanged = s.pixChanged := rfl
@[simp] theorem flushed_payChanged (s : State) : (flushed s).payChanged = s.payChanged := rfl
@[simp] theorem flushed_baud (s : State) : (flushed s).baud = s.baud := rfl
@[simp] theorem flushed_rx (s : State) : (flushed s).rx = [] := rfl
@[simp] theorem flushed_rxEnd (s : State) : (flushed s).rxEnd = s.rxEnd := rfl
@[simp] theorem flushed_keys (s : State) : (flushed s).keys = s.keys := rfl
@[simp] theorem flushed_tapped (s : State) : (flushed s).tapped = s.tapped := rfl
@[simp] theorem flushed_otherLock (s : State) : (flushed s).otherLock = s.otherLock := rfl
@[simp] theorem flushed_withheld (s : State) : (flushed s).withheld = s.withheld := rfl
@[simp] theorem flushed_hiWraps (s : State) : (flushed s).hiWraps = s.hiWraps := rfl
@[simp] theorem flushed_turns (s : State) : (flushed s).turns = s.turns := rfl
@[simp] theorem flushed_draws (s : State) : (flushed s).draws = s.draws := rfl
@[simp] theorem flushed_trace (s : State) : (flushed s).trace = s.trace ++ [.flush] := rfl

@[simp] theorem locked_cfg (s : State) : (locked s).cfg = s.cfg := rfl
@[simp] theorem locked_st (s : State) : (locked s).st = s.st := rfl
@[simp] theorem locked_rq (s : State) : (locked s).rq = s.rq := rfl
@[simp] theorem locked_status (s : State) : (locked s).status = s.status := rfl
@[simp] theorem locked_value (s : State) : (locked s).value = s.value := rfl
@[simp] theorem locked_aux (s : State) : (locked s).aux = s.aux := rfl
@[simp] theorem locked_fb (s : State) : (locked s).fb = s.fb := rfl
@[simp] theorem locked_hi (s : State) : (locked s).hi = s.hi := rfl
@[simp] theorem locked_lenW (s : State) : (locked s).lenW = s.lenW := rfl
@[simp] theorem locked_lenIdx (s : State) : (locked s).lenIdx = s.lenIdx := rfl
@[simp] theorem locked_lenAcc (s : State) : (locked s).lenAcc = s.lenAcc := rfl
@[simp] theorem locked_n (s : State) : (locked s).n = s.n := rfl
@[simp] theorem locked_rem (s : State) : (locked s).rem = s.rem := rfl
@[simp] theorem locked_dbyte (s : State) : (locked s).dbyte = s.dbyte := rfl
@[simp] theorem locked_rph (s : State) : (locked s).rph = s.rph := rfl
@[simp] theorem locked_idx (s : State) : (locked s).idx = s.idx := rfl
@[simp] theorem locked_acked (s : State) : (locked s).acked = s.acked := rfl
@[simp] theorem locked_last (s : State) : (locked s).last = s.last := rfl
@[simp] theorem locked_savedBaud (s : State) : (locked s).savedBaud = s.savedBaud := rfl
@[simp] theorem locked_baudChg (s : State) : (locked s).baudChg = s.baudChg := rfl
@[simp] theorem locked_excl (s : State) : (locked s).excl = s.excl := rfl
@[simp] theorem locked_txlk (s : State) : (locked s).txlk = true := rfl
@[simp] theorem locked_fr (s : State) : (locked s).fr = s.fr := rfl
@[simp] theorem locked_pb (s : State) : (locked s).pb = s.pb := rfl
@[simp] theorem locked_pbyte (s : State) : (locked s).pbyte = s.pbyte := rfl
@[simp] theorem locked_requests (s : State) : (locked s).requests = s.requests := rfl
@[simp] theorem locked_pix (s : State) : (locked s).pix = s.pix := rfl
@[simp] theorem locked_pay (s : State) : (locked s).pay = s.pay := rfl
@[simp] theorem locked_pixChanged (s : State) : (locked s).pixChanged = s.pixChanged := rfl
@[simp] theorem locked_payChanged (s : State) : (locked s).payChanged = s.payChanged := rfl
@[simp] theorem locked_baud (s : State) : (locked s).baud = s.baud := rfl
@[simp] theorem locked_rx (s : State) : (locked s).rx = s.rx := rfl
@[simp] theorem locked_rxEnd (s : State) : (locked s).rxEnd = s.rxEnd := rfl
@[simp] theorem locked_keys (s : State) : (locked s).keys = s.keys := rfl
@[simp] theorem locked_tapped (s : State) : (locked s).tapped = s.tapped := rfl
@[simp] theorem locked_otherLock (s : State) : (locked s).otherLock = s.otherLock := rfl
@[simp] theorem locked_withheld (s : State) : (locked s).withheld = s.withheld := rfl
@[simp] theorem locked_hiWraps (s : State) : (locked s).hiWraps = s.hiWraps := rfl
@[simp] theorem locked_turns (s : State) : (locked s).turns = s.turns := rfl
@[simp] theorem locked_draws (s : State) : (locked s).draws = s.draws := rfl
@[simp] theorem locked_trace (s : State) : (locked s).trace = s.trace ++ [.lock] := rfl

@[simp] theorem unlocked_cfg (s : State) : (unlocked s).cfg = s.cfg := rfl
@[simp] theorem unlocked_st (s : State) : (unlocked s).st = s.st := rfl
@[simp] theorem unlocked_rq (s : State) : (unlocked s).rq = s.rq := rfl
@[simp] theorem unlocked_status (s : State) : (unlocked s).status = s.status := rfl
@[simp] theorem unlocked_value (s : State) : (unlocked s).value = s.value := rfl
@[simp] theorem unlocked_aux (s : State) : (unlocked s).aux = s.aux := rfl
@[simp] theorem unlocked_fb (s : State) : (unlocked s).fb = s.fb := rfl
@[simp] theorem unlocked_hi (s : State) : (unlocked s).hi = s.hi := rfl
@[simp] theorem unlocked_lenW (s : State) : (unlocked s).lenW = s.lenW := rfl
@[simp] theorem unlocked_lenIdx (s : State) : (unlocked s).lenIdx = s.lenIdx := rfl
@[simp] theorem unlocked_lenAcc (s : State) : (unlocked s).lenAcc = s.lenAcc := rfl
@[simp] theorem unlocked_n (s : State) : (unlocked s).n = s.n := rfl
@[simp] theorem unlocked_rem (s : State) : (unlocked s).rem = s.rem := rfl
@[simp] theorem unlocked_dbyte (s : State) : (unlocked s).dbyte = s.dbyte := rfl
@[simp] theorem unlocked_rph (s : State) : (unlocked s).rph = s.rph := rfl
@[simp] theorem unlocked_idx (s : State) : (unlocked s).idx = s.idx := rfl
@[simp] theorem unlocked_acked (s : State) : (unlocked s).acked = s.acked := rfl
@[simp] theorem unlocked_last (s : State) : (unlocked s).last = s.last := rfl
@[simp] theorem unlocked_savedBaud (s : State) : (unlocked s).savedBaud = s.savedBaud := rfl
@[simp] theorem unlocked_baudChg (s : State) : (unlocked s).baudChg = s.baudChg := rfl
@[simp] theorem unlocked_excl (s : State) : (unlocked s).excl = s.excl := rfl
@[simp] theorem unlocked_txlk (s : State) : (unlocked s).txlk = false := rfl
@[simp] theorem unlocked_fr (s : State) : (unlocked s).fr = s.fr := rfl
@[simp] theorem unlocked_pb (s : State) : (unlocked s).pb = s.pb := rfl
@[simp] theorem unlocked_pbyte (s : State) : (unlocked s).pbyte = s.pbyte := rfl
@[simp] theorem unlocked_requests (s : State) : (unlocked s).requests = s.requests := rfl
@[simp] theorem unlocked_pix (s : State) : (unlocked s).pix = s.pix := rfl
@[simp] theorem unlocked_pay (s : State) : (unlocked s).pay = s.pay := rfl
@[simp] theorem unlocked_pixChanged (s : State) : (unlocked s).pixChanged = s.pixChanged := rfl
@[simp] theorem unlocked_payChanged (s : State) : (unlocked s).payChanged = s.payChanged := rfl
@[simp] theorem unlocked_baud (s : State) : (unlocked s).baud = s.baud := rfl
@[simp] theorem unlocked_rx (s : State) : (unlocked s).rx = s.rx := rfl
@[simp] theorem unlocked_rxEnd (s : State) : (unlocked s).rxEnd = s.rxEnd := rfl
@[simp] theorem unlocked_keys (s : State) : (unlocked s).keys = s.keys := rfl
@[simp] theorem unlocked_tapped (s : State) : (unlocked s).tapped = s.tapped := rfl
@[simp] theorem unlocked_otherLock (s : State) : (unlocked s).otherLock = s.otherLock := rfl
@[simp] theorem unlocked_withheld (s : State) : (unlocked s).withheld = s.withheld := rfl
@[simp] theorem unlocked_hiWraps (s : State) : (unlocked s).hiWraps = s.hiWraps := rfl
@[simp] theorem unlocked_turns (s : State) : (unlocked s).turns = s.turns := rfl
@[simp] theorem unlocked_draws (s : State) : (unlocked s).draws = s.draws := rfl
@[simp] theorem unlocked_trace (s : State) : (unlocked s).trace = s.trace ++ [.unlock] := rfl

@[simp] theorem responded_cfg (s : State) : (responded s).cfg = s.cfg := rfl
@[simp] theorem responded_st (s : State) : (responded s).st = .idle := rfl
@[simp] theorem responded_rq (s : State) : (responded s).rq = s.rq := rfl
@[simp] theorem responded_status (s : State) : (responded s).status = s.status := rfl
@[simp] theorem responded_value (s : State) : (responded s).value = s.value := rfl
@[simp] theorem responded_aux (s : State) : (responded s).aux = s.aux := rfl
@[simp] theorem responded_fb (s : State) : (responded s).fb = s.fb := rfl
@[simp] theorem responded_hi (s : State) : (responded s).hi = s.hi := rfl
@[simp] theorem responded_lenW (s : State) : (responded s).lenW = s.lenW := rfl
@[simp] theorem responded_lenIdx (s : State) : (responded s).lenIdx = s.lenIdx := rfl
@[simp] theorem responded_lenAcc (s : State) : (responded s).lenAcc = s.lenAcc := rfl
@[simp] theorem responded_n (s : State) : (responded s).n = s.n := rfl
@[simp] theorem responded_rem (s : State) : (responded s).rem = s.rem := rfl
@[simp] theorem responded_dbyte (s : State) : (responded s).dbyte = s.dbyte := rfl
@[simp] theorem responded_rph (s : State) : (responded s).rph = s.rph := rfl
@[simp] theorem responded_idx (s : State) : (responded s).idx = s.idx := rfl
@[simp] theorem responded_acked (s : State) : (responded s).acked = s.acked := rfl
@[simp] theorem responded_last (s : State) : (responded s).last = s.last := rfl
@[simp] theorem responded_savedBaud (s : State) : (responded s).savedBaud = s.savedBaud := rfl
@[simp] theorem responded_baudChg (s : State) : (responded s).baudChg = s.baudChg := rfl
@[simp] theorem responded_excl (s : State) : (responded s).excl = s.excl := rfl
@[simp] theorem responded_txlk (s : State) : (responded s).txlk = s.txlk := rfl
@[simp] theorem responded_fr (s : State) : (responded s).fr = s.fr := rfl
@[simp] theorem responded_pb (s : State) : (responded s).pb = s.pb := rfl
@[simp] theorem responded_pbyte (s : State) : (responded s).pbyte = s.pbyte := rfl
@[simp] theorem responded_requests (s : State) : (responded s).requests = s.requests := rfl
@[simp] theorem responded_pix (s : State) : (responded s).pix = s.pix := rfl
@[simp] theorem responded_pay (s : State) : (responded s).pay = s.pay := rfl
@[simp] theorem responded_pixChanged (s : State) : (responded s).pixChanged = s.pixChanged := rfl
@[simp] theorem responded_payChanged (s : State) : (responded s).payChanged = s.payChanged := rfl
@[simp] theorem responded_baud (s : State) : (responded s).baud = s.baud := rfl
@[simp] theorem responded_rx (s : State) : (responded s).rx = s.rx := rfl
@[simp] theorem responded_rxEnd (s : State) : (responded s).rxEnd = s.rxEnd := rfl
@[simp] theorem responded_keys (s : State) : (responded s).keys = s.keys := rfl
@[simp] theorem responded_tapped (s : State) : (responded s).tapped = s.tapped := rfl
@[simp] theorem responded_otherLock (s : State) : (responded s).otherLock = s.otherLock := rfl
@[simp] theorem responded_withheld (s : State) : (responded s).withheld = s.withheld := rfl
@[simp] theorem responded_hiWraps (s : State) : (responded s).hiWraps = s.hiWraps := rfl
@[simp] theorem responded_turns (s : State) : (responded s).turns = s.turns := rfl
@[simp] theorem responded_draws (s : State) : (responded s).draws = s.draws := rfl
@[simp] theorem responded_trace (s : State) : (responded s).trace = s.trace ++ [.respond s.status s.value s.aux] := rfl

@[simp] theorem loadFrame_cfg (bs : List Byte) (s : State) : (loadFrame bs s).cfg = s.cfg := rfl
@[simp] theorem loadFrame_st (bs : List Byte) (s : State) : (loadFrame bs s).st = s.st := rfl
@[simp] theorem loadFrame_rq (bs : List Byte) (s : State) : (loadFrame bs s).rq = s.rq := rfl
@[simp] theorem loadFrame_status (bs : List Byte) (s : State) : (loadFrame bs s).status = s.status := rfl
@[simp] theorem loadFrame_value (bs : List Byte) (s : State) : (loadFrame bs s).value = s.value := rfl
@[simp] theorem loadFrame_aux (bs : List Byte) (s : State) : (loadFrame bs s).aux = s.aux := rfl
@[simp] theorem loadFrame_fb (bs : List Byte) (s : State) : (loadFrame bs s).fb = bs := rfl
@[simp] theorem loadFrame_hi (bs : List Byte) (s : State) : (loadFrame bs s).hi = 0#8 := rfl
@[simp] theorem loadFrame_lenW (bs : List Byte) (s : State) : (loadFrame bs s).lenW = s.lenW := rfl
@[simp] theorem loadFrame_lenIdx (bs : List Byte) (s : State) : (loadFrame bs s).lenIdx = s.lenIdx := rfl
@[simp] theorem loadFrame_lenAcc (bs : List Byte) (s : State) : (loadFrame bs s).lenAcc = s.lenAcc := rfl
@[simp] theorem loadFrame_n (bs : List Byte) (s : State) : (loadFrame bs s).n = s.n := rfl
@[simp] theorem loadFrame_rem (bs : List Byte) (s : State) : (loadFrame bs s).rem = s.rem := rfl
@[simp] theorem loadFrame_dbyte (bs : List Byte) (s : State) : (loadFrame bs s).dbyte = s.dbyte := rfl
@[simp] theorem loadFrame_rph (bs : List Byte) (s : State) : (loadFrame bs s).rph = s.rph := rfl
@[simp] theorem loadFrame_idx (bs : List Byte) (s : State) : (loadFrame bs s).idx = s.idx := rfl
@[simp] theorem loadFrame_acked (bs : List Byte) (s : State) : (loadFrame bs s).acked = s.acked := rfl
@[simp] theorem loadFrame_last (bs : List Byte) (s : State) : (loadFrame bs s).last = s.last := rfl
@[simp] theorem loadFrame_savedBaud (bs : List Byte) (s : State) : (loadFrame bs s).savedBaud = s.savedBaud := rfl
@[simp] theorem loadFrame_baudChg (bs : List Byte) (s : State) : (loadFrame bs s).baudChg = s.baudChg := rfl
@[simp] theorem loadFrame_excl (bs : List Byte) (s : State) : (loadFrame bs s).excl = s.excl := rfl
@[simp] theorem loadFrame_txlk (bs : List Byte) (s : State) : (loadFrame bs s).txlk = s.txlk := rfl
@[simp] theorem loadFrame_fr (bs : List Byte) (s : State) : (loadFrame bs s).fr = s.fr := rfl
@[simp] theorem loadFrame_pb (bs : List Byte) (s : State) : (loadFrame bs s).pb = s.pb := rfl
@[simp] theorem loadFrame_pbyte (bs : List Byte) (s : State) : (loadFrame bs s).pbyte = s.pbyte := rfl
@[simp] theorem loadFrame_requests (bs : List Byte) (s : State) : (loadFrame bs s).requests = s.requests := rfl
@[simp] theorem loadFrame_pix (bs : List Byte) (s : State) : (loadFrame bs s).pix = s.pix := rfl
@[simp] theorem loadFrame_pay (bs : List Byte) (s : State) : (loadFrame bs s).pay = s.pay := rfl
@[simp] theorem loadFrame_pixChanged (bs : List Byte) (s : State) : (loadFrame bs s).pixChanged = s.pixChanged := rfl
@[simp] theorem loadFrame_payChanged (bs : List Byte) (s : State) : (loadFrame bs s).payChanged = s.payChanged := rfl
@[simp] theorem loadFrame_baud (bs : List Byte) (s : State) : (loadFrame bs s).baud = s.baud := rfl
@[simp] theorem loadFrame_rx (bs : List Byte) (s : State) : (loadFrame bs s).rx = s.rx := rfl
@[simp] theorem loadFrame_rxEnd (bs : List Byte) (s : State) : (loadFrame bs s).rxEnd = s.rxEnd := rfl
@[simp] theorem loadFrame_keys (bs : List Byte) (s : State) : (loadFrame bs s).keys = s.keys := rfl
@[simp] theorem loadFrame_tapped (bs : List Byte) (s : State) : (loadFrame bs s).tapped = s.tapped := rfl
@[simp] theorem loadFrame_otherLock (bs : List Byte) (s : State) : (loadFrame bs s).otherLock = s.otherLock := rfl
@[simp] theorem loadFrame_withheld (bs : List Byte) (s : State) : (loadFrame bs s).withheld = s.withheld := rfl
@[simp] theorem loadFrame_hiWraps (bs : List Byte) (s : State) : (loadFrame bs s).hiWraps = 0 := rfl
@[simp] theorem loadFrame_turns (bs : List Byte) (s : State) : (loadFrame bs s).turns = s.turns := rfl
@[simp] theorem loadFrame_draws (bs : List Byte) (s : State) : (loadFrame bs s).draws = s.draws := rfl
@[simp] theorem loadFrame_trace (bs : List Byte) (s : State) : (loadFrame bs s).trace = s.trace := rfl

@[simp] theorem frameByteSent_cfg (b : Byte) (s : State) : (frameByteSent b s).cfg = s.cfg := rfl
@[simp] theorem frameByteSent_st (b : Byte) (s : State) : (frameByteSent b s).st = s.st := rfl
@[simp] theorem frameByteSent_rq (b : Byte) (s : State) : (frameByteSent b s).rq = s.rq := rfl
@[simp] theorem frameByteSent_status (b : Byte) (s : State) : (frameByteSent b s).status = s.status := rfl
@[simp] theorem frameByteSent_value (b : Byte) (s : State) : (frameByteSent b s).value = s.value := rfl
@[simp] theorem frameByteSent_aux (b : Byte) (s : State) : (frameByteSent b s).aux = s.aux := rfl
@[simp] theorem frameByteSent_fb (b : Byte) (s : State) : (frameByteSent b s).fb = s.fb := rfl
@[simp] theorem frameByteSent_hi (b : Byte) (s : State) : (frameByteSent b s).hi = s.hi + 1#8 := rfl
@[simp] theorem frameByteSent_lenW (b : Byte) (s : State) : (frameByteSent b s).lenW = s.lenW := rfl
@[simp] theorem frameByteSent_lenIdx (b : Byte) (s : State) : (frameByteSent b s).lenIdx = s.lenIdx := rfl
@[simp] theorem frameByteSent_lenAcc (b : Byte) (s : State) : (frameByteSent b s).lenAcc = s.lenAcc := rfl
@[simp] theorem frameByteSent_n (b : Byte) (s : State) : (frameByteSent b s).n = s.n := rfl
@[simp] theorem frameByteSent_rem (b : Byte) (s : State) : (frameByteSent b s).rem = s.rem := rfl
@[simp] theorem frameByteSent_dbyte (b : Byte) (s : State) : (frameByteSent b s).dbyte = s.dbyte := rfl
@[simp] theorem frameByteSent_rph (b : Byte) (s : State) : (frameByteSent b s).rph = s.rph := rfl
@[simp] theorem frameByteSent_idx (b : Byte) (s : State) : (frameByteSent b s).idx = s.idx := rfl
@[simp] theorem frameByteSent_acked (b : Byte) (s : State) : (frameByteSent b s).acked = s.acked := rfl
@[simp] theorem frameByteSent_last (b : Byte) (s : State) : (frameByteSent b s).last = s.last := rfl
@[simp] theorem frameByteSent_savedBaud (b : Byte) (s : State) : (frameByteSent b s).savedBaud = s.savedBaud := rfl
@[simp] theorem frameByteSent_baudChg (b : Byte) (s : State) : (frameByteSent b s).baudChg = s.baudChg := rfl
@[simp] theorem frameByteSent_excl (b : Byte) (s : State) : (frameByteSent b s).excl = s.excl := rfl
@[simp] theorem frameByteSent_txlk (b : Byte) (s : State) : (frameByteSent b s).txlk = s.txlk := rfl
@[simp] theorem frameByteSent_fr (b : Byte) (s : State) : (frameByteSent b s).fr = s.fr := rfl
@[simp] theorem frameByteSent_pb (b : Byte) (s : State) : (frameByteSent b s).pb = s.pb := rfl
@[simp] theorem frameByteSent_pbyte (b : Byte) (s : State) : (frameByteSent b s).pbyte = s.pbyte := rfl
@[simp] theorem frameByteSent_requests (b : Byte) (s : State) : (frameByteSent b s).requests = s.requests := rfl
@[simp] theorem frameByteSent_pix (b : Byte) (s : State) : (frameByteSent b s).pix = s.pix := rfl
@[simp] theorem frameByteSent_pay (b : Byte) (s : State) : (frameByteSent b s).pay = s.pay := rfl
@[simp] theorem frameByteSent_pixChanged (b : Byte) (s : State) : (frameByteSent b s).pixChanged = s.pixChanged := rfl
@[simp] theorem frameByteSent_payChanged (b : Byte) (s : State) : (frameByteSent b s).payChanged = s.payChanged := rfl
@[simp] theorem frameByteSent_baud (b : Byte) (s : State) : (frameByteSent b s).baud = s.baud := rfl
@[simp] theorem frameByteSent_rx (b : Byte) (s : State) : (frameByteSent b s).rx = s.rx := rfl
@[simp] theorem frameByteSent_rxEnd (b : Byte) (s : State) : (frameByteSent b s).rxEnd = s.rxEnd := rfl
@[simp] theorem frameByteSent_keys (b : Byte) (s : State) : (frameByteSent b s).keys = s.keys := rfl
@[simp] theorem frameByteSent_tapped (b : Byte) (s : State) : (frameByteSent b s).tapped = s.tapped := rfl
@[simp] theorem frameByteSent_otherLock (b : Byte) (s : State) : (frameByteSent b s).otherLock = s.otherLock := rfl
@[simp] theorem frameByteSent_withheld (b : Byte) (s : State) : (frameByteSent b s).withheld = s.withheld := rfl
@[simp] theorem frameByteSent_hiWraps (b : Byte) (s : State) : (frameByteSent b s).hiWraps = if s.hi = 255#8 then s.hiWraps + 1 else s.hiWraps := rfl
@[simp] theorem frameByteSent_turns (b : Byte) (s : State) : (frameByteSent b s).turns = s.turns := rfl
@[simp] theorem frameByteSent_draws (b : Byte) (s : State) : (frameByteSent b s).draws = s.draws := rfl
@[simp] theorem frameByteSent_trace (b : Byte) (s : State) : (frameByteSent b s).trace = s.trace ++ [.tx b] := rfl

@[simp] theorem countersReset_cfg (s : State) : (countersReset s).cfg = s.cfg := rfl
@[simp] theorem countersReset_st (s : State) : (countersReset s).st = s.st := rfl
@[simp] theorem countersReset_rq (s : State) : (countersReset s).rq = s.rq := rfl
@[simp] theorem countersReset_status (s : State) : (countersReset s).status = s.status := rfl
@[simp] theorem countersReset_value (s : State) : (countersReset s).value = s.value := rfl
@[simp] theorem countersReset_aux (s : State) : (countersReset s).aux = s.aux := rfl
@[simp] theorem countersReset_fb (s : State) : (countersReset s).fb = s.fb := rfl
@[simp] theorem countersReset_hi (s : State) : (countersReset s).hi = s.hi := rfl
@[simp] theorem countersReset_lenW (s : State) : (countersReset s).lenW = s.lenW := rfl
@[simp] theorem countersReset_lenIdx (s : State) : (countersReset s).lenIdx = s.lenIdx := rfl
@[simp] theorem countersReset_lenAcc (s : State) : (countersReset s).lenAcc = s.lenAcc := rfl
@[simp] theorem countersReset_n (s : State) : (countersReset s).n = s.n := rfl
@[simp] theorem countersReset_rem (s : State) : (countersReset s).rem = s.rem := rfl
@[simp] theorem countersReset_dbyte (s : State) : (countersReset s).dbyte = s.dbyte := rfl
@[simp] theorem countersReset_rph (s : State) : (countersReset s).rph = s.rph := rfl
@[simp] theorem countersReset_idx (s : State) : (countersReset s).idx = 0#32 := rfl
@[simp] theorem countersReset_acked (s : State) : (countersReset s).acked = 0#32 := rfl
@[simp] theorem countersReset_last (s : State) : (countersReset s).last = s.last := rfl
@[simp] theorem countersReset_savedBaud (s : State) : (countersReset s).savedBaud = s.savedBaud := rfl
@[simp] theorem countersReset_baudChg (s : State) : (countersReset s).baudChg = s.baudChg := rfl
@[simp] theorem countersReset_excl (s : State) : (countersReset s).excl = s.excl := rfl
@[simp] theorem countersReset_txlk (s : State) : (countersReset s).txlk = s.txlk := rfl
@[simp] theorem countersReset_fr (s : State) : (countersReset s).fr = s.fr := rfl
@[simp] theorem countersReset_pb (s : State) : (countersReset s).pb = s.pb := rfl
@[simp] theorem countersReset_pbyte (s : State) : (countersReset s).pbyte = s.pbyte := rfl
@[simp] theorem countersReset_requests (s : State) : (countersReset s).requests = s.requests := rfl
@[simp] theorem countersReset_pix (s : State) : (countersReset s).pix = s.pix := rfl
@[simp] theorem countersReset_pay (s : State) : (countersReset s).pay = s.pay := rfl
@[simp] theorem countersReset_pixChanged (s : State) : (countersReset s).pixChanged = s.pixChanged := rfl
@[simp] theorem countersReset_payChanged (s : State) : (countersReset s).payChanged = s.payChanged := rfl
@[simp] theorem countersReset_baud (s : State) : (countersReset s).baud = s.baud := rfl
@[simp] theorem countersReset_rx (s : State) : (countersReset s).rx = s.rx := rfl
@[simp] theorem countersReset_rxEnd (s : State) : (countersReset s).rxEnd = s.rxEnd := rfl
@[simp] theorem countersReset_keys (s : State) : (countersReset s).keys = s.keys := rfl
@[simp] theorem countersReset_tapped (s : State) : (countersReset s).tapped = s.tapped := rfl
@[simp] theorem countersReset_otherLock (s : State) : (countersReset s).otherLock = s.otherLock := rfl
@[simp] theorem countersReset_withheld (s : State) : (countersReset s).withheld = s.withheld := rfl
@[simp] theorem countersReset_hiWraps (s : State) : (countersReset s).hiWraps = s.hiWraps := rfl
@[simp] theorem countersReset_turns (s : State) : (countersReset s).turns = s.turns := rfl
@[simp] theorem countersReset_draws (s : State) : (countersReset s).draws = s.draws := rfl
@[simp] theorem countersReset_trace (s : State) : (countersReset s).trace = s.trace := rfl

@[simp] theorem rxDelivered_cfg (b : Byte) (rest : List Byte) (s : State) : (rxDelivered b rest s).cfg = s.cfg := rfl
@[simp] theorem rxDelivered_st (b : Byte) (rest : List Byte) (s : State) : (rxDelivered b rest s).st = s.st := rfl
@[simp] theorem rxDelivered_rq (b : Byte) (rest : List Byte) (s : State) : (rxDelivered b rest s).rq = s.rq := rfl
@[simp] theorem rxDelivered_status (b : Byte) (rest : List Byte) (s : State) : (rxDelivered b rest s).status = s.status := rfl
@[simp] theorem rxDelivered_value (b : Byte) (rest : List Byte) (s : State) : (rxDelivered b rest s).value = s.value := rfl
@[simp] theorem rxDelivered_aux (b : Byte) (rest : List Byte) (s : State) : (rxDelivered b rest s).aux = s.aux := rfl
@[simp] theorem rxDelivered_fb (b : Byte) (rest : List Byte) (s : State) : (rxDelivered b rest s).fb = s.fb := rfl
@[simp] theorem rxDelivered_hi (b : Byte) (rest : List Byte) (s : State) : (rxDelivered b rest s).hi = s.hi := rfl
@[simp] theorem rxDelivered_lenW (b : Byte) (rest : List Byte) (s : State) : (rxDelivered b rest s).lenW = s.lenW := rfl
@[simp] theorem rxDelivered_lenIdx (b : Byte) (rest : List Byte) (s : State) : (rxDelivered b rest s).lenIdx = s.lenIdx := rfl
@[simp] theorem rxDelivered_lenAcc (b : Byte) (rest : List Byte) (s : State) : (rxDelivered b rest s).lenAcc = s.lenAcc := rfl
@[simp] theorem rxDelivered_n (b : Byte) (rest : List Byte) (s : State) : (rxDelivered b rest s).n = s.n := rfl
@[simp] theorem rxDelivered_rem (b : Byte) (rest : List Byte) (s : State) : (rxDelivered b rest s).rem = s.rem := rfl
@[simp] theorem rxDelivered_dbyte (b : Byte) (rest : List Byte) (s : State) : (rxDelivered b rest s).dbyte = s.dbyte := rfl
@[simp] theorem rxDelivered_rph (b : Byte) (rest : List Byte) (s : State) : (rxDelivered b rest s).rph = s.rph := rfl
@[simp] theorem rxDelivered_idx (b : Byte) (rest : List Byte) (s : State) : (rxDelivered b rest s).idx = s.idx := rfl
@[simp] theorem rxDelivered_acked (b : Byte) (rest : List Byte) (s : State) : (rxDelivered b rest s).acked = s.acked := rfl
@[simp] theorem rxDelivered_last (b : Byte) (rest : List Byte) (s : State) : (rxDelivered b rest s).last = s.last := rfl
@[simp] theorem rxDelivered_savedBaud (b : Byte) (rest : List Byte) (s : State) : (rxDelivered b rest s).savedBaud = s.savedBaud := rfl
@[simp] theorem rxDelivered_baudChg (b : Byte) (rest : List Byte) (s : State) : (rxDelivered b rest s).baudChg = s.baudChg := rfl
@[simp] theorem rxDelivered_excl (b : Byte) (rest : List Byte) (s : State) : (rxDelivered b rest s).excl = s.excl := rfl
@[simp] theorem rxDelivered_txlk (b : Byte) (rest : List Byte) (s : State) : (rxDelivered b rest s).txlk = s.txlk := rfl
@[simp] theorem rxDelivered_fr (b : Byte) (rest : List Byte) (s : State) : (rxDelivered b rest s).fr = s.fr := rfl
@[simp] theorem rxDelivered_pb (b : Byte) (rest : List Byte) (s : State) : (rxDelivered b rest s).pb = s.pb := rfl
@[simp] theorem rxDelivered_pbyte (b : Byte) (rest : List Byte) (s : State) : (rxDelivered b rest s).pbyte = s.pbyte := rfl
@[simp] theorem rxDelivered_requests (b : Byte) (rest : List Byte) (s : State) : (rxDelivered b rest s).requests = s.requests := rfl
@[simp] theorem rxDelivered_pix (b : Byte) (rest : List Byte) (s : State) : (rxDelivered b rest s).pix = s.pix := rfl
@[simp] theorem rxDelivered_pay (b : Byte) (rest : List Byte) (s : State) : (rxDelivered b rest s).pay = s.pay := rfl
@[simp] theorem rxDelivered_pixChanged (b : Byte) (rest : List Byte) (s : State) : (rxDelivered b rest s).pixChanged = s.pixChanged := rfl
@[simp] theorem rxDelivered_payChanged (b : Byte) (rest : List Byte) (s : State) : (rxDelivered b rest s).payChanged = s.payChanged := rfl
@[simp] theorem rxDelivered_baud (b : Byte) (rest : List Byte) (s : State) : (rxDelivered b rest s).baud = s.baud := rfl
@[simp] theorem rxDelivered_rx (b : Byte) (rest : List Byte) (s : State) : (rxDelivered b rest s).rx = rest := rfl
@[simp] theorem rxDelivered_rxEnd (b : Byte) (rest : List Byte) (s : State) : (rxDelivered b rest s).rxEnd = s.rxEnd := rfl
@[simp] theorem rxDelivered_keys (b : Byte) (rest : List Byte) (s : State) : (rxDelivered b rest s).keys = s.keys := rfl
@[simp] theorem rxDelivered_tapped (b : Byte) (rest : List Byte) (s : State) : (rxDelivered b rest s).tapped = s.tapped := rfl
@[simp] theorem rxDelivered_otherLock (b : Byte) (rest : List Byte) (s : State) : (rxDelivered b rest s).otherLock = s.otherLock := rfl
@[simp] theorem rxDelivered_withheld (b : Byte) (rest : List Byte) (s : State) : (rxDelivered b rest s).withheld = s.withheld := rfl
@[simp] theorem rxDelivered_hiWraps (b : Byte) (rest : List Byte) (s : State) : (rxDelivered b rest s).hiWraps = s.hiWraps := rfl
@[simp] theorem rxDelivered_turns (b : Byte) (rest : List Byte) (s : State) : (rxDelivered b rest s).turns = s.turns := rfl
@[simp] theorem rxDelivered_draws (b : Byte) (rest : List Byte) (s : State) : (rxDelivered b rest s).draws = s.draws := rfl
@[simp] theorem rxDelivered_trace (b : Byte) (rest : List Byte) (s : State) : (rxDelivered b rest s).trace = s.trace ++ [.rx (some b)] := rfl

@[simp] theorem drawn_cfg (k : Nat) (s : State) : (drawn k s).cfg = s.cfg := rfl
@[simp] theorem drawn_st (k : Nat) (s : State) : (drawn k s).st = s.st := rfl
@[simp] theorem drawn_rq (k : Nat) (s : State) : (drawn k s).rq = s.rq := rfl
@[simp] theorem drawn_status (k : Nat) (s : State) : (drawn k s).status = s.status := rfl
@[simp] theorem drawn_value (k : Nat) (s : State) : (drawn k s).value = s.value := rfl
@[simp] theorem drawn_aux (k : Nat) (s : State) : (drawn k s).aux = s.aux := rfl
@[simp] theorem drawn_fb (k : Nat) (s : State) : (drawn k s).fb = s.fb := rfl
@[simp] theorem drawn_hi (k : Nat) (s : State) : (drawn k s).hi = s.hi := rfl
@[simp] theorem drawn_lenW (k : Nat) (s : State) : (drawn k s).lenW = s.lenW := rfl
@[simp] theorem drawn_lenIdx (k : Nat) (s : State) : (drawn k s).lenIdx = s.lenIdx := rfl
@[simp] theorem drawn_lenAcc (k : Nat) (s : State) : (drawn k s).lenAcc = s.lenAcc := rfl
@[simp] theorem drawn_n (k : Nat) (s : State) : (drawn k s).n = s.n := rfl
@[simp] theorem drawn_rem (k : Nat) (s : State) : (drawn k s).rem = s.rem := rfl
@[simp] theorem drawn_dbyte (k : Nat) (s : State) : (drawn k s).dbyte = s.dbyte := rfl
@[simp] theorem drawn_rph (k : Nat) (s : State) : (drawn k s).rph = s.rph := rfl
@[simp] theorem drawn_idx (k : Nat) (s : State) : (drawn k s).idx = s.idx := rfl
@[simp] theorem drawn_acked (k : Nat) (s : State) : (drawn k s).acked = s.acked := rfl
@[simp] theorem drawn_last (k : Nat) (s : State) : (drawn k s).last = s.last := rfl
@[simp] theorem drawn_savedBaud (k : Nat) (s : State) : (drawn k s).savedBaud = s.savedBaud := rfl
@[simp] theorem drawn_baudChg (k : Nat) (s : State) : (drawn k s).baudChg = s.baudChg := rfl
@[simp] theorem drawn_excl (k : Nat) (s : State) : (drawn k s).excl = s.excl := rfl
@[simp] theorem drawn_txlk (k : Nat) (s : State) : (drawn k s).txlk = s.txlk := rfl
@[simp] theorem drawn_fr (k : Nat) (s : State) : (drawn k s).fr = s.fr := rfl
@[simp] theorem drawn_pb (k : Nat) (s : State) : (drawn k s).pb = s.pb := rfl
@[simp] theorem drawn_pbyte (k : Nat) (s : State) : (drawn k s).pbyte = s.pbyte := rfl
@[simp] theorem drawn_requests (k : Nat) (s : State) : (drawn k s).requests = s.requests := rfl
@[simp] theorem drawn_pix (k : Nat) (s : State) : (drawn k s).pix = s.pix := rfl
@[simp] theorem drawn_pay (k : Nat) (s : State) : (drawn k s).pay = s.pay := rfl
@[simp] theorem drawn_pixChanged (k : Nat) (s : State) : (drawn k s).pixChanged = s.pixChanged := rfl
@[simp] theorem drawn_payChanged (k : Nat) (s : State) : (drawn k s).payChanged = s.payChanged := rfl
@[simp] theorem drawn_baud (k : Nat) (s : State) : (drawn k s).baud = s.baud := rfl
@[simp] theorem drawn_rx (k : Nat) (s : State) : (drawn k s).rx = s.rx := rfl
@[simp] theorem drawn_rxEnd (k : Nat) (s : State) : (drawn k s).rxEnd = s.rxEnd := rfl
@[simp] theorem drawn_keys (k : Nat) (s : State) : (drawn k s).keys = s.keys := rfl
@[simp] theorem drawn_tapped (k : Nat) (s : State) : (drawn k s).tapped = s.tapped := rfl
@[simp] theorem drawn_otherLock (k : Nat) (s : State) : (drawn k s).otherLock = s.otherLock := rfl
@[simp] theorem drawn_withheld (k : Nat) (s : State) : (drawn k s).withheld = s.withheld := rfl
@[simp] theorem drawn_hiWraps (k : Nat) (s : State) : (drawn k s).hiWraps = s.hiWraps := rfl
@[simp] theorem drawn_turns (k : Nat) (s : State) : (drawn k s).turns = s.turns := rfl
@[simp] theorem drawn_draws (k : Nat) (s : State) : (drawn k s).draws = s.draws + k := rfl
@[simp] theorem drawn_trace (k : Nat) (s : State) : (drawn k s).trace = s.trace := rfl

@[simp] theorem phase_cfg (p : BitVec 2) (s : State) : (phase p s).cfg = s.cfg := rfl
@[simp] theorem phase_st (p : BitVec 2) (s : State) : (phase p s).st = s.st := rfl
@[simp] theorem phase_rq (p : BitVec 2) (s : State) : (phase p s).rq = s.rq := rfl
@[simp] theorem phase_status (p : BitVec 2) (s : State) : (phase p s).status = s.status := rfl
@[simp] theorem phase_value (p : BitVec 2) (s : State) : (phase p s).value = s.value := rfl
@[simp] theorem phase_aux (p : BitVec 2) (s : State) : (phase p s).aux = s.aux := rfl
@[simp] theorem phase_fb (p : BitVec 2) (s : State) : (phase p s).fb = s.fb := rfl
@[simp] theorem phase_hi (p : BitVec 2) (s : State) : (phase p s).hi = s.hi := rfl
@[simp] theorem phase_lenW (p : BitVec 2) (s : State) : (phase p s).lenW = s.lenW := rfl
@[simp] theorem phase_lenIdx (p : BitVec 2) (s : State) : (phase p s).lenIdx = s.lenIdx := rfl
@[simp] theorem phase_lenAcc (p : BitVec 2) (s : State) : (phase p s).lenAcc = s.lenAcc := rfl
@[simp] theorem phase_n (p : BitVec 2) (s : State) : (phase p s).n = s.n := rfl
@[simp] theorem phase_rem (p : BitVec 2) (s : State) : (phase p s).rem = s.rem := rfl
@[simp] theorem phase_dbyte (p : BitVec 2) (s : State) : (phase p s).dbyte = s.dbyte := rfl
@[simp] theorem phase_rph (p : BitVec 2) (s : State) : (phase p s).rph = p := rfl
@[simp] theorem phase_idx (p : BitVec 2) (s : State) : (phase p s).idx = s.idx := rfl
@[simp] theorem phase_acked (p : BitVec 2) (s : State) : (phase p s).acked = s.acked := rfl
@[simp] theorem phase_last (p : BitVec 2) (s : State) : (phase p s).last = s.last := rfl
@[simp] theorem phase_savedBaud (p : BitVec 2) (s : State) : (phase p s).savedBaud = s.savedBaud := rfl
@[simp] theorem phase_baudChg (p : BitVec 2) (s : State) : (phase p s).baudChg = s.baudChg := rfl
@[simp] theorem phase_excl (p : BitVec 2) (s : State) : (phase p s).excl = s.excl := rfl
@[simp] theorem phase_txlk (p : BitVec 2) (s : State) : (phase p s).txlk = s.txlk := rfl
@[simp] theorem phase_fr (p : BitVec 2) (s : State) : (phase p s).fr = s.fr := rfl
@[simp] theorem phase_pb (p : BitVec 2) (s : State) : (phase p s).pb = s.pb := rfl
@[simp] theorem phase_pbyte (p : BitVec 2) (s : State) : (phase p s).pbyte = s.pbyte := rfl
@[simp] theorem phase_requests (p : BitVec 2) (s : State) : (phase p s).requests = s.requests := rfl
@[simp] theorem phase_pix (p : BitVec 2) (s : State) : (phase p s).pix = s.pix := rfl
@[simp] theorem phase_pay (p : BitVec 2) (s : State) : (phase p s).pay = s.pay := rfl
@[simp] theorem phase_pixChanged (p : BitVec 2) (s : State) : (phase p s).pixChanged = s.pixChanged := rfl
@[simp] theorem phase_payChanged (p : BitVec 2) (s : State) : (phase p s).payChanged = s.payChanged := rfl
@[simp] theorem phase_baud (p : BitVec 2) (s : State) : (phase p s).baud = s.baud := rfl
@[simp] theorem phase_rx (p : BitVec 2) (s : State) : (phase p s).rx = s.rx := rfl
@[simp] theorem phase_rxEnd (p : BitVec 2) (s : State) : (phase p s).rxEnd = s.rxEnd := rfl
@[simp] theorem phase_keys (p : BitVec 2) (s : State) : (phase p s).keys = s.keys := rfl
@[simp] theorem phase_tapped (p : BitVec 2) (s : State) : (phase p s).tapped = s.tapped := rfl
@[simp] theorem phase_otherLock (p : BitVec 2) (s : State) : (phase p s).otherLock = s.otherLock := rfl
@[simp] theorem phase_withheld (p : BitVec 2) (s : State) : (phase p s).withheld = s.withheld := rfl
@[simp] theorem phase_hiWraps (p : BitVec 2) (s : State) : (phase p s).hiWraps = s.hiWraps := rfl
@[simp] theorem phase_turns (p : BitVec 2) (s : State) : (phase p s).turns = s.turns := rfl
@[simp] theorem phase_draws (p : BitVec 2) (s : State) : (phase p s).draws = s.draws := rfl
@[simp] theorem phase_trace (p : BitVec 2) (s : State) : (phase p s).trace = s.trace := rfl

@[simp] theorem lenStarted_cfg (w : Nat) (s : State) : (lenStarted w s).cfg = s.cfg := rfl
@[simp] theorem lenStarted_st (w : Nat) (s : State) : (lenStarted w s).st = s.st := rfl
@[simp] theorem lenStarted_rq (w : Nat) (s : State) : (lenStarted w s).rq = s.rq := rfl
@[simp] theorem lenStarted_status (w : Nat) (s : State) : (lenStarted w s).status = s.status := rfl
@[simp] theorem lenStarted_value (w : Nat) (s : State) : (lenStarted w s).value = s.value := rfl
@[simp] theorem lenStarted_aux (w : Nat) (s : State) : (lenStarted w s).aux = s.aux := rfl
@[simp] theorem lenStarted_fb (w : Nat) (s : State) : (lenStarted w s).fb = s.fb := rfl
@[simp] theorem lenStarted_hi (w : Nat) (s : State) : (lenStarted w s).hi = s.hi := rfl
@[simp] theorem lenStarted_lenW (w : Nat) (s : State) : (lenStarted w s).lenW = BitVec.ofNat 3 w := rfl
@[simp] theorem lenStarted_lenIdx (w : Nat) (s : State) : (lenStarted w s).lenIdx = 0#3 := rfl
@[simp] theorem lenStarted_lenAcc (w : Nat) (s : State) : (lenStarted w s).lenAcc = 0#32 := rfl
@[simp] theorem lenStarted_n (w : Nat) (s : State) : (lenStarted w s).n = s.n := rfl
@[simp] theorem lenStarted_rem (w : Nat) (s : State) : (lenStarted w s).rem = s.rem := rfl
@[simp] theorem lenStarted_dbyte (w : Nat) (s : State) : (lenStarted w s).dbyte = s.dbyte := rfl
@[simp] theorem lenStarted_rph (w : Nat) (s : State) : (lenStarted w s).rph = 0#2 := rfl
@[simp] theorem lenStarted_idx (w : Nat) (s : State) : (lenStarted w s).idx = s.idx := rfl
@[simp] theorem lenStarted_acked (w : Nat) (s : State) : (lenStarted w s).acked = s.acked := rfl
@[simp] theorem lenStarted_last (w : Nat) (s : State) : (lenStarted w s).last = s.last := rfl
@[simp] theorem lenStarted_savedBaud (w : Nat) (s : State) : (lenStarted w s).savedBaud = s.savedBaud := rfl
@[simp] theorem lenStarted_baudChg (w : Nat) (s : State) : (lenStarted w s).baudChg = s.baudChg := rfl
@[simp] theorem lenStarted_excl (w : Nat) (s : State) : (lenStarted w s).excl = s.excl := rfl
@[simp] theorem lenStarted_txlk (w : Nat) (s : State) : (lenStarted w s).txlk = s.txlk := rfl
@[simp] theorem lenStarted_fr (w : Nat) (s : State) : (lenStarted w s).fr = s.fr := rfl
@[simp] theorem lenStarted_pb (w : Nat) (s : State) : (lenStarted w s).pb = s.pb := rfl
@[simp] theorem lenStarted_pbyte (w : Nat) (s : State) : (lenStarted w s).pbyte = s.pbyte := rfl
@[simp] theorem lenStarted_requests (w : Nat) (s : State) : (lenStarted w s).requests = s.requests := rfl
@[simp] theorem lenStarted_pix (w : Nat) (s : State) : (lenStarted w s).pix = s.pix := rfl
@[simp] theorem lenStarted_pay (w : Nat) (s : State) : (lenStarted w s).pay = s.pay := rfl
@[simp] theorem lenStarted_pixChanged (w : Nat) (s : State) : (lenStarted w s).pixChanged = s.pixChanged := rfl
@[simp] theorem lenStarted_payChanged (w : Nat) (s : State) : (lenStarted w s).payChanged = s.payChanged := rfl
@[simp] theorem lenStarted_baud (w : Nat) (s : State) : (lenStarted w s).baud = s.baud := rfl
@[simp] theorem lenStarted_rx (w : Nat) (s : State) : (lenStarted w s).rx = s.rx := rfl
@[simp] theorem lenStarted_rxEnd (w : Nat) (s : State) : (lenStarted w s).rxEnd = s.rxEnd := rfl
@[simp] theorem lenStarted_keys (w : Nat) (s : State) : (lenStarted w s).keys = s.keys := rfl
@[simp] theorem lenStarted_tapped (w : Nat) (s : State) : (lenStarted w s).tapped = s.tapped := rfl
@[simp] theorem lenStarted_otherLock (w : Nat) (s : State) : (lenStarted w s).otherLock = s.otherLock := rfl
@[simp] theorem lenStarted_withheld (w : Nat) (s : State) : (lenStarted w s).withheld = s.withheld := rfl
@[simp] theorem lenStarted_hiWraps (w : Nat) (s : State) : (lenStarted w s).hiWraps = s.hiWraps := rfl
@[simp] theorem lenStarted_turns (w : Nat) (s : State) : (lenStarted w s).turns = s.turns := rfl
@[simp] theorem lenStarted_draws (w : Nat) (s : State) : (lenStarted w s).draws = s.draws := rfl
@[simp] theorem lenStarted_trace (w : Nat) (s : State) : (lenStarted w s).trace = s.trace := rfl

@[simp] theorem lenByteTaken_cfg (b : Byte) (s : State) : (lenByteTaken b s).cfg = s.cfg := rfl
@[simp] theorem lenByteTaken_st (b : Byte) (s : State) : (lenByteTaken b s).st = s.st := rfl
@[simp] theorem lenByteTaken_rq (b : Byte) (s : State) : (lenByteTaken b s).rq = s.rq := rfl
@[simp] theorem lenByteTaken_status (b : Byte) (s : State) : (lenByteTaken b s).status = s.status := rfl
@[simp] theorem lenByteTaken_value (b : Byte) (s : State) : (lenByteTaken b s).value = s.value := rfl
@[simp] theorem lenByteTaken_aux (b : Byte) (s : State) : (lenByteTaken b s).aux = s.aux := rfl
@[simp] theorem lenByteTaken_fb (b : Byte) (s : State) : (lenByteTaken b s).fb = s.fb := rfl
@[simp] theorem lenByteTaken_hi (b : Byte) (s : State) : (lenByteTaken b s).hi = s.hi := rfl
@[simp] theorem lenByteTaken_lenW (b : Byte) (s : State) : (lenByteTaken b s).lenW = s.lenW := rfl
@[simp] theorem lenByteTaken_lenIdx (b : Byte) (s : State) : (lenByteTaken b s).lenIdx = s.lenIdx + 1#3 := rfl
@[simp] theorem lenByteTaken_lenAcc (b : Byte) (s : State) : (lenByteTaken b s).lenAcc = s.lenAcc + (b.zeroExtend 32 <<< (8 * s.lenIdx.toNat)) := rfl
@[simp] theorem lenByteTaken_n (b : Byte) (s : State) : (lenByteTaken b s).n = s.n := rfl
@[simp] theorem lenByteTaken_rem (b : Byte) (s : State) : (lenByteTaken b s).rem = s.rem := rfl
@[simp] theorem lenByteTaken_dbyte (b : Byte) (s : State) : (lenByteTaken b s).dbyte = s.dbyte := rfl
@[simp] theorem lenByteTaken_rph (b : Byte) (s : State) : (lenByteTaken b s).rph = s.rph := rfl
@[simp] theorem lenByteTaken_idx (b : Byte) (s : State) : (lenByteTaken b s).idx = s.idx := rfl
@[simp] theorem lenByteTaken_acked (b : Byte) (s : State) : (lenByteTaken b s).acked = s.acked := rfl
@[simp] theorem lenByteTaken_last (b : Byte) (s : State) : (lenByteTaken b s).last = s.last := rfl
@[simp] theorem lenByteTaken_savedBaud (b : Byte) (s : State) : (lenByteTaken b s).savedBaud = s.savedBaud := rfl
@[simp] theorem lenByteTaken_baudChg (b : Byte) (s : State) : (lenByteTaken b s).baudChg = s.baudChg := rfl
@[simp] theorem lenByteTaken_excl (b : Byte) (s : State) : (lenByteTaken b s).excl = s.excl := rfl
@[simp] theorem lenByteTaken_txlk (b : Byte) (s : State) : (lenByteTaken b s).txlk = s.txlk := rfl
@[simp] theorem lenByteTaken_fr (b : Byte) (s : State) : (lenByteTaken b s).fr = s.fr := rfl
@[simp] theorem lenByteTaken_pb (b : Byte) (s : State) : (lenByteTaken b s).pb = s.pb := rfl
@[simp] theorem lenByteTaken_pbyte (b : Byte) (s : State) : (lenByteTaken b s).pbyte = s.pbyte := rfl
@[simp] theorem lenByteTaken_requests (b : Byte) (s : State) : (lenByteTaken b s).requests = s.requests := rfl
@[simp] theorem lenByteTaken_pix (b : Byte) (s : State) : (lenByteTaken b s).pix = s.pix := rfl
@[simp] theorem lenByteTaken_pay (b : Byte) (s : State) : (lenByteTaken b s).pay = s.pay := rfl
@[simp] theorem lenByteTaken_pixChanged (b : Byte) (s : State) : (lenByteTaken b s).pixChanged = s.pixChanged := rfl
@[simp] theorem lenByteTaken_payChanged (b : Byte) (s : State) : (lenByteTaken b s).payChanged = s.payChanged := rfl
@[simp] theorem lenByteTaken_baud (b : Byte) (s : State) : (lenByteTaken b s).baud = s.baud := rfl
@[simp] theorem lenByteTaken_rx (b : Byte) (s : State) : (lenByteTaken b s).rx = s.rx := rfl
@[simp] theorem lenByteTaken_rxEnd (b : Byte) (s : State) : (lenByteTaken b s).rxEnd = s.rxEnd := rfl
@[simp] theorem lenByteTaken_keys (b : Byte) (s : State) : (lenByteTaken b s).keys = s.keys := rfl
@[simp] theorem lenByteTaken_tapped (b : Byte) (s : State) : (lenByteTaken b s).tapped = s.tapped := rfl
@[simp] theorem lenByteTaken_otherLock (b : Byte) (s : State) : (lenByteTaken b s).otherLock = s.otherLock := rfl
@[simp] theorem lenByteTaken_withheld (b : Byte) (s : State) : (lenByteTaken b s).withheld = s.withheld := rfl
@[simp] theorem lenByteTaken_hiWraps (b : Byte) (s : State) : (lenByteTaken b s).hiWraps = s.hiWraps := rfl
@[simp] theorem lenByteTaken_turns (b : Byte) (s : State) : (lenByteTaken b s).turns = s.turns := rfl
@[simp] theorem lenByteTaken_draws (b : Byte) (s : State) : (lenByteTaken b s).draws = s.draws := rfl
@[simp] theorem lenByteTaken_trace (b : Byte) (s : State) : (lenByteTaken b s).trace = s.trace := rfl

@[simp] theorem lenDone_cfg (s : State) : (lenDone s).cfg = s.cfg := rfl
@[simp] theorem lenDone_st (s : State) : (lenDone s).st = s.st := rfl
@[simp] theorem lenDone_rq (s : State) : (lenDone s).rq = s.rq := rfl
@[simp] theorem lenDone_status (s : State) : (lenDone s).status = s.status := rfl
@[simp] theorem lenDone_value (s : State) : (lenDone s).value = s.value := rfl
@[simp] theorem lenDone_aux (s : State) : (lenDone s).aux = s.aux := rfl
@[simp] theorem lenDone_fb (s : State) : (lenDone s).fb = s.fb := rfl
@[simp] theorem lenDone_hi (s : State) : (lenDone s).hi = s.hi := rfl
@[simp] theorem lenDone_lenW (s : State) : (lenDone s).lenW = s.lenW := rfl
@[simp] theorem lenDone_lenIdx (s : State) : (lenDone s).lenIdx = s.lenIdx := rfl
@[simp] theorem lenDone_lenAcc (s : State) : (lenDone s).lenAcc = s.lenAcc := rfl
@[simp] theorem lenDone_n (s : State) : (lenDone s).n = s.lenAcc := rfl
@[simp] theorem lenDone_rem (s : State) : (lenDone s).rem = s.rem := rfl
@[simp] theorem lenDone_dbyte (s : State) : (lenDone s).dbyte = s.dbyte := rfl
@[simp] theorem lenDone_rph (s : State) : (lenDone s).rph = s.rph := rfl
@[simp] theorem lenDone_idx (s : State) : (lenDone s).idx = s.idx := rfl
@[simp] theorem lenDone_acked (s : State) : (lenDone s).acked = s.acked := rfl
@[simp] theorem lenDone_last (s : State) : (lenDone s).last = s.last := rfl
@[simp] theorem lenDone_savedBaud (s : State) : (lenDone s).savedBaud = s.savedBaud := rfl
@[simp] theorem lenDone_baudChg (s : State) : (lenDone s).baudChg = s.baudChg := rfl
@[simp] theorem lenDone_excl (s : State) : (lenDone s).excl = s.excl := rfl
@[simp] theorem lenDone_txlk (s : State) : (lenDone s).txlk = s.txlk := rfl
@[simp] theorem lenDone_fr (s : State) : (lenDone s).fr = s.fr := rfl
@[simp] theorem lenDone_pb (s : State) : (lenDone s).pb = s.pb := rfl
@[simp] theorem lenDone_pbyte (s : State) : (lenDone s).pbyte = s.pbyte := rfl
@[simp] theorem lenDone_requests (s : State) : (lenDone s).requests = s.requests := rfl
@[simp] theorem lenDone_pix (s : State) : (lenDone s).pix = s.pix := rfl
@[simp] theorem lenDone_pay (s : State) : (lenDone s).pay = s.pay := rfl
@[simp] theorem lenDone_pixChanged (s : State) : (lenDone s).pixChanged = s.pixChanged := rfl
@[simp] theorem lenDone_payChanged (s : State) : (lenDone s).payChanged = s.payChanged := rfl
@[simp] theorem lenDone_baud (s : State) : (lenDone s).baud = s.baud := rfl
@[simp] theorem lenDone_rx (s : State) : (lenDone s).rx = s.rx := rfl
@[simp] theorem lenDone_rxEnd (s : State) : (lenDone s).rxEnd = s.rxEnd := rfl
@[simp] theorem lenDone_keys (s : State) : (lenDone s).keys = s.keys := rfl
@[simp] theorem lenDone_tapped (s : State) : (lenDone s).tapped = s.tapped := rfl
@[simp] theorem lenDone_otherLock (s : State) : (lenDone s).otherLock = s.otherLock := rfl
@[simp] theorem lenDone_withheld (s : State) : (lenDone s).withheld = s.withheld := rfl
@[simp] theorem lenDone_hiWraps (s : State) : (lenDone s).hiWraps = s.hiWraps := rfl
@[simp] theorem lenDone_turns (s : State) : (lenDone s).turns = s.turns := rfl
@[simp] theorem lenDone_draws (s : State) : (lenDone s).draws = s.draws := rfl
@[simp] theorem lenDone_trace (s : State) : (lenDone s).trace = s.trace := rfl

@[simp] theorem payloadStarted_cfg (c : Word) (s : State) : (payloadStarted c s).cfg = s.cfg := rfl
@[simp] theorem payloadStarted_st (c : Word) (s : State) : (payloadStarted c s).st = s.st := rfl
@[simp] theorem payloadStarted_rq (c : Word) (s : State) : (payloadStarted c s).rq = s.rq := rfl
@[simp] theorem payloadStarted_status (c : Word) (s : State) : (payloadStarted c s).status = s.status := rfl
@[simp] theorem payloadStarted_value (c : Word) (s : State) : (payloadStarted c s).value = s.value := rfl
@[simp] theorem payloadStarted_aux (c : Word) (s : State) : (payloadStarted c s).aux = s.aux := rfl
@[simp] theorem payloadStarted_fb (c : Word) (s : State) : (payloadStarted c s).fb = s.fb := rfl
@[simp] theorem payloadStarted_hi (c : Word) (s : State) : (payloadStarted c s).hi = s.hi := rfl
@[simp] theorem payloadStarted_lenW (c : Word) (s : State) : (payloadStarted c s).lenW = s.lenW := rfl
@[simp] theorem payloadStarted_lenIdx (c : Word) (s : State) : (payloadStarted c s).lenIdx = s.lenIdx := rfl
@[simp] theorem payloadStarted_lenAcc (c : Word) (s : State) : (payloadStarted c s).lenAcc = s.lenAcc := rfl
@[simp] theorem payloadStarted_n (c : Word) (s : State) : (payloadStarted c s).n = s.n := rfl
@[simp] theorem payloadStarted_rem (c : Word) (s : State) : (payloadStarted c s).rem = c := rfl
@[simp] theorem payloadStarted_dbyte (c : Word) (s : State) : (payloadStarted c s).dbyte = s.dbyte := rfl
@[simp] theorem payloadStarted_rph (c : Word) (s : State) : (payloadStarted c s).rph = 1#2 := rfl
@[simp] theorem payloadStarted_idx (c : Word) (s : State) : (payloadStarted c s).idx = 0#32 := rfl
@[simp] theorem payloadStarted_acked (c : Word) (s : State) : (payloadStarted c s).acked = s.acked := rfl
@[simp] theorem payloadStarted_last (c : Word) (s : State) : (payloadStarted c s).last = s.last := rfl
@[simp] theorem payloadStarted_savedBaud (c : Word) (s : State) : (payloadStarted c s).savedBaud = s.savedBaud := rfl
@[simp] theorem payloadStarted_baudChg (c : Word) (s : State) : (payloadStarted c s).baudChg = s.baudChg := rfl
@[simp] theorem payloadStarted_excl (c : Word) (s : State) : (payloadStarted c s).excl = s.excl := rfl
@[simp] theorem payloadStarted_txlk (c : Word) (s : State) : (payloadStarted c s).txlk = s.txlk := rfl
@[simp] theorem payloadStarted_fr (c : Word) (s : State) : (payloadStarted c s).fr = s.fr := rfl
@[simp] theorem payloadStarted_pb (c : Word) (s : State) : (payloadStarted c s).pb = s.pb := rfl
@[simp] theorem payloadStarted_pbyte (c : Word) (s : State) : (payloadStarted c s).pbyte = s.pbyte := rfl
@[simp] theorem payloadStarted_requests (c : Word) (s : State) : (payloadStarted c s).requests = s.requests := rfl
@[simp] theorem payloadStarted_pix (c : Word) (s : State) : (payloadStarted c s).pix = s.pix := rfl
@[simp] theorem payloadStarted_pay (c : Word) (s : State) : (payloadStarted c s).pay = s.pay := rfl
@[simp] theorem payloadStarted_pixChanged (c : Word) (s : State) : (payloadStarted c s).pixChanged = s.pixChanged := rfl
@[simp] theorem payloadStarted_payChanged (c : Word) (s : State) : (payloadStarted c s).payChanged = s.payChanged := rfl
@[simp] theorem payloadStarted_baud (c : Word) (s : State) : (payloadStarted c s).baud = s.baud := rfl
@[simp] theorem payloadStarted_rx (c : Word) (s : State) : (payloadStarted c s).rx = s.rx := rfl
@[simp] theorem payloadStarted_rxEnd (c : Word) (s : State) : (payloadStarted c s).rxEnd = s.rxEnd := rfl
@[simp] theorem payloadStarted_keys (c : Word) (s : State) : (payloadStarted c s).keys = s.keys := rfl
@[simp] theorem payloadStarted_tapped (c : Word) (s : State) : (payloadStarted c s).tapped = s.tapped := rfl
@[simp] theorem payloadStarted_otherLock (c : Word) (s : State) : (payloadStarted c s).otherLock = s.otherLock := rfl
@[simp] theorem payloadStarted_withheld (c : Word) (s : State) : (payloadStarted c s).withheld = s.withheld := rfl
@[simp] theorem payloadStarted_hiWraps (c : Word) (s : State) : (payloadStarted c s).hiWraps = s.hiWraps := rfl
@[simp] theorem payloadStarted_turns (c : Word) (s : State) : (payloadStarted c s).turns = s.turns := rfl
@[simp] theorem payloadStarted_draws (c : Word) (s : State) : (payloadStarted c s).draws = s.draws := rfl
@[simp] theorem payloadStarted_trace (c : Word) (s : State) : (payloadStarted c s).trace = s.trace := rfl

@[simp] theorem dataTaken_cfg (b : Byte) (s : State) : (dataTaken b s).cfg = s.cfg := rfl
@[simp] theorem dataTaken_st (b : Byte) (s : State) : (dataTaken b s).st = s.st := rfl
@[simp] theorem dataTaken_rq (b : Byte) (s : State) : (dataTaken b s).rq = s.rq := rfl
@[simp] theorem dataTaken_status (b : Byte) (s : State) : (dataTaken b s).status = s.status := rfl
@[simp] theorem dataTaken_value (b : Byte) (s : State) : (dataTaken b s).value = s.value := rfl
@[simp] theorem dataTaken_aux (b : Byte) (s : State) : (dataTaken b s).aux = s.aux := rfl
@[simp] theorem dataTaken_fb (b : Byte) (s : State) : (dataTaken b s).fb = s.fb := rfl
@[simp] theorem dataTaken_hi (b : Byte) (s : State) : (dataTaken b s).hi = s.hi := rfl
@[simp] theorem dataTaken_lenW (b : Byte) (s : State) : (dataTaken b s).lenW = s.lenW := rfl
@[simp] theorem dataTaken_lenIdx (b : Byte) (s : State) : (dataTaken b s).lenIdx = s.lenIdx := rfl
@[simp] theorem dataTaken_lenAcc (b : Byte) (s : State) : (dataTaken b s).lenAcc = s.lenAcc := rfl
@[simp] theorem dataTaken_n (b : Byte) (s : State) : (dataTaken b s).n = s.n := rfl
@[simp] theorem dataTaken_rem (b : Byte) (s : State) : (dataTaken b s).rem = s.rem := rfl
@[simp] theorem dataTaken_dbyte (b : Byte) (s : State) : (dataTaken b s).dbyte = b := rfl
@[simp] theorem dataTaken_rph (b : Byte) (s : State) : (dataTaken b s).rph = s.rph := rfl
@[simp] theorem dataTaken_idx (b : Byte) (s : State) : (dataTaken b s).idx = s.idx := rfl
@[simp] theorem dataTaken_acked (b : Byte) (s : State) : (dataTaken b s).acked = s.acked := rfl
@[simp] theorem dataTaken_last (b : Byte) (s : State) : (dataTaken b s).last = s.last := rfl
@[simp] theorem dataTaken_savedBaud (b : Byte) (s : State) : (dataTaken b s).savedBaud = s.savedBaud := rfl
@[simp] theorem dataTaken_baudChg (b : Byte) (s : State) : (dataTaken b s).baudChg = s.baudChg := rfl
@[simp] theorem dataTaken_excl (b : Byte) (s : State) : (dataTaken b s).excl = s.excl := rfl
@[simp] theorem dataTaken_txlk (b : Byte) (s : State) : (dataTaken b s).txlk = s.txlk := rfl
@[simp] theorem dataTaken_fr (b : Byte) (s : State) : (dataTaken b s).fr = s.fr := rfl
@[simp] theorem dataTaken_pb (b : Byte) (s : State) : (dataTaken b s).pb = s.pb := rfl
@[simp] theorem dataTaken_pbyte (b : Byte) (s : State) : (dataTaken b s).pbyte = s.pbyte := rfl
@[simp] theorem dataTaken_requests (b : Byte) (s : State) : (dataTaken b s).requests = s.requests := rfl
@[simp] theorem dataTaken_pix (b : Byte) (s : State) : (dataTaken b s).pix = s.pix := rfl
@[simp] theorem dataTaken_pay (b : Byte) (s : State) : (dataTaken b s).pay = s.pay := rfl
@[simp] theorem dataTaken_pixChanged (b : Byte) (s : State) : (dataTaken b s).pixChanged = s.pixChanged := rfl
@[simp] theorem dataTaken_payChanged (b : Byte) (s : State) : (dataTaken b s).payChanged = s.payChanged := rfl
@[simp] theorem dataTaken_baud (b : Byte) (s : State) : (dataTaken b s).baud = s.baud := rfl
@[simp] theorem dataTaken_rx (b : Byte) (s : State) : (dataTaken b s).rx = s.rx := rfl
@[simp] theorem dataTaken_rxEnd (b : Byte) (s : State) : (dataTaken b s).rxEnd = s.rxEnd := rfl
@[simp] theorem dataTaken_keys (b : Byte) (s : State) : (dataTaken b s).keys = s.keys := rfl
@[simp] theorem dataTaken_tapped (b : Byte) (s : State) : (dataTaken b s).tapped = s.tapped := rfl
@[simp] theorem dataTaken_otherLock (b : Byte) (s : State) : (dataTaken b s).otherLock = s.otherLock := rfl
@[simp] theorem dataTaken_withheld (b : Byte) (s : State) : (dataTaken b s).withheld = s.withheld := rfl
@[simp] theorem dataTaken_hiWraps (b : Byte) (s : State) : (dataTaken b s).hiWraps = s.hiWraps := rfl
@[simp] theorem dataTaken_turns (b : Byte) (s : State) : (dataTaken b s).turns = s.turns := rfl
@[simp] theorem dataTaken_draws (b : Byte) (s : State) : (dataTaken b s).draws = s.draws := rfl
@[simp] theorem dataTaken_trace (b : Byte) (s : State) : (dataTaken b s).trace = s.trace := rfl

@[simp] theorem dataHanded_cfg (s : State) : (dataHanded s).cfg = s.cfg := rfl
@[simp] theorem dataHanded_st (s : State) : (dataHanded s).st = s.st := rfl
@[simp] theorem dataHanded_rq (s : State) : (dataHanded s).rq = s.rq := rfl
@[simp] theorem dataHanded_status (s : State) : (dataHanded s).status = s.status := rfl
@[simp] theorem dataHanded_value (s : State) : (dataHanded s).value = s.value := rfl
@[simp] theorem dataHanded_aux (s : State) : (dataHanded s).aux = s.aux := rfl
@[simp] theorem dataHanded_fb (s : State) : (dataHanded s).fb = s.fb := rfl
@[simp] theorem dataHanded_hi (s : State) : (dataHanded s).hi = s.hi := rfl
@[simp] theorem dataHanded_lenW (s : State) : (dataHanded s).lenW = s.lenW := rfl
@[simp] theorem dataHanded_lenIdx (s : State) : (dataHanded s).lenIdx = s.lenIdx := rfl
@[simp] theorem dataHanded_lenAcc (s : State) : (dataHanded s).lenAcc = s.lenAcc := rfl
@[simp] theorem dataHanded_n (s : State) : (dataHanded s).n = s.n := rfl
@[simp] theorem dataHanded_rem (s : State) : (dataHanded s).rem = s.rem - 1#32 := rfl
@[simp] theorem dataHanded_dbyte (s : State) : (dataHanded s).dbyte = s.dbyte := rfl
@[simp] theorem dataHanded_rph (s : State) : (dataHanded s).rph = s.rph := rfl
@[simp] theorem dataHanded_idx (s : State) : (dataHanded s).idx = s.idx + 1#32 := rfl
@[simp] theorem dataHanded_acked (s : State) : (dataHanded s).acked = s.acked := rfl
@[simp] theorem dataHanded_last (s : State) : (dataHanded s).last = s.last := rfl
@[simp] theorem dataHanded_savedBaud (s : State) : (dataHanded s).savedBaud = s.savedBaud := rfl
@[simp] theorem dataHanded_baudChg (s : State) : (dataHanded s).baudChg = s.baudChg := rfl
@[simp] theorem dataHanded_excl (s : State) : (dataHanded s).excl = s.excl := rfl
@[simp] theorem dataHanded_txlk (s : State) : (dataHanded s).txlk = s.txlk := rfl
@[simp] theorem dataHanded_fr (s : State) : (dataHanded s).fr = s.fr := rfl
@[simp] theorem dataHanded_pb (s : State) : (dataHanded s).pb = s.pb := rfl
@[simp] theorem dataHanded_pbyte (s : State) : (dataHanded s).pbyte = s.pbyte := rfl
@[simp] theorem dataHanded_requests (s : State) : (dataHanded s).requests = s.requests := rfl
@[simp] theorem dataHanded_pix (s : State) : (dataHanded s).pix = s.pix := rfl
@[simp] theorem dataHanded_pay (s : State) : (dataHanded s).pay = s.pay := rfl
@[simp] theorem dataHanded_pixChanged (s : State) : (dataHanded s).pixChanged = s.pixChanged := rfl
@[simp] theorem dataHanded_payChanged (s : State) : (dataHanded s).payChanged = s.payChanged := rfl
@[simp] theorem dataHanded_baud (s : State) : (dataHanded s).baud = s.baud := rfl
@[simp] theorem dataHanded_rx (s : State) : (dataHanded s).rx = s.rx := rfl
@[simp] theorem dataHanded_rxEnd (s : State) : (dataHanded s).rxEnd = s.rxEnd := rfl
@[simp] theorem dataHanded_keys (s : State) : (dataHanded s).keys = s.keys := rfl
@[simp] theorem dataHanded_tapped (s : State) : (dataHanded s).tapped = s.tapped := rfl
@[simp] theorem dataHanded_otherLock (s : State) : (dataHanded s).otherLock = s.otherLock := rfl
@[simp] theorem dataHanded_withheld (s : State) : (dataHanded s).withheld = s.withheld := rfl
@[simp] theorem dataHanded_hiWraps (s : State) : (dataHanded s).hiWraps = s.hiWraps := rfl
@[simp] theorem dataHanded_turns (s : State) : (dataHanded s).turns = s.turns := rfl
@[simp] theorem dataHanded_draws (s : State) : (dataHanded s).draws = s.draws := rfl
@[simp] theorem dataHanded_trace (s : State) : (dataHanded s).trace = s.trace ++ [.data s.dbyte] := rfl

@[simp] theorem payloadByteSent_cfg (b : Byte) (s : State) : (payloadByteSent b s).cfg = s.cfg := rfl
@[simp] theorem payloadByteSent_st (b : Byte) (s : State) : (payloadByteSent b s).st = s.st := rfl
@[simp] theorem payloadByteSent_rq (b : Byte) (s : State) : (payloadByteSent b s).rq = s.rq := rfl
@[simp] theorem payloadByteSent_status (b : Byte) (s : State) : (payloadByteSent b s).status = s.status := rfl
@[simp] theorem payloadByteSent_value (b : Byte) (s : State) : (payloadByteSent b s).value = s.value := rfl
@[simp] theorem payloadByteSent_aux (b : Byte) (s : State) : (payloadByteSent b s).aux = s.aux := rfl
@[simp] theorem payloadByteSent_fb (b : Byte) (s : State) : (payloadByteSent b s).fb = s.fb := rfl
@[simp] theorem payloadByteSent_hi (b : Byte) (s : State) : (payloadByteSent b s).hi = s.hi := rfl
@[simp] theorem payloadByteSent_lenW (b : Byte) (s : State) : (payloadByteSent b s).lenW = s.lenW := rfl
@[simp] theorem payloadByteSent_lenIdx (b : Byte) (s : State) : (payloadByteSent b s).lenIdx = s.lenIdx := rfl
@[simp] theorem payloadByteSent_lenAcc (b : Byte) (s : State) : (payloadByteSent b s).lenAcc = s.lenAcc := rfl
@[simp] theorem payloadByteSent_n (b : Byte) (s : State) : (payloadByteSent b s).n = s.n := rfl
@[simp] theorem payloadByteSent_rem (b : Byte) (s : State) : (payloadByteSent b s).rem = s.rem := rfl
@[simp] theorem payloadByteSent_dbyte (b : Byte) (s : State) : (payloadByteSent b s).dbyte = s.dbyte := rfl
@[simp] theorem payloadByteSent_rph (b : Byte) (s : State) : (payloadByteSent b s).rph = 3#2 := rfl
@[simp] theorem payloadByteSent_idx (b : Byte) (s : State) : (payloadByteSent b s).idx = s.idx + 1#32 := rfl
@[simp] theorem payloadByteSent_acked (b : Byte) (s : State) : (payloadByteSent b s).acked = s.acked := rfl
@[simp] theorem payloadByteSent_last (b : Byte) (s : State) : (payloadByteSent b s).last = b := rfl
@[simp] theorem payloadByteSent_savedBaud (b : Byte) (s : State) : (payloadByteSent b s).savedBaud = s.savedBaud := rfl
@[simp] theorem payloadByteSent_baudChg (b : Byte) (s : State) : (payloadByteSent b s).baudChg = s.baudChg := rfl
@[simp] theorem payloadByteSent_excl (b : Byte) (s : State) : (payloadByteSent b s).excl = s.excl := rfl
@[simp] theorem payloadByteSent_txlk (b : Byte) (s : State) : (payloadByteSent b s).txlk = s.txlk := rfl
@[simp] theorem payloadByteSent_fr (b : Byte) (s : State) : (payloadByteSent b s).fr = s.fr := rfl
@[simp] theorem payloadByteSent_pb (b : Byte) (s : State) : (payloadByteSent b s).pb = s.pb := rfl
@[simp] theorem payloadByteSent_pbyte (b : Byte) (s : State) : (payloadByteSent b s).pbyte = s.pbyte := rfl
@[simp] theorem payloadByteSent_requests (b : Byte) (s : State) : (payloadByteSent b s).requests = s.requests := rfl
@[simp] theorem payloadByteSent_pix (b : Byte) (s : State) : (payloadByteSent b s).pix = s.pix := rfl
@[simp] theorem payloadByteSent_pay (b : Byte) (s : State) : (payloadByteSent b s).pay = s.pay := rfl
@[simp] theorem payloadByteSent_pixChanged (b : Byte) (s : State) : (payloadByteSent b s).pixChanged = s.pixChanged := rfl
@[simp] theorem payloadByteSent_payChanged (b : Byte) (s : State) : (payloadByteSent b s).payChanged = s.payChanged := rfl
@[simp] theorem payloadByteSent_baud (b : Byte) (s : State) : (payloadByteSent b s).baud = s.baud := rfl
@[simp] theorem payloadByteSent_rx (b : Byte) (s : State) : (payloadByteSent b s).rx = s.rx := rfl
@[simp] theorem payloadByteSent_rxEnd (b : Byte) (s : State) : (payloadByteSent b s).rxEnd = s.rxEnd := rfl
@[simp] theorem payloadByteSent_keys (b : Byte) (s : State) : (payloadByteSent b s).keys = s.keys := rfl
@[simp] theorem payloadByteSent_tapped (b : Byte) (s : State) : (payloadByteSent b s).tapped = s.tapped := rfl
@[simp] theorem payloadByteSent_otherLock (b : Byte) (s : State) : (payloadByteSent b s).otherLock = s.otherLock := rfl
@[simp] theorem payloadByteSent_withheld (b : Byte) (s : State) : (payloadByteSent b s).withheld = s.withheld := rfl
@[simp] theorem payloadByteSent_hiWraps (b : Byte) (s : State) : (payloadByteSent b s).hiWraps = s.hiWraps := rfl
@[simp] theorem payloadByteSent_turns (b : Byte) (s : State) : (payloadByteSent b s).turns = s.turns := rfl
@[simp] theorem payloadByteSent_draws (b : Byte) (s : State) : (payloadByteSent b s).draws = s.draws := rfl
@[simp] theorem payloadByteSent_trace (b : Byte) (s : State) : (payloadByteSent b s).trace = s.trace ++ [.tx b] := rfl

@[simp] theorem confirmSent_cfg (s : State) : (confirmSent s).cfg = s.cfg := rfl
@[simp] theorem confirmSent_st (s : State) : (confirmSent s).st = s.st := rfl
@[simp] theorem confirmSent_rq (s : State) : (confirmSent s).rq = s.rq := rfl
@[simp] theorem confirmSent_status (s : State) : (confirmSent s).status = s.status := rfl
@[simp] theorem confirmSent_value (s : State) : (confirmSent s).value = s.value := rfl
@[simp] theorem confirmSent_aux (s : State) : (confirmSent s).aux = s.aux := rfl
@[simp] theorem confirmSent_fb (s : State) : (confirmSent s).fb = s.fb := rfl
@[simp] theorem confirmSent_hi (s : State) : (confirmSent s).hi = s.hi := rfl
@[simp] theorem confirmSent_lenW (s : State) : (confirmSent s).lenW = s.lenW := rfl
@[simp] theorem confirmSent_lenIdx (s : State) : (confirmSent s).lenIdx = s.lenIdx := rfl
@[simp] theorem confirmSent_lenAcc (s : State) : (confirmSent s).lenAcc = s.lenAcc := rfl
@[simp] theorem confirmSent_n (s : State) : (confirmSent s).n = s.n := rfl
@[simp] theorem confirmSent_rem (s : State) : (confirmSent s).rem = s.rem := rfl
@[simp] theorem confirmSent_dbyte (s : State) : (confirmSent s).dbyte = s.dbyte := rfl
@[simp] theorem confirmSent_rph (s : State) : (confirmSent s).rph = s.rph := rfl
@[simp] theorem confirmSent_idx (s : State) : (confirmSent s).idx = s.idx := rfl
@[simp] theorem confirmSent_acked (s : State) : (confirmSent s).acked = s.acked + 1#32 := rfl
@[simp] theorem confirmSent_last (s : State) : (confirmSent s).last = s.last := rfl
@[simp] theorem confirmSent_savedBaud (s : State) : (confirmSent s).savedBaud = s.savedBaud := rfl
@[simp] theorem confirmSent_baudChg (s : State) : (confirmSent s).baudChg = s.baudChg := rfl
@[simp] theorem confirmSent_excl (s : State) : (confirmSent s).excl = s.excl := rfl
@[simp] theorem confirmSent_txlk (s : State) : (confirmSent s).txlk = s.txlk := rfl
@[simp] theorem confirmSent_fr (s : State) : (confirmSent s).fr = s.fr := rfl
@[simp] theorem confirmSent_pb (s : State) : (confirmSent s).pb = s.pb := rfl
@[simp] theorem confirmSent_pbyte (s : State) : (confirmSent s).pbyte = s.pbyte := rfl
@[simp] theorem confirmSent_requests (s : State) : (confirmSent s).requests = s.requests := rfl
@[simp] theorem confirmSent_pix (s : State) : (confirmSent s).pix = s.pix := rfl
@[simp] theorem confirmSent_pay (s : State) : (confirmSent s).pay = s.pay := rfl
@[simp] theorem confirmSent_pixChanged (s : State) : (confirmSent s).pixChanged = s.pixChanged := rfl
@[simp] theorem confirmSent_payChanged (s : State) : (confirmSent s).payChanged = s.payChanged := rfl
@[simp] theorem confirmSent_baud (s : State) : (confirmSent s).baud = s.baud := rfl
@[simp] theorem confirmSent_rx (s : State) : (confirmSent s).rx = s.rx := rfl
@[simp] theorem confirmSent_rxEnd (s : State) : (confirmSent s).rxEnd = s.rxEnd := rfl
@[simp] theorem confirmSent_keys (s : State) : (confirmSent s).keys = s.keys := rfl
@[simp] theorem confirmSent_tapped (s : State) : (confirmSent s).tapped = s.tapped := rfl
@[simp] theorem confirmSent_otherLock (s : State) : (confirmSent s).otherLock = s.otherLock := rfl
@[simp] theorem confirmSent_withheld (s : State) : (confirmSent s).withheld = s.withheld := rfl
@[simp] theorem confirmSent_hiWraps (s : State) : (confirmSent s).hiWraps = s.hiWraps := rfl
@[simp] theorem confirmSent_turns (s : State) : (confirmSent s).turns = s.turns := rfl
@[simp] theorem confirmSent_draws (s : State) : (confirmSent s).draws = s.draws := rfl
@[simp] theorem confirmSent_trace (s : State) : (confirmSent s).trace = s.trace ++ [.tx Config.confirm] := rfl

@[simp] theorem frameIndex_cfg (f : Half) (s : State) : (frameIndex f s).cfg = s.cfg := rfl
@[simp] theorem frameIndex_st (f : Half) (s : State) : (frameIndex f s).st = s.st := rfl
@[simp] theorem frameIndex_rq (f : Half) (s : State) : (frameIndex f s).rq = s.rq := rfl
@[simp] theorem frameIndex_status (f : Half) (s : State) : (frameIndex f s).status = s.status := rfl
@[simp] theorem frameIndex_value (f : Half) (s : State) : (frameIndex f s).value = s.value := rfl
@[simp] theorem frameIndex_aux (f : Half) (s : State) : (frameIndex f s).aux = s.aux := rfl
@[simp] theorem frameIndex_fb (f : Half) (s : State) : (frameIndex f s).fb = s.fb := rfl
@[simp] theorem frameIndex_hi (f : Half) (s : State) : (frameIndex f s).hi = s.hi := rfl
@[simp] theorem frameIndex_lenW (f : Half) (s : State) : (frameIndex f s).lenW = s.lenW := rfl
@[simp] theorem frameIndex_lenIdx (f : Half) (s : State) : (frameIndex f s).lenIdx = s.lenIdx := rfl
@[simp] theorem frameIndex_lenAcc (f : Half) (s : State) : (frameIndex f s).lenAcc = s.lenAcc := rfl
@[simp] theorem frameIndex_n (f : Half) (s : State) : (frameIndex f s).n = s.n := rfl
@[simp] theorem frameIndex_rem (f : Half) (s : State) : (frameIndex f s).rem = s.rem := rfl
@[simp] theorem frameIndex_dbyte (f : Half) (s : State) : (frameIndex f s).dbyte = s.dbyte := rfl
@[simp] theorem frameIndex_rph (f : Half) (s : State) : (frameIndex f s).rph = s.rph := rfl
@[simp] theorem frameIndex_idx (f : Half) (s : State) : (frameIndex f s).idx = s.idx := rfl
@[simp] theorem frameIndex_acked (f : Half) (s : State) : (frameIndex f s).acked = s.acked := rfl
@[simp] theorem frameIndex_last (f : Half) (s : State) : (frameIndex f s).last = s.last := rfl
@[simp] theorem frameIndex_savedBaud (f : Half) (s : State) : (frameIndex f s).savedBaud = s.savedBaud := rfl
@[simp] theorem frameIndex_baudChg (f : Half) (s : State) : (frameIndex f s).baudChg = s.baudChg := rfl
@[simp] theorem frameIndex_excl (f : Half) (s : State) : (frameIndex f s).excl = s.excl := rfl
@[simp] theorem frameIndex_txlk (f : Half) (s : State) : (frameIndex f s).txlk = s.txlk := rfl
@[simp] theorem frameIndex_fr (f : Half) (s : State) : (frameIndex f s).fr = f := rfl
@[simp] theorem frameIndex_pb (f : Half) (s : State) : (frameIndex f s).pb = s.pb := rfl
@[simp] theorem frameIndex_pbyte (f : Half) (s : State) : (frameIndex f s).pbyte = s.pbyte := rfl
@[simp] theorem frameIndex_requests (f : Half) (s : State) : (frameIndex f s).requests = s.requests := rfl
@[simp] theorem frameIndex_pix (f : Half) (s : State) : (frameIndex f s).pix = s.pix := rfl
@[simp] theorem frameIndex_pay (f : Half) (s : State) : (frameIndex f s).pay = s.pay := rfl
@[simp] theorem frameIndex_pixChanged (f : Half) (s : State) : (frameIndex f s).pixChanged = s.pixChanged := rfl
@[simp] theorem frameIndex_payChanged (f : Half) (s : State) : (frameIndex f s).payChanged = s.payChanged := rfl
@[simp] theorem frameIndex_baud (f : Half) (s : State) : (frameIndex f s).baud = s.baud := rfl
@[simp] theorem frameIndex_rx (f : Half) (s : State) : (frameIndex f s).rx = s.rx := rfl
@[simp] theorem frameIndex_rxEnd (f : Half) (s : State) : (frameIndex f s).rxEnd = s.rxEnd := rfl
@[simp] theorem frameIndex_keys (f : Half) (s : State) : (frameIndex f s).keys = s.keys := rfl
@[simp] theorem frameIndex_tapped (f : Half) (s : State) : (frameIndex f s).tapped = s.tapped := rfl
@[simp] theorem frameIndex_otherLock (f : Half) (s : State) : (frameIndex f s).otherLock = s.otherLock := rfl
@[simp] theorem frameIndex_withheld (f : Half) (s : State) : (frameIndex f s).withheld = s.withheld := rfl
@[simp] theorem frameIndex_hiWraps (f : Half) (s : State) : (frameIndex f s).hiWraps = s.hiWraps := rfl
@[simp] theorem frameIndex_turns (f : Half) (s : State) : (frameIndex f s).turns = s.turns := rfl
@[simp] theorem frameIndex_draws (f : Half) (s : State) : (frameIndex f s).draws = s.draws := rfl
@[simp] theorem frameIndex_trace (f : Half) (s : State) : (frameIndex f s).trace = s.trace := rfl

@[simp] theorem packStarted_cfg (s : State) : (packStarted s).cfg = s.cfg := rfl
@[simp] theorem packStarted_st (s : State) : (packStarted s).st = s.st := rfl
@[simp] theorem packStarted_rq (s : State) : (packStarted s).rq = s.rq := rfl
@[simp] theorem packStarted_status (s : State) : (packStarted s).status = s.status := rfl
@[simp] theorem packStarted_value (s : State) : (packStarted s).value = s.value := rfl
@[simp] theorem packStarted_aux (s : State) : (packStarted s).aux = s.aux := rfl
@[simp] theorem packStarted_fb (s : State) : (packStarted s).fb = s.fb := rfl
@[simp] theorem packStarted_hi (s : State) : (packStarted s).hi = s.hi := rfl
@[simp] theorem packStarted_lenW (s : State) : (packStarted s).lenW = s.lenW := rfl
@[simp] theorem packStarted_lenIdx (s : State) : (packStarted s).lenIdx = s.lenIdx := rfl
@[simp] theorem packStarted_lenAcc (s : State) : (packStarted s).lenAcc = s.lenAcc := rfl
@[simp] theorem packStarted_n (s : State) : (packStarted s).n = s.n := rfl
@[simp] theorem packStarted_rem (s : State) : (packStarted s).rem = s.rem := rfl
@[simp] theorem packStarted_dbyte (s : State) : (packStarted s).dbyte = s.dbyte := rfl
@[simp] theorem packStarted_rph (s : State) : (packStarted s).rph = s.rph := rfl
@[simp] theorem packStarted_idx (s : State) : (packStarted s).idx = s.idx := rfl
@[simp] theorem packStarted_acked (s : State) : (packStarted s).acked = s.acked := rfl
@[simp] theorem packStarted_last (s : State) : (packStarted s).last = s.last := rfl
@[simp] theorem packStarted_savedBaud (s : State) : (packStarted s).savedBaud = s.savedBaud := rfl
@[simp] theorem packStarted_baudChg (s : State) : (packStarted s).baudChg = s.baudChg := rfl
@[simp] theorem packStarted_excl (s : State) : (packStarted s).excl = s.excl := rfl
@[simp] theorem packStarted_txlk (s : State) : (packStarted s).txlk = s.txlk := rfl
@[simp] theorem packStarted_fr (s : State) : (packStarted s).fr = s.fr := rfl
@[simp] theorem packStarted_pb (s : State) : (packStarted s).pb = 0#32 := rfl
@[simp] theorem packStarted_pbyte (s : State) : (packStarted s).pbyte = s.pbyte := rfl
@[simp] theorem packStarted_requests (s : State) : (packStarted s).requests = s.requests := rfl
@[simp] theorem packStarted_pix (s : State) : (packStarted s).pix = s.pix := rfl
@[simp] theorem packStarted_pay (s : State) : (packStarted s).pay = s.pay := rfl
@[simp] theorem packStarted_pixChanged (s : State) : (packStarted s).pixChanged = s.pixChanged := rfl
@[simp] theorem packStarted_payChanged (s : State) : (packStarted s).payChanged = s.payChanged := rfl
@[simp] theorem packStarted_baud (s : State) : (packStarted s).baud = s.baud := rfl
@[simp] theorem packStarted_rx (s : State) : (packStarted s).rx = s.rx := rfl
@[simp] theorem packStarted_rxEnd (s : State) : (packStarted s).rxEnd = s.rxEnd := rfl
@[simp] theorem packStarted_keys (s : State) : (packStarted s).keys = s.keys := rfl
@[simp] theorem packStarted_tapped (s : State) : (packStarted s).tapped = s.tapped := rfl
@[simp] theorem packStarted_otherLock (s : State) : (packStarted s).otherLock = s.otherLock := rfl
@[simp] theorem packStarted_withheld (s : State) : (packStarted s).withheld = s.withheld := rfl
@[simp] theorem packStarted_hiWraps (s : State) : (packStarted s).hiWraps = s.hiWraps := rfl
@[simp] theorem packStarted_turns (s : State) : (packStarted s).turns = s.turns := rfl
@[simp] theorem packStarted_draws (s : State) : (packStarted s).draws = s.draws := rfl
@[simp] theorem packStarted_trace (s : State) : (packStarted s).trace = s.trace := rfl

@[simp] theorem packedByteSent_cfg (b : Byte) (s : State) : (packedByteSent b s).cfg = s.cfg := rfl
@[simp] theorem packedByteSent_st (b : Byte) (s : State) : (packedByteSent b s).st = s.st := rfl
@[simp] theorem packedByteSent_rq (b : Byte) (s : State) : (packedByteSent b s).rq = s.rq := rfl
@[simp] theorem packedByteSent_status (b : Byte) (s : State) : (packedByteSent b s).status = s.status := rfl
@[simp] theorem packedByteSent_value (b : Byte) (s : State) : (packedByteSent b s).value = s.value := rfl
@[simp] theorem packedByteSent_aux (b : Byte) (s : State) : (packedByteSent b s).aux = s.aux := rfl
@[simp] theorem packedByteSent_fb (b : Byte) (s : State) : (packedByteSent b s).fb = s.fb := rfl
@[simp] theorem packedByteSent_hi (b : Byte) (s : State) : (packedByteSent b s).hi = s.hi := rfl
@[simp] theorem packedByteSent_lenW (b : Byte) (s : State) : (packedByteSent b s).lenW = s.lenW := rfl
@[simp] theorem packedByteSent_lenIdx (b : Byte) (s : State) : (packedByteSent b s).lenIdx = s.lenIdx := rfl
@[simp] theorem packedByteSent_lenAcc (b : Byte) (s : State) : (packedByteSent b s).lenAcc = s.lenAcc := rfl
@[simp] theorem packedByteSent_n (b : Byte) (s : State) : (packedByteSent b s).n = s.n := rfl
@[simp] theorem packedByteSent_rem (b : Byte) (s : State) : (packedByteSent b s).rem = s.rem := rfl
@[simp] theorem packedByteSent_dbyte (b : Byte) (s : State) : (packedByteSent b s).dbyte = s.dbyte := rfl
@[simp] theorem packedByteSent_rph (b : Byte) (s : State) : (packedByteSent b s).rph = s.rph := rfl
@[simp] theorem packedByteSent_idx (b : Byte) (s : State) : (packedByteSent b s).idx = s.idx := rfl
@[simp] theorem packedByteSent_acked (b : Byte) (s : State) : (packedByteSent b s).acked = s.acked := rfl
@[simp] theorem packedByteSent_last (b : Byte) (s : State) : (packedByteSent b s).last = s.last := rfl
@[simp] theorem packedByteSent_savedBaud (b : Byte) (s : State) : (packedByteSent b s).savedBaud = s.savedBaud := rfl
@[simp] theorem packedByteSent_baudChg (b : Byte) (s : State) : (packedByteSent b s).baudChg = s.baudChg := rfl
@[simp] theorem packedByteSent_excl (b : Byte) (s : State) : (packedByteSent b s).excl = s.excl := rfl
@[simp] theorem packedByteSent_txlk (b : Byte) (s : State) : (packedByteSent b s).txlk = s.txlk := rfl
@[simp] theorem packedByteSent_fr (b : Byte) (s : State) : (packedByteSent b s).fr = s.fr := rfl
@[simp] theorem packedByteSent_pb (b : Byte) (s : State) : (packedByteSent b s).pb = s.pb + 1#32 := rfl
@[simp] theorem packedByteSent_pbyte (b : Byte) (s : State) : (packedByteSent b s).pbyte = b := rfl
@[simp] theorem packedByteSent_requests (b : Byte) (s : State) : (packedByteSent b s).requests = s.requests := rfl
@[simp] theorem packedByteSent_pix (b : Byte) (s : State) : (packedByteSent b s).pix = s.pix := rfl
@[simp] theorem packedByteSent_pay (b : Byte) (s : State) : (packedByteSent b s).pay = s.pay := rfl
@[simp] theorem packedByteSent_pixChanged (b : Byte) (s : State) : (packedByteSent b s).pixChanged = s.pixChanged := rfl
@[simp] theorem packedByteSent_payChanged (b : Byte) (s : State) : (packedByteSent b s).payChanged = s.payChanged := rfl
@[simp] theorem packedByteSent_baud (b : Byte) (s : State) : (packedByteSent b s).baud = s.baud := rfl
@[simp] theorem packedByteSent_rx (b : Byte) (s : State) : (packedByteSent b s).rx = s.rx := rfl
@[simp] theorem packedByteSent_rxEnd (b : Byte) (s : State) : (packedByteSent b s).rxEnd = s.rxEnd := rfl
@[simp] theorem packedByteSent_keys (b : Byte) (s : State) : (packedByteSent b s).keys = s.keys := rfl
@[simp] theorem packedByteSent_tapped (b : Byte) (s : State) : (packedByteSent b s).tapped = s.tapped := rfl
@[simp] theorem packedByteSent_otherLock (b : Byte) (s : State) : (packedByteSent b s).otherLock = s.otherLock := rfl
@[simp] theorem packedByteSent_withheld (b : Byte) (s : State) : (packedByteSent b s).withheld = s.withheld := rfl
@[simp] theorem packedByteSent_hiWraps (b : Byte) (s : State) : (packedByteSent b s).hiWraps = s.hiWraps := rfl
@[simp] theorem packedByteSent_turns (b : Byte) (s : State) : (packedByteSent b s).turns = s.turns := rfl
@[simp] theorem packedByteSent_draws (b : Byte) (s : State) : (packedByteSent b s).draws = s.draws := rfl
@[simp] theorem packedByteSent_trace (b : Byte) (s : State) : (packedByteSent b s).trace = s.trace ++ [.tx b] := rfl

@[simp] theorem conclude_cfg (x : Status) (v a : Word) (s : State) : (conclude x v a s).cfg = s.cfg := rfl
@[simp] theorem conclude_st (x : Status) (v a : Word) (s : State) : (conclude x v a s).st = epilogueEntry s := rfl
@[simp] theorem conclude_rq (x : Status) (v a : Word) (s : State) : (conclude x v a s).rq = s.rq := rfl
@[simp] theorem conclude_status (x : Status) (v a : Word) (s : State) : (conclude x v a s).status = statusCode x := rfl
@[simp] theorem conclude_value (x : Status) (v a : Word) (s : State) : (conclude x v a s).value = v := rfl
@[simp] theorem conclude_aux (x : Status) (v a : Word) (s : State) : (conclude x v a s).aux = a := rfl
@[simp] theorem conclude_fb (x : Status) (v a : Word) (s : State) : (conclude x v a s).fb = s.fb := rfl
@[simp] theorem conclude_hi (x : Status) (v a : Word) (s : State) : (conclude x v a s).hi = s.hi := rfl
@[simp] theorem conclude_lenW (x : Status) (v a : Word) (s : State) : (conclude x v a s).lenW = s.lenW := rfl
@[simp] theorem conclude_lenIdx (x : Status) (v a : Word) (s : State) : (conclude x v a s).lenIdx = s.lenIdx := rfl
@[simp] theorem conclude_lenAcc (x : Status) (v a : Word) (s : State) : (conclude x v a s).lenAcc = s.lenAcc := rfl
@[simp] theorem conclude_n (x : Status) (v a : Word) (s : State) : (conclude x v a s).n = s.n := rfl
@[simp] theorem conclude_rem (x : Status) (v a : Word) (s : State) : (conclude x v a s).rem = s.rem := rfl
@[simp] theorem conclude_dbyte (x : Status) (v a : Word) (s : State) : (conclude x v a s).dbyte = s.dbyte := rfl
@[simp] theorem conclude_rph (x : Status) (v a : Word) (s : State) : (conclude x v a s).rph = s.rph := rfl
@[simp] theorem conclude_idx (x : Status) (v a : Word) (s : State) : (conclude x v a s).idx = s.idx := rfl
@[simp] theorem conclude_acked (x : Status) (v a : Word) (s : State) : (conclude x v a s).acked = s.acked := rfl
@[simp] theorem conclude_last (x : Status) (v a : Word) (s : State) : (conclude x v a s).last = s.last := rfl
@[simp] theorem conclude_savedBaud (x : Status) (v a : Word) (s : State) : (conclude x v a s).savedBaud = s.savedBaud := rfl
@[simp] theorem conclude_baudChg (x : Status) (v a : Word) (s : State) : (conclude x v a s).baudChg = s.baudChg := rfl
@[simp] theorem conclude_excl (x : Status) (v a : Word) (s : State) : (conclude x v a s).excl = s.excl := rfl
@[simp] theorem conclude_txlk (x : Status) (v a : Word) (s : State) : (conclude x v a s).txlk = s.txlk := rfl
@[simp] theorem conclude_fr (x : Status) (v a : Word) (s : State) : (conclude x v a s).fr = s.fr := rfl
@[simp] theorem conclude_pb (x : Status) (v a : Word) (s : State) : (conclude x v a s).pb = s.pb := rfl
@[simp] theorem conclude_pbyte (x : Status) (v a : Word) (s : State) : (conclude x v a s).pbyte = s.pbyte := rfl
@[simp] theorem conclude_requests (x : Status) (v a : Word) (s : State) : (conclude x v a s).requests = s.requests := rfl
@[simp] theorem conclude_pix (x : Status) (v a : Word) (s : State) : (conclude x v a s).pix = s.pix := rfl
@[simp] theorem conclude_pay (x : Status) (v a : Word) (s : State) : (conclude x v a s).pay = s.pay := rfl
@[simp] theorem conclude_pixChanged (x : Status) (v a : Word) (s : State) : (conclude x v a s).pixChanged = s.pixChanged := rfl
@[simp] theorem conclude_payChanged (x : Status) (v a : Word) (s : State) : (conclude x v a s).payChanged = s.payChanged := rfl
@[simp] theorem conclude_baud (x : Status) (v a : Word) (s : State) : (conclude x v a s).baud = s.baud := rfl
@[simp] theorem conclude_rx (x : Status) (v a : Word) (s : State) : (conclude x v a s).rx = s.rx := rfl
@[simp] theorem conclude_rxEnd (x : Status) (v a : Word) (s : State) : (conclude x v a s).rxEnd = s.rxEnd := rfl
@[simp] theorem conclude_keys (x : Status) (v a : Word) (s : State) : (conclude x v a s).keys = s.keys := rfl
@[simp] theorem conclude_tapped (x : Status) (v a : Word) (s : State) : (conclude x v a s).tapped = s.tapped := rfl
@[simp] theorem conclude_otherLock (x : Status) (v a : Word) (s : State) : (conclude x v a s).otherLock = s.otherLock := rfl
@[simp] theorem conclude_withheld (x : Status) (v a : Word) (s : State) : (conclude x v a s).withheld = s.withheld := rfl
@[simp] theorem conclude_hiWraps (x : Status) (v a : Word) (s : State) : (conclude x v a s).hiWraps = s.hiWraps := rfl
@[simp] theorem conclude_turns (x : Status) (v a : Word) (s : State) : (conclude x v a s).turns = s.turns := rfl
@[simp] theorem conclude_draws (x : Status) (v a : Word) (s : State) : (conclude x v a s).draws = s.draws := rfl
@[simp] theorem conclude_trace (x : Status) (v a : Word) (s : State) : (conclude x v a s).trace = s.trace := rfl

@[simp] theorem latch_cfg (d : Request) (s : State) : (latch d s).cfg = s.cfg := rfl
@[simp] theorem latch_st (d : Request) (s : State) : (latch d s).st = .check := rfl
@[simp] theorem latch_rq (d : Request) (s : State) : (latch d s).rq = d := rfl
@[simp] theorem latch_status (d : Request) (s : State) : (latch d s).status = s.status := rfl
@[simp] theorem latch_value (d : Request) (s : State) : (latch d s).value = s.value := rfl
@[simp] theorem latch_aux (d : Request) (s : State) : (latch d s).aux = s.aux := rfl
@[simp] theorem latch_fb (d : Request) (s : State) : (latch d s).fb = s.fb := rfl
@[simp] theorem latch_hi (d : Request) (s : State) : (latch d s).hi = s.hi := rfl
@[simp] theorem latch_lenW (d : Request) (s : State) : (latch d s).lenW = s.lenW := rfl
@[simp] theorem latch_lenIdx (d : Request) (s : State) : (latch d s).lenIdx = s.lenIdx := rfl
@[simp] theorem latch_lenAcc (d : Request) (s : State) : (latch d s).lenAcc = s.lenAcc := rfl
@[simp] theorem latch_n (d : Request) (s : State) : (latch d s).n = s.n := rfl
@[simp] theorem latch_rem (d : Request) (s : State) : (latch d s).rem = s.rem := rfl
@[simp] theorem latch_dbyte (d : Request) (s : State) : (latch d s).dbyte = s.dbyte := rfl
@[simp] theorem latch_rph (d : Request) (s : State) : (latch d s).rph = s.rph := rfl
@[simp] theorem latch_idx (d : Request) (s : State) : (latch d s).idx = s.idx := rfl
@[simp] theorem latch_acked (d : Request) (s : State) : (latch d s).acked = s.acked := rfl
@[simp] theorem latch_last (d : Request) (s : State) : (latch d s).last = s.last := rfl
@[simp] theorem latch_savedBaud (d : Request) (s : State) : (latch d s).savedBaud = s.savedBaud := rfl
@[simp] theorem latch_baudChg (d : Request) (s : State) : (latch d s).baudChg = s.baudChg := rfl
@[simp] theorem latch_excl (d : Request) (s : State) : (latch d s).excl = s.excl := rfl
@[simp] theorem latch_txlk (d : Request) (s : State) : (latch d s).txlk = s.txlk := rfl
@[simp] theorem latch_fr (d : Request) (s : State) : (latch d s).fr = s.fr := rfl
@[simp] theorem latch_pb (d : Request) (s : State) : (latch d s).pb = s.pb := rfl
@[simp] theorem latch_pbyte (d : Request) (s : State) : (latch d s).pbyte = s.pbyte := rfl
@[simp] theorem latch_requests (d : Request) (s : State) : (latch d s).requests = s.requests := rfl
@[simp] theorem latch_pix (d : Request) (s : State) : (latch d s).pix = s.pix := rfl
@[simp] theorem latch_pay (d : Request) (s : State) : (latch d s).pay = s.pay := rfl
@[simp] theorem latch_pixChanged (d : Request) (s : State) : (latch d s).pixChanged = [] := rfl
@[simp] theorem latch_payChanged (d : Request) (s : State) : (latch d s).payChanged = [] := rfl
@[simp] theorem latch_baud (d : Request) (s : State) : (latch d s).baud = s.baud := rfl
@[simp] theorem latch_rx (d : Request) (s : State) : (latch d s).rx = s.rx := rfl
@[simp] theorem latch_rxEnd (d : Request) (s : State) : (latch d s).rxEnd = s.rxEnd := rfl
@[simp] theorem latch_keys (d : Request) (s : State) : (latch d s).keys = s.keys := rfl
@[simp] theorem latch_tapped (d : Request) (s : State) : (latch d s).tapped = false := rfl
@[simp] theorem latch_otherLock (d : Request) (s : State) : (latch d s).otherLock = s.otherLock := rfl
@[simp] theorem latch_withheld (d : Request) (s : State) : (latch d s).withheld = s.withheld := rfl
@[simp] theorem latch_hiWraps (d : Request) (s : State) : (latch d s).hiWraps = s.hiWraps := rfl
@[simp] theorem latch_turns (d : Request) (s : State) : (latch d s).turns = s.turns := rfl
@[simp] theorem latch_draws (d : Request) (s : State) : (latch d s).draws = s.draws := rfl
@[simp] theorem latch_trace (d : Request) (s : State) : (latch d s).trace = s.trace := rfl

@[simp] theorem accepted_cfg (d : Request) (rest : List Request) (s : State) : (accepted d rest s).cfg = s.cfg := rfl
@[simp] theorem accepted_st (d : Request) (rest : List Request) (s : State) : (accepted d rest s).st = .check := rfl
@[simp] theorem accepted_rq (d : Request) (rest : List Request) (s : State) : (accepted d rest s).rq = d := rfl
@[simp] theorem accepted_status (d : Request) (rest : List Request) (s : State) : (accepted d rest s).status = s.status := rfl
@[simp] theorem accepted_value (d : Request) (rest : List Request) (s : State) : (accepted d rest s).value = s.value := rfl
@[simp] theorem accepted_aux (d : Request) (rest : List Request) (s : State) : (accepted d rest s).aux = s.aux := rfl
@[simp] theorem accepted_fb (d : Request) (rest : List Request) (s : State) : (accepted d rest s).fb = s.fb := rfl
@[simp] theorem accepted_hi (d : Request) (rest : List Request) (s : State) : (accepted d rest s).hi = s.hi := rfl
@[simp] theorem accepted_lenW (d : Request) (rest : List Request) (s : State) : (accepted d rest s).lenW = s.lenW := rfl
@[simp] theorem accepted_lenIdx (d : Request) (rest : List Request) (s : State) : (accepted d rest s).lenIdx = s.lenIdx := rfl
@[simp] theorem accepted_lenAcc (d : Request) (rest : List Request) (s : State) : (accepted d rest s).lenAcc = s.lenAcc := rfl
@[simp] theorem accepted_n (d : Request) (rest : List Request) (s : State) : (accepted d rest s).n = s.n := rfl
@[simp] theorem accepted_rem (d : Request) (rest : List Request) (s : State) : (accepted d rest s).rem = s.rem := rfl
@[simp] theorem accepted_dbyte (d : Request) (rest : List Request) (s : State) : (accepted d rest s).dbyte = s.dbyte := rfl
@[simp] theorem accepted_rph (d : Request) (rest : List Request) (s : State) : (accepted d rest s).rph = s.rph := rfl
@[simp] theorem accepted_idx (d : Request) (rest : List Request) (s : State) : (accepted d rest s).idx = s.idx := rfl
@[simp] theorem accepted_acked (d : Request) (rest : List Request) (s : State) : (accepted d rest s).acked = s.acked := rfl
@[simp] theorem accepted_last (d : Request) (rest : List Request) (s : State) : (accepted d rest s).last = s.last := rfl
@[simp] theorem accepted_savedBaud (d : Request) (rest : List Request) (s : State) : (accepted d rest s).savedBaud = s.savedBaud := rfl
@[simp] theorem accepted_baudChg (d : Request) (rest : List Request) (s : State) : (accepted d rest s).baudChg = s.baudChg := rfl
@[simp] theorem accepted_excl (d : Request) (rest : List Request) (s : State) : (accepted d rest s).excl = s.excl := rfl
@[simp] theorem accepted_txlk (d : Request) (rest : List Request) (s : State) : (accepted d rest s).txlk = s.txlk := rfl
@[simp] theorem accepted_fr (d : Request) (rest : List Request) (s : State) : (accepted d rest s).fr = s.fr := rfl
@[simp] theorem accepted_pb (d : Request) (rest : List Request) (s : State) : (accepted d rest s).pb = s.pb := rfl
@[simp] theorem accepted_pbyte (d : Request) (rest : List Request) (s : State) : (accepted d rest s).pbyte = s.pbyte := rfl
@[simp] theorem accepted_requests (d : Request) (rest : List Request) (s : State) : (accepted d rest s).requests = rest := rfl
@[simp] theorem accepted_pix (d : Request) (rest : List Request) (s : State) : (accepted d rest s).pix = s.pix := rfl
@[simp] theorem accepted_pay (d : Request) (rest : List Request) (s : State) : (accepted d rest s).pay = s.pay := rfl
@[simp] theorem accepted_pixChanged (d : Request) (rest : List Request) (s : State) : (accepted d rest s).pixChanged = [] := rfl
@[simp] theorem accepted_payChanged (d : Request) (rest : List Request) (s : State) : (accepted d rest s).payChanged = [] := rfl
@[simp] theorem accepted_baud (d : Request) (rest : List Request) (s : State) : (accepted d rest s).baud = s.baud := rfl
@[simp] theorem accepted_rx (d : Request) (rest : List Request) (s : State) : (accepted d rest s).rx = s.rx := rfl
@[simp] theorem accepted_rxEnd (d : Request) (rest : List Request) (s : State) : (accepted d rest s).rxEnd = s.rxEnd := rfl
@[simp] theorem accepted_keys (d : Request) (rest : List Request) (s : State) : (accepted d rest s).keys = s.keys := rfl
@[simp] theorem accepted_tapped (d : Request) (rest : List Request) (s : State) : (accepted d rest s).tapped = false := rfl
@[simp] theorem accepted_otherLock (d : Request) (rest : List Request) (s : State) : (accepted d rest s).otherLock = s.otherLock := rfl
@[simp] theorem accepted_withheld (d : Request) (rest : List Request) (s : State) : (accepted d rest s).withheld = s.withheld := rfl
@[simp] theorem accepted_hiWraps (d : Request) (rest : List Request) (s : State) : (accepted d rest s).hiWraps = s.hiWraps := rfl
@[simp] theorem accepted_turns (d : Request) (rest : List Request) (s : State) : (accepted d rest s).turns = s.turns := rfl
@[simp] theorem accepted_draws (d : Request) (rest : List Request) (s : State) : (accepted d rest s).draws = s.draws := rfl
@[simp] theorem accepted_trace (d : Request) (rest : List Request) (s : State) : (accepted d rest s).trace = s.trace ++ [.accept d] := rfl

@[simp] theorem resetEngine_cfg (s : State) : (resetEngine s).cfg = s.cfg := rfl
@[simp] theorem resetEngine_st (s : State) : (resetEngine s).st = .idle := rfl
@[simp] theorem resetEngine_rq (s : State) : (resetEngine s).rq = Request.ofW0 s.cfg.maxParams 0#32 := rfl
@[simp] theorem resetEngine_status (s : State) : (resetEngine s).status = 0#4 := rfl
@[simp] theorem resetEngine_value (s : State) : (resetEngine s).value = 0#32 := rfl
@[simp] theorem resetEngine_aux (s : State) : (resetEngine s).aux = 0#32 := rfl
@[simp] theorem resetEngine_fb (s : State) : (resetEngine s).fb = [] := rfl
@[simp] theorem resetEngine_hi (s : State) : (resetEngine s).hi = 0#8 := rfl
@[simp] theorem resetEngine_lenW (s : State) : (resetEngine s).lenW = 0#3 := rfl
@[simp] theorem resetEngine_lenIdx (s : State) : (resetEngine s).lenIdx = 0#3 := rfl
@[simp] theorem resetEngine_lenAcc (s : State) : (resetEngine s).lenAcc = 0#32 := rfl
@[simp] theorem resetEngine_n (s : State) : (resetEngine s).n = 0#32 := rfl
@[simp] theorem resetEngine_rem (s : State) : (resetEngine s).rem = 0#32 := rfl
@[simp] theorem resetEngine_dbyte (s : State) : (resetEngine s).dbyte = 0#8 := rfl
@[simp] theorem resetEngine_rph (s : State) : (resetEngine s).rph = 0#2 := rfl
@[simp] theorem resetEngine_idx (s : State) : (resetEngine s).idx = 0#32 := rfl
@[simp] theorem resetEngine_acked (s : State) : (resetEngine s).acked = 0#32 := rfl
@[simp] theorem resetEngine_last (s : State) : (resetEngine s).last = 0#8 := rfl
@[simp] theorem resetEngine_savedBaud (s : State) : (resetEngine s).savedBaud = 0#32 := rfl
@[simp] theorem resetEngine_baudChg (s : State) : (resetEngine s).baudChg = false := rfl
@[simp] theorem resetEngine_excl (s : State) : (resetEngine s).excl = false := rfl
@[simp] theorem resetEngine_txlk (s : State) : (resetEngine s).txlk = false := rfl
@[simp] theorem resetEngine_fr (s : State) : (resetEngine s).fr = 0#16 := rfl
@[simp] theorem resetEngine_pb (s : State) : (resetEngine s).pb = 0#32 := rfl
@[simp] theorem resetEngine_pbyte (s : State) : (resetEngine s).pbyte = 0#8 := rfl
@[simp] theorem resetEngine_requests (s : State) : (resetEngine s).requests = s.requests := rfl
@[simp] theorem resetEngine_pix (s : State) : (resetEngine s).pix = s.pix := rfl
@[simp] theorem resetEngine_pay (s : State) : (resetEngine s).pay = s.pay := rfl
@[simp] theorem resetEngine_pixChanged (s : State) : (resetEngine s).pixChanged = s.pixChanged := rfl
@[simp] theorem resetEngine_payChanged (s : State) : (resetEngine s).payChanged = s.payChanged := rfl
@[simp] theorem resetEngine_baud (s : State) : (resetEngine s).baud = s.baud := rfl
@[simp] theorem resetEngine_rx (s : State) : (resetEngine s).rx = s.rx := rfl
@[simp] theorem resetEngine_rxEnd (s : State) : (resetEngine s).rxEnd = s.rxEnd := rfl
@[simp] theorem resetEngine_keys (s : State) : (resetEngine s).keys = s.keys := rfl
@[simp] theorem resetEngine_tapped (s : State) : (resetEngine s).tapped = s.tapped := rfl
@[simp] theorem resetEngine_otherLock (s : State) : (resetEngine s).otherLock = s.otherLock := rfl
@[simp] theorem resetEngine_withheld (s : State) : (resetEngine s).withheld = s.withheld := rfl
@[simp] theorem resetEngine_hiWraps (s : State) : (resetEngine s).hiWraps = 0 := rfl
@[simp] theorem resetEngine_turns (s : State) : (resetEngine s).turns = s.turns := rfl
@[simp] theorem resetEngine_draws (s : State) : (resetEngine s).draws = s.draws := rfl
@[simp] theorem resetEngine_trace (s : State) : (resetEngine s).trace = s.trace := rfl

@[simp] theorem raise_eq (x : Status) (v a : Word) (s : State) : raise x v a s = conclude x v a s := rfl
@[simp] theorem finish_eq (x : Status) (v : Word) (s : State) : finish x v s = conclude x v 0#32 s := rfl

end Sys2Proof.Machine
end

