-- ==== Sys2Proof/Laws/Ops.lean ====
section
/-! SUPPORT. What each shared operation can do, said once: if it answers a next state, then one of these
cases holds. Later proofs cite these lemmas and do not unfold the operations. -/
namespace Sys2Proof.Machine

/-- An offered step goes on; one that is not offered waits. -/
theorem whenOffered_cases {k : EventKind} {s t : State} {r : Result} (h : whenOffered k s t = r) :
    (offers s k = true ∧ r = .next t) ∨ (offers s k = false ∧ r = .next s) := by
  unfold whenOffered at h
  cases ho : offers s k <;> simp_all

theorem whenOffered_of_offers {k : EventKind} {s t : State} (h : offers s k = true) :
    whenOffered k s t = .next t := by simp [whenOffered, h]

theorem whenOffered_next {k : EventKind} {s t u : State} (h : whenOffered k s t = .next u) :
    u = t ∨ u = s := by
  rcases whenOffered_cases h with ⟨_, hr⟩ | ⟨_, hr⟩ <;> cases hr <;> simp

/-- A quiet environment offers every event. -/
theorem offers_of_withheld_nil {s : State} (k : EventKind) (h : s.withheld = []) : offers s k = true := by
  simp [offers, h]

/-- What `Rx()` delivers: the oldest byte, a free byte after a breach, or `END`. -/
theorem receive_cases {s t : State} {x : Option Byte} (h : receive s = some (x, t)) :
    (∃ b rest, s.rx = b :: rest ∧ s.tapped = false ∧ x = some b ∧
        t = rxDelivered b rest s) ∨
    (∃ b rest, s.rx = b :: rest ∧ s.tapped = true ∧ x = some (Config.freeByte s.draws) ∧
        t = drawn 1 (rxDelivered (Config.freeByte s.draws) rest s)) ∨
    (s.rx = [] ∧ s.rxEnd = true ∧ x = none ∧ t = emit (.rx none) s) := by
  unfold receive at h
  split at h
  · split at h
    · rename_i b rest hrx
      split at h
      · rename_i ht
        simp only [Option.some.injEq, Prod.mk.injEq] at h
        exact .inr (.inl ⟨b, rest, hrx, ht, h.1.symm, h.2.symm⟩)
      · rename_i ht
        simp only [Option.some.injEq, Prod.mk.injEq] at h
        exact .inl ⟨b, rest, hrx, by simpa using ht, h.1.symm, h.2.symm⟩
    · rename_i hrx
      split at h
      · rename_i he
        simp only [Option.some.injEq, Prod.mk.injEq] at h
        exact .inr (.inr ⟨hrx, he, h.1.symm, h.2.symm⟩)
      · cases h
  · cases h

/-- A reading step waits, ends or takes a byte. -/
theorem stepRx_cases {s u : State} {e : State → State} {g : Byte → State → State}
    (h : stepRx s e g = .next u) :
    u = s ∨ (∃ t, receive s = some (none, t) ∧ u = e t) ∨ (∃ b t, receive s = some (some b, t) ∧ u = g b t) := by
  unfold stepRx at h
  split at h
  · cases h; exact .inl rfl
  · rename_i t hr; cases h; exact .inr (.inl ⟨t, hr, rfl⟩)
  · rename_i b t hr; cases h; exact .inr (.inr ⟨b, t, hr, rfl⟩)

/-- A reading step always answers a next state. -/
theorem stepRx_total (s : State) (e : State → State) (g : Byte → State → State) :
    ∃ u, stepRx s e g = .next u := by
  unfold stepRx
  split <;> exact ⟨_, rfl⟩

/-- The epilogue's steps (R204). -/
theorem stepEpilogue_cases {s u : State} (h : stepEpilogue s = .next u) :
    (s.st = .unlock ∧ u = goto (afterUnlock s) (unlocked s)) ∨
    (s.st = .baudRestore ∧
      (u = s ∨ u = goto (afterRestore s) (baudRestored s))) ∨
    (s.st = .resume ∧ u = goto .resp (resumed s)) ∨
    (s.st = .resp ∧ (u = s ∨ u = responded s)) := by
  unfold stepEpilogue at h
  split at h <;> rename_i hst
  · cases h; exact .inl ⟨hst, rfl⟩
  · rcases whenOffered_next h with rfl | rfl
    · exact .inr (.inl ⟨hst, .inr rfl⟩)
    · exact .inr (.inl ⟨hst, .inl rfl⟩)
  · cases h; exact .inr (.inr (.inl ⟨hst, rfl⟩))
  · rcases whenOffered_next h with rfl | rfl
    · exact .inr (.inr (.inr ⟨hst, .inr rfl⟩))
    · exact .inr (.inr (.inr ⟨hst, .inl rfl⟩))
  · cases h

/-- `LOCK` takes a free lock or waits (R77). -/
theorem stepLock_cases {k : State → State} {s u : State} (h : stepLock k s = .next u) :
    u = s ∨ (s.otherLock = false ∧ u = k (goto .txFrame (locked s))) := by
  unfold stepLock at h
  split at h
  · rename_i hc
    cases h
    simp only [Bool.and_eq_true, Bool.not_eq_true'] at hc
    exact .inr ⟨hc.2, rfl⟩
  · cases h; exact .inl rfl

theorem stepLock_total (k : State → State) (s : State) : ∃ u, stepLock k s = .next u := by
  unfold stepLock; split <;> exact ⟨_, rfl⟩

/-- Sending a byte of the frame counts it, whether or not `HI` wraps (R133, log 9). -/
@[simp] theorem sentCount_frameByteSent (b : Byte) (s : State) :
    sentCount (frameByteSent b s) = sentCount s + 1 := by
  unfold sentCount
  rw [frameByteSent_hi, frameByteSent_hiWraps]
  split
  · rename_i h; rw [h]; simp; omega
  · rename_i h
    have hb : s.hi.toNat ≠ 255 := fun he => h (BitVec.eq_of_toNat_eq he)
    have hl := s.hi.isLt
    rw [BitVec.toNat_add]
    simp; omega

/-- A frame just loaded has nothing sent. -/
@[simp] theorem sentCount_loadFrame (bytes : List Byte) (s : State) : sentCount (loadFrame bytes s) = 0 := rfl

/-- `HI` at 0 and not wrapped: nothing sent. -/
theorem sentCount_of_fresh {s : State} (h : s.hi = 0#8) (hw : s.hiWraps = 0) : sentCount s = 0 := by
  unfold sentCount; rw [h, hw]; rfl

/-- The updates that stand between a frame's loading and its last byte, and after it, keep the count. -/
@[simp] theorem sentCount_goto (x : St) (s : State) : sentCount (goto x s) = sentCount s := rfl
@[simp] theorem sentCount_locked (s : State) : sentCount (locked s) = sentCount s := rfl
@[simp] theorem sentCount_packStarted (s : State) : sentCount (packStarted s) = sentCount s := rfl
@[simp] theorem sentCount_lenStarted (w : Nat) (s : State) : sentCount (lenStarted w s) = sentCount s := rfl
@[simp] theorem sentCount_phase (p : BitVec 2) (s : State) : sentCount (phase p s) = sentCount s := rfl
@[simp] theorem sentCount_conclude (x : Status) (v a : Word) (s : State) :
    sentCount (conclude x v a s) = sentCount s := rfl

/-- `TX_FRAME` sends the next byte of the frame, and is done or not (R133). -/
theorem stepTxFrame_cases {d : State → State} {s u : State} (h : stepTxFrame d s = .next u) :
    ∃ b, s.fb[sentCount s]? = some b ∧
      (u = s ∨
       (sentCount s + 1 < s.fb.length ∧ u = frameByteSent b s) ∨
       (s.fb.length ≤ sentCount s + 1 ∧ u = d (frameByteSent b s))) := by
  unfold stepTxFrame at h
  split at h
  · cases h
  · rename_i b hb
    refine ⟨b, hb, ?_⟩
    by_cases hl : sentCount s + 1 < s.fb.length
    · rw [sentCount_frameByteSent, if_pos hl] at h
      rcases whenOffered_next h with rfl | rfl
      · exact .inr (.inl ⟨hl, rfl⟩)
      · exact .inl rfl
    · rw [sentCount_frameByteSent, if_neg hl] at h
      rcases whenOffered_next h with rfl | rfl
      · exact .inr (.inr ⟨by omega, rfl⟩)
      · exact .inl rfl

theorem stepTxFrame_total (d : State → State) {s : State} (h : sentCount s < s.fb.length) :
    ∃ u, stepTxFrame d s = .next u := by
  unfold stepTxFrame
  rw [List.getElem?_eq_getElem h]
  simp only [whenOffered]
  split <;> exact ⟨_, rfl⟩

/-- The prologue's steps (R200 to R203), or the epilogue's. -/
theorem stepBracket_cases {elev : Bool} {s u : State} (h : stepBracket elev s = .next u) :
    (s.st = .pause ∧ (u = s ∨ u = goto (if elev then .baudGet else afterAcquisition s) (paused s))) ∨
    (s.st = .baudGet ∧ elev = true ∧ (u = s ∨
      (s.baud = Config.baudHigh ∧ u = goto (afterAcquisition s) (baudRead s)) ∨
      (s.baud ≠ Config.baudHigh ∧ u = goto .baudUp (baudSaved (baudRead s))))) ∨
    (s.st = .baudUp ∧ elev = true ∧ (u = s ∨ u = goto (afterAcquisition s) (baudRaised s))) ∨
    (s.st = .flush ∧ (u = s ∨ u = goto .lock (flushed s))) ∨
    (s.st = .lock ∧ (u = s ∨ (s.otherLock = false ∧ u = goto .txFrame (locked s)))) ∨
    (stepEpilogue s = .next u) := by
  unfold stepBracket at h
  split at h
  · rename_i hst
    rcases whenOffered_next h with rfl | rfl
    · exact .inl ⟨hst, .inr rfl⟩
    · exact .inl ⟨hst, .inl rfl⟩
  · rename_i hst
    split at h
    · rename_i he
      rcases whenOffered_next h with rfl | rfl
      · by_cases hb : s.baud = Config.baudHigh
        · exact .inr (.inl ⟨hst, he, .inr (.inl ⟨hb, by simp [hb]⟩)⟩)
        · exact .inr (.inl ⟨hst, he, .inr (.inr ⟨hb, by simp [hb]⟩)⟩)
      · exact .inr (.inl ⟨hst, he, .inl rfl⟩)
    · cases h
  · rename_i hst
    split at h
    · rename_i he
      rcases whenOffered_next h with rfl | rfl
      · exact .inr (.inr (.inl ⟨hst, he, .inr rfl⟩))
      · exact .inr (.inr (.inl ⟨hst, he, .inl rfl⟩))
    · cases h
  · rename_i hst
    rcases whenOffered_next h with rfl | rfl
    · exact .inr (.inr (.inr (.inl ⟨hst, .inr rfl⟩)))
    · exact .inr (.inr (.inr (.inl ⟨hst, .inl rfl⟩)))
  · rename_i hst
    rcases stepLock_cases h with rfl | ⟨ho, rfl⟩
    · exact .inr (.inr (.inr (.inr (.inl ⟨hst, .inl rfl⟩))))
    · exact .inr (.inr (.inr (.inr (.inl ⟨hst, .inr ⟨ho, rfl⟩⟩))))
  · exact .inr (.inr (.inr (.inr (.inr h))))

/-- Every turn is an engine step or an environment action. -/
theorem turnStep_cases (s : State) :
    (s.turns = [] ∧ turnStep s = engineStep s) ∨
    (∃ rest, s.turns = .engine :: rest ∧ turnStep s = engineStep { s with turns := rest }) ∨
    (∃ a rest, s.turns = .env a :: rest ∧ turnStep s = .next (applyEnv a { s with turns := rest })) := by
  unfold turnStep
  split
  · rename_i h; exact .inl ⟨h, rfl⟩
  · rename_i rest h; exact .inr (.inl ⟨rest, h, rfl⟩)
  · rename_i a rest h; exact .inr (.inr ⟨a, rest, h, rfl⟩)

/-- `RX_LEN` waits, raises on `END`, or takes a byte: the field goes on or is complete (R134). -/
theorem stepRxLen_cases {d : State → State} {s u : State} (h : stepRxLen d s = .next u) :
    u = s ∨
    (∃ t, receive s = some (none, t) ∧
      u = conclude .truncatedRead (s.lenIdx.zeroExtend 32) (s.rph.zeroExtend 32) t) ∨
    (∃ b t, receive s = some (some b, t) ∧ (t.lenIdx + 1#3).toNat < t.lenW.toNat ∧ u = lenByteTaken b t) ∨
    (∃ b t, receive s = some (some b, t) ∧ t.lenW.toNat ≤ (t.lenIdx + 1#3).toNat ∧
      u = d (lenDone (lenByteTaken b t))) := by
  rcases stepRx_cases h with rfl | ⟨t, hr, rfl⟩ | ⟨b, t, hr, rfl⟩
  · exact .inl rfl
  · exact .inr (.inl ⟨t, hr, rfl⟩)
  · by_cases hl : (t.lenIdx + 1#3).toNat < t.lenW.toNat
    · exact .inr (.inr (.inl ⟨b, t, hr, hl, by rw [lenByteTaken_lenIdx, if_pos hl]⟩))
    · exact .inr (.inr (.inr ⟨b, t, hr, by omega, by rw [lenByteTaken_lenIdx, if_neg hl]⟩))

/-- `RX_DATA` waits, raises on `END`, or takes a byte (R135). -/
theorem stepRxData_cases {s u : State} (h : stepRxData s = .next u) :
    u = s ∨
    (∃ t, receive s = some (none, t) ∧ u = conclude .truncatedRead s.idx (s.rph.zeroExtend 32) t) ∨
    (∃ b t, receive s = some (some b, t) ∧ u = goto .dataOut (dataTaken b t)) := by
  rcases stepRx_cases h with rfl | ⟨t, hr, rfl⟩ | ⟨b, t, hr, rfl⟩
  · exact .inl rfl
  · exact .inr (.inl ⟨t, hr, rfl⟩)
  · exact .inr (.inr ⟨b, t, hr, rfl⟩)

/-- `DATA_OUT` waits, or hands the byte over and reads on or is done (R135). -/
theorem stepDataOut_cases {d : State → State} {s u : State} (h : stepDataOut d s = .next u) :
    u = s ∨ (s.rem - 1#32 = 0#32 ∧ u = d (dataHanded s)) ∨
      (s.rem - 1#32 ≠ 0#32 ∧ u = goto .rxData (dataHanded s)) := by
  unfold stepDataOut at h
  by_cases hz : s.rem - 1#32 = 0#32
  · rw [dataHanded_rem, if_pos hz] at h
    rcases whenOffered_next h with rfl | rfl
    · exact .inr (.inl ⟨hz, rfl⟩)
    · exact .inl rfl
  · rw [dataHanded_rem, if_neg hz] at h
    rcases whenOffered_next h with rfl | rfl
    · exact .inr (.inr ⟨hz, rfl⟩)
    · exact .inl rfl

/-- `RX_READY` waits, or ends by `END`, by a wrong byte, with no payload, or goes on (R211). -/
theorem stepRxReady_cases {len : Word} {s u : State} (h : stepRxReady len s = .next u) :
    u = s ∨
    (∃ t, receive s = some (none, t) ∧ u = conclude .truncatedRead 0#32 (s.rph.zeroExtend 32) t) ∨
    (∃ r t, receive s = some (some r, t) ∧ r ≠ Config.ready ∧
      u = conclude .uploadRejected (r.zeroExtend 32) 0#32 t) ∨
    (∃ t, receive s = some (some Config.ready, t) ∧
      ((t.idx.toNat < len.toNat ∧ u = goto .upSend t) ∨
       (len.toNat ≤ t.idx.toNat ∧ u = conclude .ok len 0#32 t))) := by
  rcases stepRx_cases h with rfl | ⟨t, hr, rfl⟩ | ⟨r, t, hr, rfl⟩
  · exact .inl rfl
  · exact .inr (.inl ⟨t, hr, rfl⟩)
  · by_cases hw : r = Config.ready
    · subst hw
      refine .inr (.inr (.inr ⟨t, hr, ?_⟩))
      by_cases hl : t.idx.toNat < len.toNat
      · exact .inl ⟨hl, by rw [if_neg (by simp), if_pos hl]⟩
      · exact .inr ⟨by omega, by rw [if_neg (by simp), if_neg hl, finish_eq]⟩
    · exact .inr (.inr (.inl ⟨r, t, hr, hw, by rw [if_pos hw, raise_eq]⟩))

/-- `UP_SEND` waits or sends the payload byte (R211). -/
theorem stepUpSend_cases {base : Word} {s u : State} (h : stepUpSend base s = .next u) :
    base.toNat + s.idx.toNat < 2 ^ 32 ∧
      (u = s ∨ u = goto .upEcho (drawn 1 (payloadByteSent (payloadByte base s) s))) := by
  unfold stepUpSend at h
  split at h
  · cases h
  · rename_i hlt
    rcases whenOffered_next h with rfl | rfl
    · exact ⟨by omega, .inr rfl⟩
    · exact ⟨by omega, .inl rfl⟩

/-- `UP_ECHO` waits, or ends by `END` or a wrong echo, or goes on to the confirmation (R211). -/
theorem stepUpEcho_cases {s u : State} (h : stepUpEcho s = .next u) :
    u = s ∨
    (∃ t, receive s = some (none, t) ∧ u = conclude .truncatedRead (s.idx - 1#32) (s.rph.zeroExtend 32) t) ∨
    (∃ e t, receive s = some (some e, t) ∧ e ≠ s.last ∧
      u = conclude .uploadDesync (s.idx - 1#32) ((s.last.zeroExtend 32 <<< 8) ||| e.zeroExtend 32) t) ∨
    (∃ t, receive s = some (some s.last, t) ∧ u = goto .upConf t) := by
  rcases stepRx_cases h with rfl | ⟨t, hr, rfl⟩ | ⟨e, t, hr, rfl⟩
  · exact .inl rfl
  · exact .inr (.inl ⟨t, hr, rfl⟩)
  · by_cases hw : e = s.last
    · subst hw
      exact .inr (.inr (.inr ⟨t, hr, by rw [if_neg (by simp)]⟩))
    · exact .inr (.inr (.inl ⟨e, t, hr, hw, by rw [if_pos hw, raise_eq]⟩))

/-- `UP_CONF` waits, or confirms and sends on or is done (R211). -/
theorem stepUpConf_cases {len : Word} {s u : State} (h : stepUpConf len s = .next u) :
    u = s ∨ (s.idx.toNat < len.toNat ∧ u = goto .upSend (confirmSent s)) ∨
      (len.toNat ≤ s.idx.toNat ∧ u = conclude .ok len 0#32 (confirmSent s)) := by
  unfold stepUpConf at h
  by_cases hl : s.idx.toNat < len.toNat
  · rw [if_pos hl] at h
    rcases whenOffered_next h with rfl | rfl
    · exact .inr (.inl ⟨hl, rfl⟩)
    · exact .inl rfl
  · rw [if_neg hl] at h
    rcases whenOffered_next h with rfl | rfl
    · exact .inr (.inr ⟨by omega, rfl⟩)
    · exact .inl rfl

/-- `PK_DATA` waits or sends one packed byte (R170). -/
theorem stepPkData_cases {pic : Picture} {s u : State} (h : stepPkData pic s = .next u) :
    packEnd pic s.fr.toNat s.pb.toNat ≤ 2 ^ 32 ∧
      (u = s ∨ u = goto (if (s.pb + 1#32).toNat < packedBytes pic.w pic.h then .pkData else .unlock)
        (drawn (8 * pic.stride.toNat) (packedByteSent (packByte pic s s.fr.toNat s.pb.toNat) s))) := by
  unfold stepPkData at h
  split at h
  · cases h
  · rename_i hlt
    rcases whenOffered_next h with rfl | rfl
    · exact ⟨by omega, .inr rfl⟩
    · exact ⟨by omega, .inl rfl⟩

/-- The `UNLOCK` of a bitmap frame goes to the next frame or ends the request (R170). -/
theorem stepFrameUnlock_cases (nf : Half) (s : State) :
    (s.fr.toNat + 1 < nf.toNat ∧
      stepFrameUnlock nf s = .next (goto .lock (frameIndex (s.fr + 1#16) (unlocked s)))) ∨
    (nf.toNat ≤ s.fr.toNat + 1 ∧
      stepFrameUnlock nf s =
        .next (conclude .ok (nf.zeroExtend 32) 0#32 (frameIndex (s.fr + 1#16) (unlocked s)))) := by
  unfold stepFrameUnlock
  by_cases h : s.fr.toNat + 1 < nf.toNat
  · exact .inl ⟨h, by rw [if_pos h]⟩
  · exact .inr ⟨by omega, by rw [if_neg h, finish_eq]⟩

/-- The checks of `bitmap` refuse or start the first frame (R170, R171). -/
theorem bitmapCheck_cases (w h nf : Half) (stride : BitVec 3) (base : Word) (s : State) :
    (∃ x v a, bitmapChecks w h nf stride base = some (x, v, a) ∧
      bitmapCheck w h nf stride base s = conclude x v a s) ∨
    (bitmapChecks w h nf stride base = none ∧
      bitmapCheck w h nf stride base s = goto .lock (frameIndex 0#16 s)) := by
  unfold bitmapCheck
  rcases bitmapChecks w h nf stride base with _ | ⟨x, v, a⟩
  · exact .inr ⟨rfl, rfl⟩
  · exact .inl ⟨x, v, a, rfl, rfl⟩

/-- The checks of an upload refuse or load the header (R211). -/
theorem uploadCheck_cases (u : UploadKind) (ps : List Word) (base len : Word) (s : State) :
    (∃ x v a, uploadChecks u.capacity u.wl base len = some (x, v, a) ∧
      uploadCheck u ps base len s = conclude x v a s) ∨
    (uploadChecks u.capacity u.wl base len = none ∧
      uploadCheck u ps base len s =
        goto .pause (countersReset (loadFrame (uploadHeader u.op ps len u.wl) s))) := by
  unfold uploadCheck
  rcases uploadChecks u.capacity u.wl base len with _ | ⟨x, v, a⟩
  · exact .inr ⟨rfl, rfl⟩
  · exact .inl ⟨x, v, a, rfl, rfl⟩

/-- A refused descriptor raises in `CHECK`, or is in the epilogue (R137). -/
theorem stepRefused_cases {e : BadRequest} {s u : State} (h : stepRefused e s = .next u) :
    (s.st = .check ∧ u = conclude .badRequest 0#32 (badRequestCause e) s) ∨ stepEpilogue s = .next u := by
  unfold stepRefused at h
  split at h
  · rename_i hst; cases h; exact .inl ⟨hst, rfl⟩
  · exact .inr h

/-- `IDLE` waits or accepts the oldest descriptor (R137). -/
theorem stepIdle_cases {s u : State} (h : stepIdle s = .next u) :
    u = s ∨ ∃ d rest, s.requests = d :: rest ∧
      u = accepted (fitRequest s.cfg.maxParams d) rest s := by
  unfold stepIdle at h
  split at h
  · cases h; exact .inl rfl
  · rename_i d rest hr
    rcases whenOffered_next h with rfl | rfl
    · exact .inr ⟨d, rest, hr, rfl⟩
    · exact .inl rfl

end Sys2Proof.Machine
end

