-- ==== Sys2Proof/Laws/Exec.lean ====
section
/-! SUPPORT. What one step of a request can do, said once: `exec_move` gives, for a step that answers a next
state, the row of R215 it took with the whole next state. Proofs about every request take its cases. -/
namespace Sys2Proof.Machine

/-- The steps of the request `i`, by the step `ST` they leave: which state each can answer. -/
inductive Move (i : Instr) (s : State) : State → Prop where
  /-- The environment does not offer the step's event (R9). -/
  | waits : Move i s s
  /-- `CHECK`: one of the request's own checks fails (R171, R211). -/
  | refused (x : Status) (v a : Word) (hst : s.st = .check) (hc : ownChecks s.cfg i = some (x, v, a)) :
      Move i s (conclude x v a s)
  /-- `CHECK` of `cmd` and `wipe` (R138, R139). -/
  | startsFrame (hst : s.st = .check) (hr : readExpecting i = false) (hb : bitmapShape i = none) :
      Move i s (goto .lock (loadFrame (frameOf s.cfg i) s))
  /-- `CHECK` of `bitmap` (R170). -/
  | startsBitmap (nf nb : Nat) (hst : s.st = .check) (hc : ownChecks s.cfg i = none)
      (hb : bitmapShape i = some (nf, nb)) : Move i s (goto .lock (frameIndex 0#16 s))
  /-- `CHECK` of `ls` and `free` (R213, R214). -/
  | startsQuery (ps : List Word) (hst : s.st = .check) (hi : i = .ls ps ∨ i = .free ps) :
      Move i s (goto .pause (loadFrame (frameOf s.cfg i) s))
  /-- `CHECK` of the downloads and uploads (R208, R211). -/
  | startsTransfer (hst : s.st = .check) (hr : readExpecting i = true) (hc : ownChecks s.cfg i = none)
      (hi : ∀ ps, i ≠ .ls ps ∧ i ≠ .free ps) :
      Move i s (goto .pause (countersReset (loadFrame (frameOf s.cfg i) s)))
  /-- `PAUSE` (R200). -/
  | pauses (hst : s.st = .pause) (hr : readExpecting i = true) :
      Move i s (goto (if elevating i then .baudGet else afterAcquisition s) (paused s))
  /-- `BAUD_GET` at 115200 already (R201). -/
  | findsHigh (hst : s.st = .baudGet) (he : elevating i = true) (hb : s.baud = Config.baudHigh) :
      Move i s (goto (afterAcquisition s) (baudRead s))
  /-- `BAUD_GET` at another rate (R201). -/
  | savesRate (hst : s.st = .baudGet) (he : elevating i = true) (hb : s.baud ≠ Config.baudHigh) :
      Move i s (goto .baudUp (baudSaved (baudRead s)))
  /-- `BAUD_UP` (R201). -/
  | raisesRate (hst : s.st = .baudUp) (he : elevating i = true) :
      Move i s (goto (afterAcquisition s) (baudRaised s))
  /-- `FLUSH` (R202). -/
  | flushes (hst : s.st = .flush) (hr : readExpecting i = true) : Move i s (goto .lock (flushed s))
  /-- `LOCK` of every request but `bitmap` (R77). -/
  | locks (hst : s.st = .lock) (hb : bitmapShape i = none) (ho : s.otherLock = false) :
      Move i s (goto .txFrame (locked s))
  /-- `LOCK` of a bitmap frame (R170). -/
  | locksFrame (nf nb : Nat) (hst : s.st = .lock) (hb : bitmapShape i = some (nf, nb))
      (ho : s.otherLock = false) :
      Move i s (packStarted (loadFrame (frameOf s.cfg i) (goto .txFrame (locked s))))
  /-- `TX_FRAME`, bytes left (R133). -/
  | sendsByte (b : Byte) (hst : s.st = .txFrame) (hb : s.fb[sentCount s]? = some b)
      (hl : sentCount s + 1 < s.fb.length) : Move i s (frameByteSent b s)
  /-- `TX_FRAME`, the last byte of `cmd` and `wipe` (R138, R139). -/
  | sendsLast (b : Byte) (hst : s.st = .txFrame) (hb : s.fb[sentCount s]? = some b)
      (hl : s.fb.length ≤ sentCount s + 1) (hr : readExpecting i = false) (hp : bitmapShape i = none) :
      Move i s (conclude .ok (BitVec.ofNat 32 (frameOf s.cfg i).length) 0#32 (frameByteSent b s))
  /-- `TX_FRAME`, the last byte before a length field (R134). -/
  | asksLength (b : Byte) (hst : s.st = .txFrame) (hb : s.fb[sentCount s]? = some b)
      (hl : s.fb.length ≤ sentCount s + 1) (hw : 0 < lengthWidth i) :
      Move i s (goto .rxLen (lenStarted (lengthWidth i) (frameByteSent b s)))
  /-- `TX_FRAME`, the last byte of an upload header (R211). -/
  | asksReady (b : Byte) (len : Word) (hst : s.st = .txFrame) (hb : s.fb[sentCount s]? = some b)
      (hl : s.fb.length ≤ sentCount s + 1) (hu : uploadLen i = some len) :
      Move i s (goto .rxReady (phase 2#2 (frameByteSent b s)))
  /-- `TX_FRAME`, the last header byte of a bitmap frame (R170). -/
  | endsHeader (b : Byte) (nf nb : Nat) (hst : s.st = .txFrame) (hb : s.fb[sentCount s]? = some b)
      (hl : s.fb.length ≤ sentCount s + 1) (hp : bitmapShape i = some (nf, nb)) :
      Move i s (goto (if 0 < nb then .pkData else .unlock) (frameByteSent b s))
  /-- `RX_LEN`, end of input (R134). -/
  | lengthEnds (t : State) (hst : s.st = .rxLen) (hw : 0 < lengthWidth i)
      (hr : receive s = some (none, t)) :
      Move i s (conclude .truncatedRead (s.lenIdx.zeroExtend 32) (s.rph.zeroExtend 32) t)
  /-- `RX_LEN`, a byte that does not complete the field (R134). -/
  | takesLength (b : Byte) (t : State) (hst : s.st = .rxLen) (hw : 0 < lengthWidth i)
      (hr : receive s = some (some b, t)) (hl : (t.lenIdx + 1#3).toNat < t.lenW.toNat) :
      Move i s (lenByteTaken b t)
  /-- `RX_LEN`, the size of an empty download (R208). -/
  | endsEmpty (b : Byte) (t : State) (hst : s.st = .rxLen) (hw : lengthWidth i = 4)
      (hr : receive s = some (some b, t)) (hl : t.lenW.toNat ≤ (t.lenIdx + 1#3).toNat)
      (hn : (lenByteTaken b t).lenAcc = 0#32) (hp : payloadCount i 0#32 = some 0#32) :
      Move i s (conclude .emptyFile 0#32 0#32 (lenDone (lenByteTaken b t)))
  /-- `RX_LEN`, a length with payload or records to come (R135). -/
  | startsPayload (b : Byte) (t : State) (count : Word) (hst : s.st = .rxLen) (hw : 0 < lengthWidth i)
      (hr : receive s = some (some b, t)) (hl : t.lenW.toNat ≤ (t.lenIdx + 1#3).toNat)
      (hp : payloadCount i (lenByteTaken b t).lenAcc = some count) (hc : count ≠ 0#32) :
      Move i s (goto .rxData (payloadStarted count (lenDone (lenByteTaken b t))))
  /-- `RX_LEN`, a directory with no records (R213). -/
  | endsNoRecords (b : Byte) (t : State) (ps : List Word) (hst : s.st = .rxLen) (hi : i = .ls ps)
      (hr : receive s = some (some b, t)) (hl : t.lenW.toNat ≤ (t.lenIdx + 1#3).toNat)
      (hp : payloadCount i (lenByteTaken b t).lenAcc = some 0#32) :
      Move i s (conclude .ok (lenByteTaken b t).lenAcc 0#32
        (payloadStarted 0#32 (lenDone (lenByteTaken b t))))
  /-- `RX_LEN`, the free-space count (R214). -/
  | endsCount (b : Byte) (t : State) (ps : List Word) (hst : s.st = .rxLen) (hi : i = .free ps)
      (hr : receive s = some (some b, t)) (hl : t.lenW.toNat ≤ (t.lenIdx + 1#3).toNat) :
      Move i s (conclude .ok (lenByteTaken b t).lenAcc 0#32 (lenDone (lenByteTaken b t)))
  /-- `RX_DATA`, end of input (R135). -/
  | payloadEnds (t : State) (n count : Word) (hst : s.st = .rxData) (hp : payloadCount i n = some count)
      (hr : receive s = some (none, t)) :
      Move i s (conclude .truncatedRead s.idx (s.rph.zeroExtend 32) t)
  /-- `RX_DATA`, a byte (R135). -/
  | takesByte (b : Byte) (t : State) (n count : Word) (hst : s.st = .rxData)
      (hp : payloadCount i n = some count) (hr : receive s = some (some b, t)) :
      Move i s (goto .dataOut (dataTaken b t))
  /-- `DATA_OUT`, bytes remain (R135). -/
  | handsByte (n count : Word) (hst : s.st = .dataOut) (hp : payloadCount i n = some count)
      (hz : s.rem - 1#32 ≠ 0#32) : Move i s (goto .rxData (dataHanded s))
  /-- `DATA_OUT`, the last byte (R135, R208, R213). -/
  | handsLast (n count : Word) (hst : s.st = .dataOut) (hp : payloadCount i n = some count)
      (hz : s.rem - 1#32 = 0#32) : Move i s (conclude .ok s.n 0#32 (dataHanded s))
  /-- `RX_READY`, end of input (R211). -/
  | readyEnds (t : State) (len : Word) (hst : s.st = .rxReady) (hu : uploadLen i = some len)
      (hr : receive s = some (none, t)) :
      Move i s (conclude .truncatedRead 0#32 (s.rph.zeroExtend 32) t)
  /-- `RX_READY`, a wrong byte (R211). -/
  | rejected (r : Byte) (t : State) (len : Word) (hst : s.st = .rxReady) (hu : uploadLen i = some len)
      (hr : receive s = some (some r, t)) (hn : r ≠ Config.ready) :
      Move i s (conclude .uploadRejected (r.zeroExtend 32) 0#32 t)
  /-- `RX_READY`, ready, with payload to send (R211). -/
  | acknowledged (t : State) (len : Word) (hst : s.st = .rxReady) (hu : uploadLen i = some len)
      (hr : receive s = some (some Config.ready, t)) (hl : t.idx.toNat < len.toNat) :
      Move i s (goto .upSend t)
  /-- `RX_READY`, ready, with nothing to send (R211). -/
  | acknowledgedEmpty (t : State) (len : Word) (hst : s.st = .rxReady) (hu : uploadLen i = some len)
      (hr : receive s = some (some Config.ready, t)) (hl : len.toNat ≤ t.idx.toNat) :
      Move i s (conclude .ok len 0#32 t)
  /-- `UP_SEND` (R211). -/
  | sendsPayload (ps : List Word) (base len : Word) (hst : s.st = .upSend)
      (hi : i = .upfont ps base len ∨ i = .upfs ps base len) (ha : base.toNat + s.idx.toNat < 2 ^ 32) :
      Move i s (goto .upEcho (drawn 1 (payloadByteSent (payloadByte base s) s)))
  /-- `UP_ECHO`, end of input (R211). -/
  | echoEnds (t : State) (len : Word) (hst : s.st = .upEcho) (hu : uploadLen i = some len)
      (hr : receive s = some (none, t)) :
      Move i s (conclude .truncatedRead (s.idx - 1#32) (s.rph.zeroExtend 32) t)
  /-- `UP_ECHO`, a wrong echo (R211). -/
  | desynced (e : Byte) (t : State) (len : Word) (hst : s.st = .upEcho) (hu : uploadLen i = some len)
      (hr : receive s = some (some e, t)) (hn : e ≠ s.last) :
      Move i s (conclude .uploadDesync (s.idx - 1#32) ((s.last.zeroExtend 32 <<< 8) ||| e.zeroExtend 32) t)
  /-- `UP_ECHO`, the right echo (R211). -/
  | echoed (t : State) (len : Word) (hst : s.st = .upEcho) (hu : uploadLen i = some len)
      (hr : receive s = some (some s.last, t)) : Move i s (goto .upConf t)
  /-- `UP_CONF`, bytes remain (R211). -/
  | confirms (len : Word) (hst : s.st = .upConf) (hu : uploadLen i = some len)
      (hl : s.idx.toNat < len.toNat) : Move i s (goto .upSend (confirmSent s))
  /-- `UP_CONF`, the last byte (R211). -/
  | confirmsLast (len : Word) (hst : s.st = .upConf) (hu : uploadLen i = some len)
      (hl : len.toNat ≤ s.idx.toNat) : Move i s (conclude .ok len 0#32 (confirmSent s))
  /-- `PK_DATA` (R170). -/
  | packs (pic : Picture) (x0 y0 : Word) (nf : Half) (hst : s.st = .pkData)
      (hi : i = .bitmap x0 y0 pic.w pic.h pic.thr pic.inv pic.stride nf pic.pixBase)
      (ha : packEnd pic s.fr.toNat s.pb.toNat ≤ 2 ^ 32) :
      Move i s (goto (if (s.pb + 1#32).toNat < packedBytes pic.w pic.h then .pkData else .unlock)
        (drawn (8 * pic.stride.toNat) (packedByteSent (packByte pic s s.fr.toNat s.pb.toNat) s)))
  /-- `UNLOCK` of a bitmap frame with one after it (R170). -/
  | unlocksFrame (nf nb : Nat) (hst : s.st = .unlock) (hb : bitmapShape i = some (nf, nb))
      (hl : s.fr.toNat + 1 < nf) : Move i s (goto .lock (frameIndex (s.fr + 1#16) (unlocked s)))
  /-- `UNLOCK` of the last bitmap frame (R170). -/
  | unlocksLast (nf nb : Nat) (hst : s.st = .unlock) (hb : bitmapShape i = some (nf, nb))
      (hl : nf ≤ s.fr.toNat + 1) :
      Move i s (conclude .ok (BitVec.ofNat 32 nf) 0#32 (frameIndex (s.fr + 1#16) (unlocked s)))
  /-- `UNLOCK` of every other request (R204). -/
  | unlocks (hst : s.st = .unlock) (hb : bitmapShape i = none) : Move i s (goto (afterUnlock s) (unlocked s))
  /-- `BAUD_RESTORE` (R204). -/
  | restores (hst : s.st = .baudRestore) : Move i s (goto (afterRestore s) (baudRestored s))
  /-- `RESUME` (R204). -/
  | resumes (hst : s.st = .resume) : Move i s (goto .resp (resumed s))
  /-- `RESP` (R204). -/
  | responds (hst : s.st = .resp) : Move i s (responded s)

/-- The epilogue's steps are moves of every request; a bitmap's `UNLOCK` is its own. -/
theorem stepEpilogue_move {i : Instr} {s t : State} (hb : bitmapShape i = none ∨ s.st ≠ .unlock)
    (h : stepEpilogue s = .next t) : Move i s t := by
  rcases stepEpilogue_cases h with ⟨hst, rfl⟩ | ⟨hst, rfl | rfl⟩ | ⟨hst, rfl⟩ | ⟨hst, rfl | rfl⟩
  · exact .unlocks hst (hb.resolve_right fun hne => hne hst)
  · exact .waits
  · exact .restores hst
  · exact .resumes hst
  · exact .waits
  · exact .responds hst

/-- The bracket's steps are moves of every read-expecting request. -/
theorem stepBracket_move {i : Instr} {s t : State} (hr : readExpecting i = true)
    (h : stepBracket (elevating i) s = .next t) : Move i s t := by
  have hb : bitmapShape i = none := by cases i <;> simp_all [readExpecting, bitmapShape]
  rcases stepBracket_cases h with ⟨hst, rfl | rfl⟩ | ⟨hst, he, rfl | ⟨hh, rfl⟩ | ⟨hh, rfl⟩⟩ | ⟨hst, he, rfl | rfl⟩ |
    ⟨hst, rfl | rfl⟩ | ⟨hst, rfl | ⟨ho, rfl⟩⟩ | h
  · exact .waits
  · exact .pauses hst hr
  · exact .waits
  · exact .findsHigh hst he hh
  · exact .savesRate hst he hh
  · exact .waits
  · exact .raisesRate hst he
  · exact .waits
  · exact .flushes hst hr
  · exact .waits
  · exact .locks hst hb ho
  · exact stepEpilogue_move (.inl hb) h

/-- `cmd` and `wipe` (R138, R139). -/
theorem frameOnly_move {i : Instr} {s t : State} (hr : readExpecting i = false) (hb : bitmapShape i = none)
    (h : frameOnly (frameOf s.cfg i) s = .next t) : Move i s t := by
  unfold frameOnly at h
  split at h <;> rename_i hst
  · cases h; exact .startsFrame hst hr hb
  · rcases stepLock_cases h with rfl | ⟨ho, rfl⟩
    · exact .waits
    · exact .locks hst hb ho
  · obtain ⟨b, hf, rfl | ⟨hl, rfl⟩ | ⟨hl, rfl⟩⟩ := stepTxFrame_cases h
    · exact .waits
    · exact .sendsByte b hst hf hl
    · exact .sendsLast b hst hf hl hr hb
  · exact stepEpilogue_move (.inl hb) h

/-- `bitmap` (R170). -/
theorem execBitmap_move {x0 y0 : Word} {w h : Half} {thr : Byte} {inv : Bool} {stride : BitVec 3} {nf : Half}
    {base : Word} {s t : State} (hx : execBitmap x0 y0 w h thr inv stride nf base s = .next t) :
    Move (.bitmap x0 y0 w h thr inv stride nf base) s t := by
  unfold execBitmap at hx
  split at hx <;> rename_i hst
  · cases hx
    rcases bitmapCheck_cases w h nf stride base s with ⟨x, v, a, hc, hq⟩ | ⟨hc, hq⟩ <;> rw [hq]
    · exact .refused x v a hst hc
    · exact .startsBitmap _ _ hst hc rfl
  · rcases stepLock_cases hx with rfl | ⟨ho, rfl⟩
    · exact .waits
    · exact .locksFrame _ _ hst rfl ho
  · obtain ⟨b, hf, rfl | ⟨hl, rfl⟩ | ⟨hl, rfl⟩⟩ := stepTxFrame_cases hx
    · exact .waits
    · exact .sendsByte b hst hf hl
    · exact .endsHeader b nf.toNat _ hst hf hl rfl
  · obtain ⟨ha, rfl | rfl⟩ := stepPkData_cases hx
    · exact .waits
    · exact .packs ⟨w, h, thr, inv, stride, base⟩ x0 y0 nf hst rfl ha
  · rcases stepFrameUnlock_cases nf s with ⟨hl, hq⟩ | ⟨hl, hq⟩ <;> rw [hq] at hx <;> cases hx
    · exact .unlocksFrame _ _ hst rfl hl
    · have hz : nf.zeroExtend 32 = BitVec.ofNat 32 nf.toNat := (BitVec.ofNat_toNat 32 nf).symm
      rw [hz]
      exact .unlocksLast _ _ hst rfl hl
  · exact stepEpilogue_move (.inr (by assumption)) hx

/-- The length decoder is done before a payload (R208, R213): `done` is what `RX_LEN` goes on with. -/
theorem stepRxLen_move {i : Instr} {s u : State} {done : State → State} (hst : s.st = .rxLen)
    (hw : 0 < lengthWidth i)
    (hd : ∀ b t, receive s = some (some b, t) → t.lenW.toNat ≤ (t.lenIdx + 1#3).toNat →
      Move i s (done (lenDone (lenByteTaken b t))))
    (h : stepRxLen done s = .next u) : Move i s u := by
  rcases stepRxLen_cases h with rfl | ⟨t, hr, rfl⟩ | ⟨b, t, hr, hl, rfl⟩ | ⟨b, t, hr, hl, rfl⟩
  · exact .waits
  · exact .lengthEnds t hst hw hr
  · exact .takesLength b t hst hw hr hl
  · exact hd b t hr hl

/-- `RX_DATA` (R135). -/
theorem stepRxData_move {i : Instr} {s u : State} (n count : Word) (hst : s.st = .rxData)
    (hp : payloadCount i n = some count) (h : stepRxData s = .next u) : Move i s u := by
  rcases stepRxData_cases h with rfl | ⟨t, hr, rfl⟩ | ⟨b, t, hr, rfl⟩
  · exact .waits
  · exact .payloadEnds t n count hst hp hr
  · exact .takesByte b t n count hst hp hr

/-- `DATA_OUT` (R135). -/
theorem stepDataOut_move {i : Instr} {s u : State} (n count : Word) (hst : s.st = .dataOut)
    (hp : payloadCount i n = some count) (h : stepDataOut (finish .ok s.n) s = .next u) : Move i s u := by
  rcases stepDataOut_cases h with rfl | ⟨hz, rfl⟩ | ⟨hz, rfl⟩
  · exact .waits
  · exact .handsLast n count hst hp hz
  · exact .handsByte n count hst hp hz

/-- `TX_FRAME` before a length field (R134). -/
theorem stepTxFrame_asks_length {i : Instr} {s u : State} (hst : s.st = .txFrame) (hw : 0 < lengthWidth i)
    (h : stepTxFrame (beginLen (lengthWidth i)) s = .next u) : Move i s u := by
  obtain ⟨b, hf, rfl | ⟨hl, rfl⟩ | ⟨hl, rfl⟩⟩ := stepTxFrame_cases h
  · exact .waits
  · exact .sendsByte b hst hf hl
  · exact .asksLength b hst hf hl hw

/-- The downloads (R208). -/
theorem download_move {i : Instr} {op : Byte} {elev : Bool} {ps : List Word} {s u : State}
    (hi : i = .dlfile elev ps ∧ op = s.cfg.opReadFile ∨ i = .dlfs elev ps ∧ op = s.cfg.opReadFs)
    (h : download op elev ps s = .next u) : Move i s u := by
  have hw : lengthWidth i = 4 := by rcases hi with ⟨rfl, _⟩ | ⟨rfl, _⟩ <;> rfl
  have hr : readExpecting i = true := by rcases hi with ⟨rfl, _⟩ | ⟨rfl, _⟩ <;> rfl
  have hc : ownChecks s.cfg i = none := by rcases hi with ⟨rfl, _⟩ | ⟨rfl, _⟩ <;> rfl
  have he : elevating i = elev := by rcases hi with ⟨rfl, _⟩ | ⟨rfl, _⟩ <;> rfl
  have hp : ∀ n, payloadCount i n = some n := by rcases hi with ⟨rfl, _⟩ | ⟨rfl, _⟩ <;> intro n <;> rfl
  have hf : frame op ps = frameOf s.cfg i := by rcases hi with ⟨rfl, rfl⟩ | ⟨rfl, rfl⟩ <;> rfl
  have hn : ∀ qs, i ≠ .ls qs ∧ i ≠ .free qs := by rcases hi with ⟨rfl, _⟩ | ⟨rfl, _⟩ <;> simp
  unfold download at h
  split at h <;> rename_i hst
  · cases h
    unfold downloadCheck
    rw [hf]
    exact .startsTransfer hst hr hc hn
  · exact stepTxFrame_asks_length hst (by omega) (by rw [hw]; exact h)
  · refine stepRxLen_move hst (by omega) (fun b t hr hl => ?_) h
    unfold afterSize
    rw [lenDone_n]
    by_cases hz : (lenByteTaken b t).lenAcc = 0#32
    · rw [if_pos hz]; exact .endsEmpty b t hst hw hr hl hz (hp _)
    · rw [if_neg hz, beginPayload, if_neg hz]
      exact .startsPayload b t _ hst (by omega) hr hl (hp _) hz
  · exact stepRxData_move 0#32 _ hst (hp _) h
  · exact stepDataOut_move 0#32 _ hst (hp _) h
  · exact stepBracket_move hr (by rw [he]; exact h)

/-- The uploads (R211). -/
theorem upload_move {i : Instr} {k : UploadKind} {ps : List Word} {base len : Word} {s u : State}
    (hi : i = .upfont ps base len ∧ k = fontUpload s.cfg ∨ i = .upfs ps base len ∧ k = fsUpload s.cfg)
    (h : upload k ps base len s = .next u) : Move i s u := by
  have hr : readExpecting i = true := by rcases hi with ⟨rfl, _⟩ | ⟨rfl, _⟩ <;> rfl
  have hu : uploadLen i = some len := by rcases hi with ⟨rfl, _⟩ | ⟨rfl, _⟩ <;> rfl
  have hc : ownChecks s.cfg i = uploadChecks k.capacity k.wl base len := by
    rcases hi with ⟨rfl, rfl⟩ | ⟨rfl, rfl⟩ <;> rfl
  have he : elevating i = true := by rcases hi with ⟨rfl, _⟩ | ⟨rfl, _⟩ <;> rfl
  have hf : uploadHeader k.op ps len k.wl = frameOf s.cfg i := by
    rcases hi with ⟨rfl, rfl⟩ | ⟨rfl, rfl⟩ <;> rfl
  have hn : ∀ qs, i ≠ .ls qs ∧ i ≠ .free qs := by rcases hi with ⟨rfl, _⟩ | ⟨rfl, _⟩ <;> simp
  unfold upload at h
  split at h <;> rename_i hst
  · cases h
    rcases uploadCheck_cases k ps base len s with ⟨x, v, a, hk, hq⟩ | ⟨hk, hq⟩ <;> rw [hq]
    · exact .refused x v a hst (hc.trans hk)
    · rw [hf]; exact .startsTransfer hst hr (hc.trans hk) hn
  · obtain ⟨b, hb, rfl | ⟨hl, rfl⟩ | ⟨hl, rfl⟩⟩ := stepTxFrame_cases h
    · exact .waits
    · exact .sendsByte b hst hb hl
    · exact .asksReady b len hst hb hl hu
  · rcases stepRxReady_cases h with rfl | ⟨t, hx, rfl⟩ | ⟨r, t, hx, hne, rfl⟩ | ⟨t, hx, ⟨hl, rfl⟩ | ⟨hl, rfl⟩⟩
    · exact .waits
    · exact .readyEnds t len hst hu hx
    · exact .rejected r t len hst hu hx hne
    · exact .acknowledged t len hst hu hx hl
    · exact .acknowledgedEmpty t len hst hu hx hl
  · obtain ⟨ha, rfl | rfl⟩ := stepUpSend_cases h
    · exact .waits
    · exact .sendsPayload ps base len hst (hi.imp And.left And.left) ha
  · rcases stepUpEcho_cases h with rfl | ⟨t, hx, rfl⟩ | ⟨e, t, hx, hne, rfl⟩ | ⟨t, hx, rfl⟩
    · exact .waits
    · exact .echoEnds t len hst hu hx
    · exact .desynced e t len hst hu hx hne
    · exact .echoed t len hst hu hx
  · rcases stepUpConf_cases h with rfl | ⟨hl, rfl⟩ | ⟨hl, rfl⟩
    · exact .waits
    · exact .confirms len hst hu hl
    · exact .confirmsLast len hst hu hl
  · exact stepBracket_move hr (by rw [he]; exact h)

/-- `ls` (R213). -/
theorem execLs_move {ps : List Word} {s u : State} (h : execLs ps s = .next u) : Move (.ls ps) s u := by
  unfold execLs at h
  split at h <;> rename_i hst
  · cases h; exact .startsQuery ps hst (.inl rfl)
  · exact stepTxFrame_asks_length hst (Nat.zero_lt_succ _) h
  · refine stepRxLen_move hst (Nat.zero_lt_succ _) (fun b t hr hl => ?_) h
    rw [lenDone_n, beginPayload]
    split
    · rename_i hz
      rw [hz]
      exact .endsNoRecords b t ps hst rfl hr hl (congrArg some hz)
    · rename_i hz
      exact .startsPayload b t _ hst (Nat.zero_lt_succ _) hr hl rfl hz
  · exact stepRxData_move 0#32 _ hst rfl h
  · exact stepDataOut_move 0#32 _ hst rfl h
  · exact stepBracket_move rfl h

/-- `free` (R214). -/
theorem execFree_move {ps : List Word} {s u : State} (h : execFree ps s = .next u) : Move (.free ps) s u := by
  unfold execFree at h
  split at h <;> rename_i hst
  · cases h; exact .startsQuery ps hst (.inr rfl)
  · exact stepTxFrame_asks_length hst (Nat.zero_lt_succ _) h
  · exact stepRxLen_move hst (Nat.zero_lt_succ _) (fun b t hr hl => .endsCount b t ps hst rfl hr hl) h
  · exact stepBracket_move rfl h

/-- A step of a request that answers a next state is one of the moves. -/
theorem exec_move {i : Instr} {s t : State} (h : exec i s = .next t) : Move i s t := by
  cases i with
  | cmd => exact frameOnly_move rfl rfl h
  | bitmap => exact execBitmap_move h
  | dlfile => exact download_move (.inl ⟨rfl, rfl⟩) h
  | dlfs => exact download_move (.inr ⟨rfl, rfl⟩) h
  | upfont => exact upload_move (.inl ⟨rfl, rfl⟩) h
  | upfs => exact upload_move (.inr ⟨rfl, rfl⟩) h
  | ls => exact execLs_move h
  | free => exact execFree_move h
  | wipe => exact frameOnly_move rfl rfl h

/-- A read changes only the transport's input, the count of free values and the trace, and records the read
(R72). -/
theorem receive_eq {s t : State} {x : Option Byte} (h : receive s = some (x, t)) :
    t = { s with rx := t.rx, draws := t.draws, trace := s.trace ++ [.rx x] } := by
  rcases receive_cases h with ⟨b, r, _, _, rfl, rfl⟩ | ⟨b, r, _, _, rfl, rfl⟩ | ⟨_, _, rfl, rfl⟩ <;> rfl

/-- The step's invariant, for a descriptor that decodes, is the request's. -/
theorem stepInv_iff {i : Instr} {s : State} (hd : decode s.cfg s.rq = .ok i) :
    stepInv s ↔ requestInv i s := by
  unfold stepInv requestInv
  cases s.st <;> simp [hd]

/-- The invariant from its parts. -/
theorem inv_of_requestInv {i : Instr} {s : State} (hx : memoryWf s.pix = true) (hy : memoryWf s.pay = true)
    (hl : s.rq.params.length = s.cfg.maxParams) (ho : s.txlk = true → s.otherLock = false)
    (hd : decode s.cfg s.rq = .ok i) (hr : requestInv i s) : Inv s :=
  ⟨hx, hy, hl, ho, (stepInv_iff hd).2 hr⟩

end Sys2Proof.Machine
end

