-- ==== Sys2Proof/Laws/Memory.lean ====
section
/-! SUPPORT. The laws of the caller's memories: the canonical form, and what a read gives after a write. -/
namespace Sys2Proof.Machine

@[simp] theorem memoryWfFrom_nil (lo : Nat) : memoryWfFrom lo [] = true := rfl

theorem memoryWfFrom_cons (lo k : Nat) (v : Byte) (m : Memory) :
    memoryWfFrom lo ((k, v) :: m) = true ↔ lo ≤ k ∧ k < 2 ^ 32 ∧ v ≠ 0#8 ∧ memoryWfFrom (k + 1) m = true := by
  simp [memoryWfFrom, and_assoc]

theorem memoryWfFrom_mono {lo lo' : Nat} (h : lo' ≤ lo) :
    ∀ {m : Memory}, memoryWfFrom lo m = true → memoryWfFrom lo' m = true
  | [], _ => rfl
  | (k, v) :: m, hw => by
    rw [memoryWfFrom_cons] at hw ⊢
    exact ⟨by omega, hw.2⟩

/-- Below the first listed address a memory reads as 0. -/
theorem memRead_below {lo : Nat} :
    ∀ {m : Memory} {a : Nat}, memoryWfFrom lo m = true → a < lo → memRead m a = 0#8
  | [], _, _, _ => rfl
  | (k, v) :: m, a, hw, ha => by
    rw [memoryWfFrom_cons] at hw
    have hne : a ≠ k := by omega
    simp only [memRead, if_neg hne]
    exact memRead_below hw.2.2.2 (by omega)

theorem memWrite_wfFrom {b : Byte} :
    ∀ {m : Memory} {lo a : Nat}, memoryWfFrom lo m = true → lo ≤ a → a < 2 ^ 32 →
      memoryWfFrom lo (memWrite m a b) = true
  | [], lo, a, _, hlo, ha => by
    by_cases hb : b = 0#8
    · simp [memWrite, hb]
    · simp only [memWrite, if_neg hb, memoryWfFrom_cons]
      exact ⟨hlo, ha, hb, rfl⟩
  | (k, v) :: m, lo, a, hw, hlo, ha => by
    have hc := (memoryWfFrom_cons lo k v m).1 hw
    by_cases h1 : a < k
    · by_cases hb : b = 0#8
      · simpa [memWrite, h1, hb] using hw
      · simp only [memWrite, if_pos h1, if_neg hb, memoryWfFrom_cons]
        exact ⟨hlo, ha, hb, by omega, hc.2⟩
    · by_cases h2 : a = k
      · subst h2
        by_cases hb : b = 0#8
        · simpa [memWrite, hb] using memoryWfFrom_mono (by omega) hc.2.2.2
        · simp only [memWrite, if_neg h1, if_true, if_neg hb, memoryWfFrom_cons]
          exact ⟨hlo, ha, hb, hc.2.2.2⟩
      · simp only [memWrite, if_neg h1, if_neg h2, memoryWfFrom_cons]
        exact ⟨hc.1, hc.2.1, hc.2.2.1, memWrite_wfFrom hc.2.2.2 (by omega) ha⟩

/-- A write at an address that exists keeps the canonical form. -/
theorem memWrite_wf {m : Memory} {a : Nat} {b : Byte} (hw : memoryWf m = true) (ha : a < 2 ^ 32) :
    memoryWf (memWrite m a b) = true := memWrite_wfFrom hw (Nat.zero_le a) ha

/-- A read at the written address gives the byte written. -/
theorem memRead_memWrite_same {b : Byte} :
    ∀ {m : Memory} {lo a : Nat}, memoryWfFrom lo m = true → memRead (memWrite m a b) a = b
  | [], _, a, _ => by
    by_cases hb : b = 0#8 <;> simp [memWrite, memRead, hb]
  | (k, v) :: m, lo, a, hw => by
    have hc := (memoryWfFrom_cons lo k v m).1 hw
    by_cases h1 : a < k
    · by_cases hb : b = 0#8
      · have hz : memRead m a = 0#8 := memRead_below hc.2.2.2 (by omega)
        have hne : a ≠ k := by omega
        simp [memWrite, h1, hb, memRead, hne, hz]
      · simp [memWrite, h1, hb, memRead]
    · by_cases h2 : a = k
      · subst h2
        by_cases hb : b = 0#8
        · simpa [memWrite, hb] using memRead_below hc.2.2.2 (Nat.lt_succ_self a)
        · simp [memWrite, hb, memRead]
      · simp only [memWrite, if_neg h1, if_neg h2, memRead]
        exact memRead_memWrite_same hc.2.2.2

/-- A read at any other address gives what it gave before. -/
theorem memRead_memWrite_other {b : Byte} :
    ∀ {m : Memory} {a c : Nat}, c ≠ a → memRead (memWrite m a b) c = memRead m c
  | [], a, c, hne => by
    by_cases hb : b = 0#8 <;> simp [memWrite, memRead, hb, hne]
  | (k, v) :: m, a, c, hne => by
    by_cases h1 : a < k
    · by_cases hb : b = 0#8 <;> simp [memWrite, h1, hb, memRead, hne]
    · by_cases h2 : a = k
      · subst h2
        by_cases hb : b = 0#8 <;> simp [memWrite, hb, memRead, hne]
      · simp only [memWrite, if_neg h1, if_neg h2, memRead]
        rw [memRead_memWrite_other hne]

end Sys2Proof.Machine
end

