-- ==== Sys2Proof/Laws/PerInstr.lean ====
section
/-! SUPPORT. Statements about every request as syntax, one lemma per constructor. -/
namespace Sys2Proof.Laws.EncodedWord

/-- R91, R92: the encoder writes the request's code and leaves the reserved bits 0, for every instance. -/
def Statement (i : Instr) : Prop :=
  ∀ c : Config, (encode c i).code = instrCode i ∧ (encode c i).reserved = 0#7

/-- The code field of a packed `W0` (R91). -/
theorem packW0_code (thr opcode : Byte) (stride : BitVec 3) (inv elev : Bool) (code : BitVec 4) :
    (packW0 thr opcode stride inv elev code).extractLsb' 0 4 = code := by
  ext k hk
  simp only [packW0, BitVec.getElem_extractLsb', BitVec.getLsbD_append, Nat.zero_add]
  simp [hk, BitVec.getLsbD_eq_getElem]

/-- The reserved field of a packed `W0` (R91). -/
theorem packW0_reserved (thr opcode : Byte) (stride : BitVec 3) (inv elev : Bool) (code : BitVec 4) :
    (packW0 thr opcode stride inv elev code).extractLsb' 9 7 = 0#7 := by
  ext k hk
  simp only [packW0, BitVec.getElem_extractLsb', BitVec.getLsbD_append]
  have h1 : ¬(9 + k < 4) := by omega
  have h2 : ¬(9 + k - 4 < 1) := by omega
  have h3 : ¬(9 + k - 4 - 1 < 1) := by omega
  have h4 : ¬(9 + k - 4 - 1 - 1 < 3) := by omega
  have h5 : 9 + k - 4 - 1 - 1 - 3 < 7 := by omega
  simp [h1, h2, h3, h4, h5]

theorem cmd (opcode : Byte) (params : List Word) : Statement (.cmd opcode params) :=
  fun _ => ⟨packW0_code .., packW0_reserved ..⟩

theorem bitmap (x0 y0 : Word) (w h : Half) (thr : Byte) (inv : Bool) (stride : BitVec 3) (nf : Half)
    (pixBase : Word) : Statement (.bitmap x0 y0 w h thr inv stride nf pixBase) :=
  fun _ => ⟨packW0_code .., packW0_reserved ..⟩

theorem dlfile (elev : Bool) (params : List Word) : Statement (.dlfile elev params) :=
  fun _ => ⟨packW0_code .., packW0_reserved ..⟩

theorem dlfs (elev : Bool) (params : List Word) : Statement (.dlfs elev params) :=
  fun _ => ⟨packW0_code .., packW0_reserved ..⟩

theorem upfont (params : List Word) (payBase payLen : Word) : Statement (.upfont params payBase payLen) :=
  fun _ => ⟨packW0_code .., packW0_reserved ..⟩

theorem upfs (params : List Word) (payBase payLen : Word) : Statement (.upfs params payBase payLen) :=
  fun _ => ⟨packW0_code .., packW0_reserved ..⟩

theorem ls (params : List Word) : Statement (.ls params) :=
  fun _ => ⟨packW0_code .., packW0_reserved ..⟩

theorem free (params : List Word) : Statement (.free params) :=
  fun _ => ⟨packW0_code .., packW0_reserved ..⟩

theorem wipe : Statement .wipe :=
  fun _ => ⟨packW0_code .., packW0_reserved ..⟩

end Sys2Proof.Laws.EncodedWord
end

