-- ==== Sys2Proof/Machine/Assembler.lean ====
section
/-! DEFINITION. The request syntax of 30_encoding.md R116 and the pseudo-requests of R117: one line of
text, read as characters, to the request it names. Syntax carries no behaviour (D42). -/
namespace Sys2Proof.Machine

/-- A token of a request line. -/
inductive Token where
  | name (cs : List Char)
  | num (v : Int)
  | open
  | close
  | comma
deriving DecidableEq, Repr

/-- The value of a digit in a base of at most 16. -/
def digitValue (base : Nat) (c : Char) : Option Nat :=
  let v :=
    if '0' ≤ c ∧ c ≤ '9' then c.toNat - '0'.toNat
    else if 'a' ≤ c ∧ c ≤ 'f' then c.toNat - 'a'.toNat + 10
    else if 'A' ≤ c ∧ c ≤ 'F' then c.toNat - 'A'.toNat + 10
    else 16
  if v < base then some v else none

/-- The value of digits, most significant first. -/
def digitsValue (base : Nat) : List Char → Nat → Option Nat
  | [], acc => some acc
  | c :: cs, acc =>
    match digitValue base c with
    | some v => digitsValue base cs (acc * base + v)
    | none => none

/-- An unsigned number, decimal or `0x` hexadecimal. -/
def natToken : List Char → Option Nat
  | [] => none
  | ['0', 'x'] => none
  | '0' :: 'x' :: cs => digitsValue 16 cs 0
  | cs => digitsValue 10 cs 0

/-- The token of a run of letters, digits and signs. -/
def wordToken (cs : List Char) : Option Token :=
  match cs with
  | [] => none
  | '-' :: rest =>
    match natToken rest with
    | some v => some (.num (-(v : Int)))
    | none => none
  | c :: _ =>
    if '0' ≤ c ∧ c ≤ '9' then
      match natToken cs with
      | some v => some (.num v)
      | none => none
    else some (.name cs)

/-- Put the run read so far (last character first) before the tokens that follow it. -/
def endRun (run : List Char) (rest : Option (List Token)) : Option (List Token) :=
  match run with
  | [] => rest
  | _ =>
    match wordToken run.reverse, rest with
    | some t, some ts => some (t :: ts)
    | _, _ => none

/-- The tokens of a line; `;` starts a comment. `run` is the run being read, last character first. -/
def tokens : List Char → List Char → Option (List Token)
  | [], run => endRun run (some [])
  | c :: cs, run =>
    if c = ';' then endRun run (some [])
    else if c = '[' then endRun run ((tokens cs []).map (Token.open :: ·))
    else if c = ']' then endRun run ((tokens cs []).map (Token.close :: ·))
    else if c = ',' then endRun run ((tokens cs []).map (Token.comma :: ·))
    else if c = ' ' ∨ c = '\t' then endRun run (tokens cs [])
    else tokens cs (c :: run)

/-- Numbers separated by commas up to the end of the line. -/
def numberList : List Token → Option (List Int)
  | [.num v] => some [v]
  | .num v :: .comma :: rest => (numberList rest).map (v :: ·)
  | _ => none

/-- The rest of a parameter list after its first number, and the tokens after it. -/
def paramTail : List Token → Option (List Int × List Token)
  | .close :: rest => some ([], rest)
  | .comma :: .num v :: rest => (paramTail rest).map fun r => (v :: r.1, r.2)
  | _ => none

/-- A parameter list in brackets, and the tokens after it. -/
def paramList : List Token → Option (List Int × List Token)
  | .open :: .close :: rest => some ([], rest)
  | .open :: .num v :: rest => (paramTail rest).map fun r => (v :: r.1, r.2)
  | _ => none

/-- A number that fits an unsigned field of `w` bits. -/
def unsignedField (w : Nat) (v : Int) : Option (BitVec w) :=
  if 0 ≤ v ∧ v < 2 ^ w then some (BitVec.ofInt w v) else none

/-- A number that fits an s32 field. -/
def signedField (v : Int) : Option Word :=
  if -(2 ^ 31) ≤ v ∧ v < 2 ^ 31 then some (BitVec.ofInt 32 v) else none

/-- A flag operand: 0 or 1. -/
def flagField (v : Int) : Option Bool :=
  if v = 0 then some false else if v = 1 then some true else none

/-- The parameters as s32 fields. A list of more than 255 has no `NPARAM` (u8, R90), and R116 does not say
what such a line means: it is no request. DESIGN CHOICE (log 25). -/
def paramFields (vs : List Int) : Option (List Word) :=
  if vs.length < 256 then vs.mapM signedField else none

/-- The parameters of a line that holds nothing else. -/
def onlyParams (ts : List Token) : Option (List Word) :=
  match paramList ts with
  | some (vs, []) => paramFields vs
  | _ => none

/-- `[p0, ...], n, ...`: the parameters and the numbers after them. -/
def paramsThen (ts : List Token) : Option (List Word × List Int) := do
  match ← paramList ts with
  | (vs, .comma :: rest) => return (← paramFields vs, ← numberList rest)
  | _ => none

/-- `cmd OPC [p0, ...]` after the mnemonic. -/
def cmdLine (ts : List Token) : Option Instr := do
  match ts with
  | .num op :: rest => return .cmd (← unsignedField 8 op) (← onlyParams rest)
  | _ => none

/-- `bitmap X0, Y0, W, H, THR, INV, STRIDE, NF, PIX_BASE` after the mnemonic. -/
def bitmapLine (ts : List Token) : Option Instr := do
  match ← numberList ts with
  | [x0, y0, w, h, thr, inv, stride, nf, base] =>
    return .bitmap (← signedField x0) (← signedField y0) (← unsignedField 16 w) (← unsignedField 16 h)
      (← unsignedField 8 thr) (← flagField inv) (← unsignedField 3 stride) (← unsignedField 16 nf)
      (← unsignedField 32 base)
  | _ => none

/-- `[p0, ...], ELEV` after the mnemonic. -/
def downloadLine (ts : List Token) : Option (Bool × List Word) := do
  match ← paramsThen ts with
  | (ps, [elev]) => return (← flagField elev, ps)
  | _ => none

/-- `[p0, ...], PAY_BASE, PAY_LEN` after the mnemonic. -/
def uploadLine (ts : List Token) : Option (List Word × Word × Word) := do
  match ← paramsThen ts with
  | (ps, [base, len]) => return (ps, ← unsignedField 32 base, ← unsignedField 32 len)
  | _ => none

/-- The request of a tokenised line (R116, R117). -/
def assembleTokens (c : Config) (ts : List Token) : Option Instr := do
  match ts with
  | .name ['c', 'm', 'd'] :: rest => cmdLine rest
  | .name ['b', 'i', 't', 'm', 'a', 'p'] :: rest => bitmapLine rest
  | .name ['d', 'l', 'f', 'i', 'l', 'e'] :: rest => return .dlfile (← downloadLine rest).1 (← downloadLine rest).2
  | .name ['d', 'l', 'f', 's'] :: rest => return .dlfs (← downloadLine rest).1 (← downloadLine rest).2
  | .name ['u', 'p', 'f', 'o', 'n', 't'] :: rest =>
    return .upfont (← uploadLine rest).1 (← uploadLine rest).2.1 (← uploadLine rest).2.2
  | .name ['u', 'p', 'f', 's'] :: rest =>
    return .upfs (← uploadLine rest).1 (← uploadLine rest).2.1 (← uploadLine rest).2.2
  | .name ['l', 's'] :: rest => return .ls (← onlyParams rest)
  | .name ['f', 'r', 'e', 'e'] :: rest => return .free (← onlyParams rest)
  | [.name ['w', 'i', 'p', 'e']] => return .wipe
  | .name ['m', 'o', 'v', 'e'] :: rest => return Pseudo.expand c (.move (← onlyParams rest))
  | .name ['r', 'e', 'm', 'o', 'v', 'e'] :: rest => return Pseudo.expand c (.remove (← onlyParams rest))
  | .name ['d', 'l'] :: rest => return Pseudo.expand c (.dl (← onlyParams rest))
  | _ => none

/-- The request of a line of text, or nothing where the line is no request (R116). -/
def assemble (c : Config) (line : List Char) : Option Instr :=
  match tokens line [] with
  | some ts => assembleTokens c ts
  | none => none

end Sys2Proof.Machine
end

