-- ==== Sys2Proof/Tests/Slice0.lean ====
section
/-! SUPPORT. Small tests: ill-formed requests, words written out from 30_encoding.md, one step per request from
the vectors of 95_test_vectors.md, and for every obligation with hypotheses a state that meets them. -/
namespace Sys2Proof.Tests
open Sys2Proof Sys2Proof.Machine

/-! ## Well-formedness -/

theorem test_wf_refuses_count_above_u8 : ¬ (Instr.cmd 0x58#8 (List.replicate 256 0#32)).countFits := by
  show ¬(List.replicate 256 0#32).length < 256
  rw [List.length_replicate]; decide

theorem test_wf_refuses_count_above_max :
    ¬ (Instr.ls (List.replicate 9 0#32)).withinMax Config.testBinding := by decide

theorem test_wf_accepts_count_at_max :
    (Instr.ls (List.replicate 8 0#32)).wf Config.testBinding := by decide

/-- R6: an instance has a `MAX_PARAMS` of at least 2, and the default `FS_CAPACITY` where none is given. -/
theorem test_config_refuses_max_params_of_one (c : Config) : c.maxParams ≠ 1 := by
  have h := c.wf_of_instance
  omega

theorem test_config_max_params_of_two : Config.maxParams { Config.testBinding with spareParams := 0 } = 2 := rfl

theorem test_config_test_binding :
    Config.testBinding.maxParams = 8 ∧ Config.testBinding.fsCapacity = 16384#32 := by decide

/-! ## Decoding: `W0` written out from R91, R92: `THR`, `OPCODE`, reserved, `STRIDE`, `INV`, `ELEV`, `CODE` -/

theorem test_decode_cmd :
    decodeTableWord 32 0b00000000010110000000000000000000 = some (.cmd 0x58#8 []) := by decide

theorem test_decode_bitmap :
    decodeTableWord 32 0b10000001000000000000000100100001 =
      some (.bitmap 0#32 0#32 0#16 0#16 129#8 true 4#3 0#16 0#32) := by decide

theorem test_decode_dlfile :
    decodeTableWord 32 0b00000000000000000000000000010010 = some (.dlfile true []) := by decide

theorem test_decode_dlfs :
    decodeTableWord 32 0b00000000000000000000000000000011 = some (.dlfs false []) := by decide

theorem test_decode_upfont :
    decodeTableWord 32 0b00000000000000000000000000000100 = some (.upfont [] 0#32 0#32) := by decide

theorem test_decode_upfs :
    decodeTableWord 32 0b00000000000000000000000000000101 = some (.upfs [] 0#32 0#32) := by decide

theorem test_decode_ls :
    decodeTableWord 32 0b00000000000000000000000000000110 = some (.ls []) := by decide

theorem test_decode_free :
    decodeTableWord 32 0b00000000000000000000000000000111 = some (.free []) := by decide

theorem test_decode_wipe :
    decodeTableWord 32 0b00000000000000000000000000001000 = some .wipe := by decide

/-- R93: the fields a code does not use are ignored, here `THR`, `OPCODE`, `STRIDE`, `INV` and `ELEV`. -/
theorem test_decode_ignores_unused_fields :
    decodeTableWord 32 0b11111111111111110000000111111000 = some .wipe := by decide

/-- R94, R95: the three refusals, in their order. -/
theorem test_decode_refusals :
    decode Config.testBinding (Request.ofW0 8 0x0000FE09#32) = .error .reservedCode ∧
    decode Config.testBinding { Request.ofW0 8 0x00000206#32 with nparam := 9#8 } = .error .reservedBits ∧
    decode Config.testBinding { Request.ofW0 8 0x00000006#32 with nparam := 9#8 } = .error .tooManyParams ∧
    decode Config.testBinding { Request.ofW0 8 0x00000008#32 with nparam := 9#8 } = .ok .wipe :=
  ⟨rfl, rfl, rfl, rfl⟩

/-- R118: a row's mask holds exactly the bits its `encoding` fixes, and its pattern those it fixes at 1. -/
theorem test_opcode_rows_agree_with_encoding :
    ∀ r ∈ opcodeTable, r.encoding.toList.length = 32 ∧
      ∀ k : Fin 32, r.mask.getLsbD k = (r.encoding.toList.reverse[k.val]? == some '0' ||
          r.encoding.toList.reverse[k.val]? == some '1') ∧
        r.pattern.getLsbD k = (r.encoding.toList.reverse[k.val]? == some '1') := by decide

/-- R90, R93: the other fields of a descriptor. -/
theorem test_decode_fields :
    decode Config.testBinding
      { Request.ofW0 8 0x00000004#32 with
        nparam := 2#8, params := [1#32, 2#32, 3#32, 0#32, 0#32, 0#32, 0#32, 0#32], payBase := 0x2000#32,
        payLen := 3#32 } = .ok (.upfont [1#32, 2#32] 0x2000#32 3#32) := rfl

/-- R116's two examples, from the text to `W0`. -/
theorem test_assemble_cmd :
    assemble Config.testBinding "cmd 0x58 [] ; blank".toList = some (.cmd 0x58#8 []) ∧
    (encode Config.testBinding (.cmd 0x58#8 [])).w0 = 0x00580000#32 := by decide

theorem test_assemble_bitmap :
    assemble Config.testBinding "bitmap 0, 0, 8, 1, 128, 0, 1, 1, 0x1000".toList =
      some (.bitmap 0#32 0#32 8#16 1#16 128#8 false 1#3 1#16 0x1000#32) ∧
    (encode Config.testBinding (.bitmap 0#32 0#32 8#16 1#16 128#8 false 1#3 1#16 0x1000#32)).w0 =
      0x80000041#32 := by decide

/-- Log 25: a parameter list that `NPARAM` cannot count is no request. -/
theorem test_assemble_refuses_256_params : paramFields (List.replicate 256 0) = none :=
  if_neg (by rw [List.length_replicate]; decide)

/-- R117: the pseudo-requests. -/
theorem test_assemble_pseudo :
    assemble Config.testBinding "move [1, -2]".toList = some (.cmd 0xD7#8 [1#32, -2#32]) ∧
    assemble Config.testBinding "remove []".toList = some (.cmd 0xD8#8 []) ∧
    assemble Config.testBinding "dl [1, 2]".toList = some (.dlfile true [1#32, 2#32]) := by decide

/-! ## States -/

/-- The request `i` latched after reset, at the step `st`. -/
def latched (i : Instr) (st : St) : State :=
  { State.reset with rq := encode Config.testBinding i, st := st }

/-- The request `i` at the step `st` with the flags of a read-expecting request: the lock and the token. -/
def holding (i : Instr) (st : St) : State := { latched i st with txlk := true, excl := true }

/-- Whether a step answers a next state of which `p` holds. -/
def answers (r : Result) (p : State → Bool) : Bool :=
  match r with
  | .next t => p t
  | .fault _ => false
  | .refused _ => false

/-! ## One step each, results from 95_test_vectors.md and the rules' examples -/

/-- R138's example: `cmd 0x50 [300, -7]`. -/
theorem test_cmd_loads_frame :
    answers (exec (.cmd 0x50#8 [300#32, -7#32]) (latched (.cmd 0x50#8 [300#32, -7#32]) .check))
      (fun t => t.fb == [0xFE#8, 0x50#8, 0x2C#8, 0x00#8] && t.st == .lock) = true := by decide

/-- R170's example: pixels `00 FF 00 FF ...` at `0x1000` pack to `AA`. -/
theorem test_bitmap_packs_byte :
    answers (exec (.bitmap 0#32 0#32 8#16 1#16 128#8 false 1#3 1#16 0x1000#32)
      { latched (.bitmap 0#32 0#32 8#16 1#16 128#8 false 1#3 1#16 0x1000#32) .pkData with
        txlk := true,
        pix := [(0x1001, 0xFF#8), (0x1003, 0xFF#8), (0x1005, 0xFF#8), (0x1007, 0xFF#8)] })
      (fun t => t.trace == [.tx 0xAA#8] && t.st == .unlock) = true := by decide

/-- Vector K13: 300 by 3 overflows before its size is looked at. -/
theorem test_bitmap_overflow_first :
    answers (exec (.bitmap 0#32 0#32 300#16 3#16 128#8 false 1#3 1#16 0x1000#32)
      (latched (.bitmap 0#32 0#32 300#16 3#16 128#8 false 1#3 1#16 0x1000#32) .check))
      (fun t => t.status == 6#4 && t.value == 300#32 && t.aux == 3#32 && t.st == .resp) = true := by decide

/-- R207's example, at the last size byte: `EMPTY_FILE`, and the epilogue. -/
theorem test_dlfs_empty :
    answers (exec (.dlfs true [])
      { holding (.dlfs true []) .rxLen with lenW := 4#3, lenIdx := 3#3, rx := [0x00#8, 0x77#8] })
      (fun t => t.status == 1#4 && t.st == .unlock && t.rx == [0x77#8]) = true := by decide

/-- R206: a size of 3, the last byte read: three payload bytes are to come. -/
theorem test_dlfile_size :
    answers (exec (.dlfile false [])
      { holding (.dlfile false []) .rxLen with lenW := 4#3, lenIdx := 3#3, lenAcc := 3#32, rx := [0x00#8] })
      (fun t => t.rem == 3#32 && t.n == 3#32 && t.st == .rxData) = true := by decide

/-- Vector L1-6: the echo `21` of payload byte 1, which is `20`. -/
theorem test_upfont_desync :
    answers (exec (.upfont [3#32] 0x2000#32 3#32)
      { holding (.upfont [3#32] 0x2000#32 3#32) .upEcho with
        last := 0x20#8, idx := 2#32, acked := 1#32, rph := 3#2, rx := [0x21#8] })
      (fun t => t.status == 4#4 && t.value == 1#32 && t.aux == 0x2021#32 && t.acked == 1#32) = true := by decide

/-- R211's example: the header of `upfont [3], 0x2000, 3` under the test binding. -/
theorem test_upfont_header :
    answers (exec (.upfont [3#32] 0x2000#32 3#32) (latched (.upfont [3#32] 0x2000#32 3#32) .check))
      (fun t => t.fb == [0xFE#8, 0xD3#8, 0x03#8, 0x03#8, 0x00#8] && t.st == .pause) = true := by decide

/-- R210's example: 16385 bytes against a capacity of 16384. -/
theorem test_upfs_capacity :
    answers (exec (.upfs [] 0#32 16385#32) (latched (.upfs [] 0#32 16385#32) .check))
      (fun t => t.status == 7#4 && t.value == 16385#32 && t.aux == 16384#32 && t.trace == []) = true := by decide

/-- R213: the count 1 asks for 4 record bytes. -/
theorem test_ls_count :
    answers (exec (.ls []) { holding (.ls []) .rxLen with lenW := 1#3, rx := [0x01#8] })
      (fun t => t.rem == 4#32 && t.n == 1#32 && t.st == .rxData) = true := by decide

/-- R134's example: `10 27 00 00` is 10000, here at its last byte. -/
theorem test_free_count :
    answers (exec (.free [])
      { holding (.free []) .rxLen with lenW := 4#3, lenIdx := 3#3, lenAcc := 0x2710#32, rx := [0x00#8] })
      (fun t => t.status == 0#4 && t.value == 10000#32) = true := by decide

/-- R134: a byte at index 1 has weight 256. -/
theorem test_free_second_byte :
    answers (exec (.free [])
      { holding (.free []) .rxLen with lenW := 4#3, lenIdx := 1#3, lenAcc := 0x10#32, rx := [0x27#8] })
      (fun t => t.lenAcc == 0x2710#32 && t.lenIdx == 2#3 && t.st == .rxLen) = true := by decide

/-- R104. -/
theorem test_wipe_frame :
    answers (exec .wipe (latched .wipe .check))
      (fun t => t.fb == [0xFE#8, 0x21#8, 0x59#8, 0x21#8]) = true := by decide

/-- R130's corner cases. -/
theorem test_sanitize :
    [-1#32, 0x80000000#32, 0#32, 255#32, 256#32, 300#32, 511#32, 0x7FFFFFFF#32].map sanitize =
      [0x00#8, 0x00#8, 0x00#8, 0xFF#8, 0x00#8, 0x2C#8, 0xFF#8, 0xFF#8] := by decide

/-- Vector L1-1 and L1-2: directory records, an unused slot between two used ones. -/
theorem test_directory :
    directory [0x01#8, 0x00#8, 0x10#8, 0x00#8, 0x00#8, 0x00#8, 0x00#8, 0x00#8, 0x01#8, 0x05#8, 0x02#8, 0x01#8] =
      [⟨true, .font, 0#7, 16#16⟩, ⟨true, .bitmap, 2#7, 258#16⟩] := by decide

/-- R40: right after reset. -/
theorem test_reset :
    memoryWf State.reset.pix = true ∧ memoryWf State.reset.pay = true ∧ stCode State.reset.st = 0#5 ∧
      nothingHeld State.reset := by decide

/-- A request placed where the next step runs it. -/
theorem test_placed_request_runs :
    step (State.reset.withFetchWord 32 0x00000008) = exec .wipe (State.reset.withFetchWord 32 0x00000008) := rfl

/-! ## Witnesses: states and operands that meet the hypotheses of the obligations -/

/-- DecodeEncodeRoundTrip: a parameter list of the largest length. -/
theorem witness_round_trip : (Instr.cmd 0x58#8 (List.replicate 8 (-1#32))).wf Config.testBinding := by decide

/-- DecodeIgnoresUnusedFields: two descriptors of `free` that differ in unused fields. -/
theorem witness_unused_fields :
    agreeOnUsed (Request.ofW0 8 0x00000007#32) { Request.ofW0 8 0xFFFF01F7#32 with x0 := 1#32, payLen := 2#32 } := by
  unfold agreeOnUsed; decide

/-- OpcodeTableMatchesDecoder: a descriptor that decodes, and one that a row accepts, at the largest
parameter count. -/
theorem witness_opcode_table :
    decode Config.testBinding { Request.ofW0 8 0x00000006#32 with nparam := 8#8 } =
      .ok (.ls (List.replicate 8 0#32)) ∧
    OpcodeRow.accepts ⟨"ls", 0x00000006#32, 0x0000FE0F#32, "xxxxxxxxxxxxxxxx0000000xxxxx0110"⟩ 0x00000006#32 =
      true ∧
    (⟨"ls", 0x00000006#32, 0x0000FE0F#32, "xxxxxxxxxxxxxxxx0000000xxxxx0110"⟩ : OpcodeRow) ∈ opcodeTable ∧
    (8#8).toNat ≤ Config.testBinding.maxParams := ⟨rfl, by decide, by decide, by decide⟩

/-- FrameFitsByteIndex: an instance with 249 parameters, and a request that uses them all. -/
theorem witness_frame_fits :
    (Instr.upfs (List.replicate 249 0#32) 0#32 0#32).wf { Config.testBinding with spareParams := 247 } := by
  show (List.replicate 249 0#32).length < 256 ∧ (List.replicate 249 0#32).length ≤ 2 + 247
  rw [List.length_replicate]; decide

/-- The operands of a picture of one byte at address 0. -/
def row : Picture := ⟨8#16, 1#16, 128#8, false, 1#3, 0#32⟩

/-- PackedBitIsPixelDarkness: the first pixel of a byte and the last, at an address the caller changed and at
one it did not. -/
theorem witness_packed_bit : 0 < 8 ∧ 7 < 8 ∧
    row.pixBase.toNat + (0 * row.w.toNat * row.h.toNat + (8 * 0 + 7)) * row.stride.toNat + 0 ∈
      { State.reset with pixChanged := [7] }.pixChanged ∧
    row.pixBase.toNat + (0 * row.w.toNat * row.h.toNat + (8 * 0 + 0)) * row.stride.toNat + 0 ∉
      { State.reset with pixChanged := [7] }.pixChanged := by decide

/-- A changed pixel packs to the bit of its free byte: what the model answers, with the draw named. -/
theorem test_changed_pixel_is_free :
    pixelLevel row { State.reset with pixChanged := [7], draws := 3 } 0 7 = (Config.freeByte 10).toNat :=
  Nat.div_one _

/-- Eight white pixels at address 0. -/
def white : Memory :=
  [(0, 255#8), (1, 255#8), (2, 255#8), (3, 255#8), (4, 255#8), (5, 255#8), (6, 255#8), (7, 255#8)]

/-- PackerLaws, the white clause. -/
theorem witness_packer_white : row.thr = 128#8 ∧ row.inv = false ∧ row.stride.toNat ∈ Config.strides ∧
    ∀ a, pixAddr row.pixBase row.w row.h row.stride 0 (8 * 0) 0 ≤ a → a < packEnd row 0 0 →
      memRead white a = 255#8 := by
  refine ⟨rfl, rfl, by decide, fun a _ h => ?_⟩
  have h8 : a < 8 := h
  interval_cases a <;> rfl

/-- PackerLaws, the black clause: `PIX` reads 0 everywhere after reset; and the last clause, for the two
states below, whose `PIX` differs only outside the byte's pixels. -/
theorem witness_packer_black : ∀ a, memRead State.reset.pix a = 0#8 := fun _ => rfl

theorem witness_packer_same : ∀ a, pixAddr row.pixBase row.w row.h row.stride 0 (8 * 0) 0 ≤ a →
    a < packEnd row 0 0 → memRead State.reset.pix a = memRead [(8, 1#8)] a := by
  intro a _ h
  have h8 : a < 8 := h
  interval_cases a <;> rfl

/-- DirectoryRecordFields: one slot, and none. -/
theorem witness_directory : [1#8, 2#8, 3#8, 4#8].length % 4 = 0 ∧ ([] : List Byte).length % 4 = 0 := by decide

/-- StepRunsDecodedRequest: at the first step and at the last, with and without a listed engine turn. -/
theorem witness_step_runs :
    (latched .wipe .check).st ≠ .idle ∧ stCode (latched .wipe .check).st ≤ 19#5 ∧
    decode (latched .wipe .check).cfg (latched .wipe .check).rq = .ok .wipe ∧ (latched .wipe .check).turns = [] ∧
    stCode (latched .wipe .resp).st ≤ 19#5 ∧
    { latched .wipe .resp with turns := [.engine, .env .reset] }.turns = .engine :: [.env .reset] :=
  ⟨by decide, by decide, rfl, rfl, by decide, rfl⟩

/-- IdleAcceptsOldestDescriptor: no descriptor, and two. -/
theorem witness_idle : State.reset.turns = [] ∧ State.reset.st = .idle ∧ State.reset.withheld = [] ∧
    State.reset.requests = [] ∧
    { State.reset with requests := [Request.ofW0 8 0x8#32, Request.ofW0 8 0x6#32] }.requests =
      Request.ofW0 8 0x8#32 :: [Request.ofW0 8 0x6#32] ∧
    (Request.ofW0 8 0x8#32).params.length = State.reset.cfg.maxParams := by decide

/-- RequestLatchedUntilNextAccept and ExecLeavesOthersUnchanged: a step of the engine outside `IDLE`. -/
theorem witness_engine_step : (latched .wipe .check).st ≠ .idle ∧
    engineStep (latched .wipe .check) = .next (goto .lock (loadFrame wipeFrame (latched .wipe .check))) ∧
    exec .wipe (latched .wipe .check) = .next (goto .lock (loadFrame wipeFrame (latched .wipe .check))) :=
  ⟨by decide, rfl, rfl⟩

/-- A descriptor in `CHECK`. -/
def checking (d : Request) : State := { State.reset with rq := d, st := .check }

/-- CommonChecksRefuseBadRequest: code 9, reserved bits with the largest code, one parameter too many. -/
theorem witness_common_checks :
    nothingHeld (checking (Request.ofW0 8 0x9#32)) ∧ 9 ≤ (Request.ofW0 8 0x9#32).code.toNat ∧
    (Request.ofW0 8 0x208#32).code.toNat < 9 ∧ (Request.ofW0 8 0x208#32).reserved ≠ 0#7 ∧
    (Request.ofW0 8 0x7#32).reserved = 0#7 ∧ (Request.ofW0 8 0x7#32).code.toNat ∈ [0, 2, 3, 4, 5, 6, 7] ∧
    Config.testBinding.maxParams < { Request.ofW0 8 0x7#32 with nparam := 9#8 }.nparam.toNat := by decide

/-! ### States that meet the invariant -/

/-- A well-formed request with what its step needs meets the invariant. -/
theorem inv_of {i : Instr} {s : State} (h : memoryWf s.pix = true ∧ memoryWf s.pay = true ∧
    s.rq.params.length = s.cfg.maxParams ∧ s.otherLock = false) (hd : decode s.cfg s.rq = .ok i)
    (hr : requestInv i s) : Inv s :=
  inv_of_requestInv h.1 h.2.1 h.2.2.1 (fun _ => h.2.2.2) hd hr

/-- `wipe` in `CHECK`. -/
theorem witness_inv_check : Inv (latched .wipe .check) ∧
    decode (latched .wipe .check).cfg (latched .wipe .check).rq = .ok .wipe :=
  ⟨inv_of (i := .wipe) (by decide) rfl (show nothingHeld _ by decide), rfl⟩

/-- `ls` at the prologue's first step. -/
def lsPausing : State := { latched (.ls []) .pause with fb := [0xFE#8, 0xD5#8] }

/-- PrologueTakesTokenRateAndLock, for a request that keeps the rate. -/
theorem witness_prologue : lsPausing.st = .pause ∧ quiet lsPausing ∧ Inv lsPausing ∧
    decode lsPausing.cfg lsPausing.rq = .ok (.ls []) :=
  ⟨rfl, by decide,
    inv_of (i := .ls []) (by decide) rfl
      (show ownChecks _ _ = none ∧ readExpecting _ = true ∧ nothingHeld _ ∧ frameLoaded _ _ ∧ countersClear _ _ by
        decide), rfl⟩

/-- An elevating request at the prologue's first step. -/
def dlfsPausing : State := { latched (.dlfs true []) .pause with fb := [0xFE#8, 0xD2#8] }

theorem witness_prologue_elevating : dlfsPausing.st = .pause ∧ quiet dlfsPausing ∧ Inv dlfsPausing ∧
    decode dlfsPausing.cfg dlfsPausing.rq = .ok (.dlfs true []) ∧ dlfsPausing.baud ≠ Config.baudHigh :=
  ⟨rfl, by decide,
    inv_of (i := .dlfs true []) (by decide) rfl
      (show ownChecks _ _ = none ∧ readExpecting _ = true ∧ nothingHeld _ ∧ frameLoaded _ _ ∧ countersClear _ _ by
        decide), rfl, by decide⟩

/-- `wipe` with its frame to send, from byte `k`. -/
def wipeSending (k : Byte) : State := { latched .wipe .txFrame with txlk := true, fb := wipeFrame, hi := k }

/-- FrameSenderSendsByteAtIndex: the first byte and the last. -/
theorem witness_frame_sender :
    (wipeSending 0#8).st = .txFrame ∧ (wipeSending 0#8).withheld = [] ∧ Inv (wipeSending 0#8) ∧
    decode (wipeSending 0#8).cfg (wipeSending 0#8).rq = .ok .wipe ∧
    (wipeSending 0#8).fb[sentCount (wipeSending 0#8)]? = some 0xFE#8 ∧ Inv (wipeSending 3#8) ∧
    (wipeSending 3#8).fb[sentCount (wipeSending 3#8)]? = some 0x21#8 := by
  refine ⟨rfl, rfl, ?_, rfl, rfl, ?_, rfl⟩ <;>
    exact inv_of (i := .wipe) (by decide) rfl
      (show ownChecks _ _ = none ∧ flagsAre _ true _ ∧ _ = frameOf _ _ ∧ _ < _ ∧ (bitmapShape .wipe ≠ none → _) ∧
          frameInRange .wipe _ ∧ countersClear .wipe _ from
        ⟨rfl, by decide, rfl, by decide, fun h => absurd rfl h, fun _ _ h => (nomatch h), fun h => absurd rfl h⟩)

/-- The longest command there is, of 255 parameters, and an instance that has it. -/
def longest : Instr := .cmd 0x50#8 (List.replicate 255 5#32)

/-- The instance with `MAX_PARAMS` 255. -/
def wide : Config := { Config.testBinding with spareParams := 253 }

set_option maxRecDepth 20000 in
theorem decodes_longest : decode wide (encode wide longest) = .ok longest := rfl

/-- The longest command with byte `HI` of its 257 bytes to send. -/
def longSending (hi : Byte) (wraps : Nat) : State :=
  { State.resetWith wide with
    rq := encode wide longest, st := .txFrame, txlk := true, fb := frameOf wide longest, hi := hi,
    hiWraps := wraps }

set_option maxRecDepth 20000 in
/-- LongFrameIndexWraps: the longest command at byte 255. -/
theorem witness_long_frame :
    (longSending 255#8 0).st = .txFrame ∧ quiet (longSending 255#8 0) ∧
    decode (longSending 255#8 0).cfg (longSending 255#8 0).rq = .ok longest ∧
    (longSending 255#8 0).fb[255]? = some 5#8 ∧ (longSending 255#8 0).fb[256]? = some 5#8 :=
  ⟨rfl, ⟨rfl, rfl, rfl⟩, decodes_longest, rfl, rfl⟩

set_option maxRecDepth 20000 in
/-- R133, R138: the last byte of the longest command ends it, with 257 bytes sent. -/
theorem test_longest_frame_ends :
    answers (exec longest (longSending 0#8 1)) (fun t => t.st == .unlock && t.value == 257#32) = true := by
  decide

/-- StepFollowsNextStateTable, InvariantKeptByEveryStep and PriorRateKeptByEveryStep: a step that is taken and
changes the state. -/
theorem witness_step_taken : Inv (latched .wipe .check) ∧ (latched .wipe .check).turns = [] ∧
    rateKept 19200#32 (latched .wipe .check) ∧
    step (latched .wipe .check) = .next (goto .lock (loadFrame wipeFrame (latched .wipe .check))) ∧
    goto .lock (loadFrame wipeFrame (latched .wipe .check)) ≠ latched .wipe .check :=
  ⟨witness_inv_check.1, rfl, ⟨fun _ => rfl, by decide⟩, rfl, by decide⟩

/-- `ls` reading its count, the lock and the token held. -/
def lsReading (bytes : List Byte) (ended : Bool) : State :=
  { holding (.ls []) .rxLen with lenW := 1#3, rx := bytes, rxEnd := ended }

theorem decodes_ls : decode Config.testBinding (encode Config.testBinding (.ls [])) = .ok (.ls []) := rfl

theorem lsReading_inv (bytes : List Byte) (ended : Bool) : Inv (lsReading bytes ended) :=
  inv_of (i := .ls []) ⟨rfl, rfl, rfl, rfl⟩ decodes_ls
    (show flagsAre (.ls []) true _ ∧ _ = lengthWidth (.ls []) ∧ _ < lengthWidth (.ls []) ∧ _ = _ ∧ _ < _ from
      ⟨⟨rfl, rfl, fun h => (nomatch h)⟩, rfl, Nat.zero_lt_one, rfl, Nat.zero_lt_one⟩)

/-- UnofferedEventWaits: an event withheld, a byte that does not come, a lock held by another writer. -/
theorem witness_waits :
    (Inv { latched .wipe .check with st := .resp, withheld := [.respond] } ∧
      eventOf .resp = some .respond ∧ EventKind.respond ∈ [EventKind.respond]) ∧
    (Inv (lsReading [] false) ∧ eventOf (lsReading [] false).st = some .rx ∧ (lsReading [] false).rx = [] ∧
      (lsReading [] false).rxEnd = false) ∧
    (Inv { latched .wipe .lock with fb := wipeFrame, otherLock := true } ∧
      { latched .wipe .lock with fb := wipeFrame, otherLock := true }.otherLock = true) := by
  refine ⟨⟨inv_of (i := .wipe) (by decide) rfl (show nothingHeld _ ∧ concluded _ by decide), rfl, by decide⟩,
    ⟨lsReading_inv _ _, rfl, rfl, rfl⟩, inv_of_requestInv (i := .wipe) rfl rfl rfl (by decide) rfl ?_, rfl⟩
  exact (show ownChecks _ _ = none ∧ flagsAre _ false _ ∧ (bitmapShape .wipe = none → frameLoaded .wipe _) ∧
      frameInRange .wipe _ ∧ countersClear .wipe _ from
    ⟨rfl, by decide, fun _ => by decide, fun _ _ h => (nomatch h), fun h => absurd rfl h⟩)

/-- FlagsChangeOnlyAtTheirSteps: every one of the six changes happens. -/
theorem witness_flag_changes :
    answers (engineStep lsPausing) (fun t => t.excl != lsPausing.excl) = true ∧
    answers (engineStep (latched .wipe .lock)) (·.txlk) = true ∧
    answers (engineStep { latched (.upfs [] 0#32 0#32) .baudUp with excl := true }) (·.baudChg) = true ∧
    answers (engineStep (holding (.ls []) .unlock)) (!·.txlk) = true ∧
    answers (engineStep { latched (.upfs [] 0#32 0#32) .baudRestore with excl := true, baudChg := true })
      (!·.baudChg) = true ∧
    answers (engineStep { latched (.ls []) .resume with excl := true }) (!·.excl) = true := by decide

/-- InvariantStepNeverFaults: the state after reset, and a request under way. -/
theorem witness_never_faults : Inv State.reset ∧ Inv (latched .wipe .check) ∧ (latched .wipe .check).st ≠ .idle ∧
    decode (latched .wipe .check).cfg (latched .wipe .check).rq = .ok .wipe :=
  ⟨⟨rfl, rfl, rfl, by decide, show nothingHeld _ by decide⟩, witness_inv_check.1, by decide, rfl⟩

/-- ResponseLeavesNothingHeld. -/
theorem witness_response : Inv (latched .wipe .resp) ∧ rateKept 19200#32 (latched .wipe .resp) ∧
    (latched .wipe .resp).turns = [] ∧ (latched .wipe .resp).withheld = [] ∧ (latched .wipe .resp).st = .resp :=
  ⟨inv_of (i := .wipe) (by decide) rfl (show nothingHeld _ ∧ concluded _ by decide),
    ⟨fun _ => rfl, by decide⟩, rfl, rfl, rfl⟩

/-- NonReadingRequestFrame: `wipe`, which has no packer registers either. -/
theorem witness_non_reading : readExpecting .wipe = false ∧ bitmapShape .wipe = none ∧
    Inv (latched .wipe .check) ∧ (latched .wipe .check).st ≠ .idle ∧
    exec .wipe (latched .wipe .check) = .next (goto .lock (loadFrame wipeFrame (latched .wipe .check))) :=
  ⟨rfl, rfl, witness_inv_check.1, by decide, rfl⟩

/-- ReadingRequestFrame: one request of each kind, in `CHECK`. -/
theorem witness_reading :
    (Inv (latched (.upfont [] 0#32 1#32) .check) ∧ uploadLen (.upfont [] 0#32 1#32) ≠ none) ∧
    (Inv (latched (.free []) .check) ∧ uploadLen (.free []) = none) ∧
    answers (exec (.upfont [] 0#32 1#32) (latched (.upfont [] 0#32 1#32) .check)) (·.st == .pause) = true ∧
    answers (exec (.free []) (latched (.free []) .check)) (·.st == .pause) = true :=
  ⟨⟨inv_of (i := .upfont [] 0#32 1#32) (by decide) rfl (show nothingHeld _ by decide), by decide⟩,
    ⟨inv_of (i := .free []) (by decide) rfl (show nothingHeld _ by decide), rfl⟩, by decide, by decide⟩

/-- OutcomeWrittenOnlyAtTheEnd: a step that writes `STATUS`, and the one `UNLOCK` that ends its operation,
the last of a bitmap request, which writes `VALUE`. -/
theorem witness_outcome : answers (exec (.upfs [] 0#32 16385#32) (latched (.upfs [] 0#32 16385#32) .check))
      (fun t => t.status != (latched (.upfs [] 0#32 16385#32) .check).status) = true ∧
    answers (exec (.bitmap 0#32 0#32 8#16 1#16 128#8 false 1#3 1#16 0#32)
        { latched (.bitmap 0#32 0#32 8#16 1#16 128#8 false 1#3 1#16 0#32) .unlock with txlk := true })
      (fun t => t.value == 1#32 && t.fr == 1#16 && t.st == .resp) = true := by decide

/-- CmdSendsItsFrame, at the longest frame of the test binding, and WipeSendsFixedFrame. -/
theorem witness_frame_requests :
    quiet (latched (.cmd 0x50#8 (List.replicate 8 300#32)) .check) ∧
    nothingHeld (latched (.cmd 0x50#8 (List.replicate 8 300#32)) .check) ∧
    decode Config.testBinding (latched (.cmd 0x50#8 (List.replicate 8 300#32)) .check).rq =
      .ok (.cmd 0x50#8 (List.replicate 8 300#32)) ∧
    quiet (latched .wipe .check) ∧ nothingHeld (latched .wipe .check) :=
  ⟨by decide, by decide, rfl, by decide, by decide⟩

/-- CmdSendsItsFrame: the longest frame there is, in an instance that has it. -/
theorem witness_longest_frame :
    { longSending 0#8 0 with st := .check, txlk := false }.st = .check ∧
    quiet { longSending 0#8 0 with st := .check, txlk := false } ∧
    nothingHeld { longSending 0#8 0 with st := .check, txlk := false } ∧
    decode { longSending 0#8 0 with st := .check, txlk := false }.cfg
      { longSending 0#8 0 with st := .check, txlk := false }.rq = .ok longest :=
  ⟨rfl, ⟨rfl, rfl, rfl⟩, ⟨rfl, rfl, rfl⟩, decodes_longest⟩

/-- A request of two frames of one packed byte. -/
def pair : Instr := .bitmap (-5#32) 300#32 8#16 1#16 128#8 false 1#3 2#16 0x1000#32

/-- BitmapChecksInOrder, BitmapSendsOneFrame (the first frame and the last) and BitmapSendsEveryFrame. -/
theorem witness_bitmap :
    nothingHeld (latched pair .check) ∧ quiet (latched pair .check) ∧ (latched pair .check).pixChanged = [] ∧
    bitmapChecks 8#16 1#16 2#16 1#3 0x1000#32 = none ∧
    decode (latched pair .check).cfg (latched pair .check).rq = .ok pair ∧
    (latched pair .lock).st = .lock ∧ quiet (latched pair .lock) ∧ nothingHeld (latched pair .lock) ∧
    (latched pair .lock).fr.toNat + 1 < (2#16).toNat ∧
    { latched pair .lock with fr := 1#16 }.fr.toNat + 1 = (2#16).toNat :=
  ⟨by decide, by decide, rfl, by decide, rfl, rfl, by decide, by decide, by decide, by decide⟩

/-- BitmapChecksInOrder at its bounds: the largest picture, and the last address. -/
theorem witness_bitmap_bounds :
    bitmapChecks 255#16 248#16 1#16 4#3 0#32 = none ∧ bitmapChecks 8#16 1#16 1#16 1#3 0xFFFFFFF8#32 = none ∧
    bitmapChecks 8#16 1#16 1#16 1#3 0xFFFFFFF9#32 = some (.badRequest, 0#32, 6#32) ∧
    bitmapChecks 256#16 1#16 1#16 1#3 0#32 = some (.dimensionOverflow, 256#32, 1#32) ∧
    bitmapChecks 3#16 3#16 1#16 1#3 0#32 = some (.invalidDimensions, 9#32, 0#32) ∧
    bitmapChecks 8#16 1#16 0#16 1#3 0#32 = some (.badRequest, 0#32, 5#32) ∧
    bitmapChecks 8#16 1#16 0#16 2#3 0#32 = some (.badRequest, 0#32, 4#32) := by decide

/-- EpilogueReleasesInOrder: from the lock held, down to nothing held. -/
theorem witness_epilogue :
    (quiet { holding (.dlfs true []) .unlock with baudChg := true } ∧
      Inv { holding (.dlfs true []) .unlock with baudChg := true } ∧ bitmapShape (.dlfs true []) = none ∧
      St.unlock = epilogueEntry { holding (.dlfs true []) .unlock with baudChg := true }) ∧
    (Inv (latched .wipe .resp) ∧ St.resp = epilogueEntry (latched .wipe .resp)) := by
  refine ⟨⟨by decide, inv_of (i := .dlfs true []) (by decide) rfl ?_, rfl, rfl⟩, witness_response.1, rfl⟩
  exact (show flagsAre (.dlfs true []) true _ ∧ (bitmapShape (.dlfs true []) = none → concluded _) ∧ _ from
    ⟨by decide, fun _ => by decide, fun _ _ h => (nomatch h)⟩)

/-- A request `i` with its whole frame to send and `bytes` received. -/
def sending (i : Instr) (bytes : List Byte) : State :=
  { holding i .txFrame with fb := frameOf Config.testBinding i, rx := bytes }

/-- The four statements about a run from the first byte of the frame: what their hypotheses ask of the state,
for any request and any bytes received. -/
theorem witness_sending (i : Instr) (bytes : List Byte) :
    (sending i bytes).st = .txFrame ∧ (sending i bytes).txlk = true ∧ (sending i bytes).tapped = false ∧
    (sending i bytes).fb = frameOf Config.testBinding i ∧ (sending i bytes).hi = 0#8 ∧
    (sending i bytes).hiWraps = 0 ∧
    (sending i bytes).idx = 0#32 ∧ (sending i bytes).acked = 0#32 ∧ (sending i bytes).payChanged = [] ∧
    (sending i bytes).rq = encode Config.testBinding i ∧ (sending i bytes).rx = bytes :=
  ⟨rfl, rfl, rfl, rfl, rfl, rfl, rfl, rfl, rfl, rfl, rfl⟩

/-- DownloadDeliversPayload: both requests, an empty file and one of two bytes. -/
theorem witness_download :
    quiet (sending (.dlfile true [1#32]) [0x02#8, 0#8, 0#8, 0#8, 0xAA#8, 0xBB#8, 0x07#8]) ∧
    decode Config.testBinding (encode Config.testBinding (.dlfile true [1#32])) = .ok (.dlfile true [1#32]) ∧
    decode Config.testBinding (encode Config.testBinding (.dlfs false [])) = .ok (.dlfs false []) ∧
    frameOf Config.testBinding (.dlfile true [1#32]) = frame 0xD1#8 [1#32] ∧
    [0x02#8, 0#8, 0#8, 0#8, 0xAA#8, 0xBB#8, 0x07#8] = leBytes 2#32 4 ++ [0xAA#8, 0xBB#8] ++ [0x07#8] ∧
    [0xAA#8, 0xBB#8].length = (2#32).toNat ∧ [0#8, 0#8, 0#8, 0#8] = leBytes 0#32 4 ++ [] ++ [] ∧
    ([] : List Byte).length = (0#32).toNat := ⟨by decide, rfl, rfl, rfl, by decide, rfl, by decide, rfl⟩

/-- LsDeliversRecords: no record, and one. -/
theorem witness_ls :
    quiet (sending (.ls []) [0x01#8, 1#8, 3#8, 5#8, 0#8]) ∧
    decode Config.testBinding (encode Config.testBinding (.ls [])) = .ok (.ls []) ∧
    (sending (.ls []) []).fb = frame Config.testBinding.opLs [] ∧
    [1#8, 3#8, 5#8, 0#8].length = 4 * (1#8).toNat ∧ ([] : List Byte).length = 4 * (0#8).toNat :=
  ⟨by decide, rfl, rfl, rfl, rfl⟩

/-- FreeReportsCount. -/
theorem witness_free :
    quiet (sending (.free []) [0#8, 0x40#8, 0#8, 0#8]) ∧ (sending (.free []) []).txlk = true ∧
    decode Config.testBinding (encode Config.testBinding (.free [])) = .ok (.free []) ∧
    (sending (.free []) []).fb = frame Config.testBinding.opFree [] := ⟨by decide, rfl, rfl, rfl⟩

/-- `free` reading byte `k` of its count. -/
def freeReading (k : BitVec 3) : State :=
  { holding (.free []) .rxLen with lenW := 4#3, lenIdx := k, rx := [0xFF#8] }

/-- LengthDecoderAssemblesLittleEndian: the first byte of a field and the last. -/
theorem witness_length : Inv (freeReading 0#3) ∧ Inv (freeReading 3#3) ∧
    decode (freeReading 0#3).cfg (freeReading 0#3).rq = .ok (.free []) ∧
    (freeReading 3#3).lenIdx.toNat + 1 = lengthWidth (.free []) ∧ (freeReading 0#3).rx = 0xFF#8 :: [] := by
  refine ⟨?_, ?_, rfl, rfl, rfl⟩ <;>
    exact inv_of (i := .free []) (by decide) rfl
      (show flagsAre (.free []) true _ ∧ _ = lengthWidth (.free []) ∧ _ < lengthWidth (.free []) ∧ _ = _ ∧ _ < _ from
        ⟨⟨rfl, rfl, fun h => (nomatch h)⟩, rfl, by decide, rfl, by decide⟩)

/-- An upload of two bytes. -/
def short : Instr := .upfont [3#32] 0x2000#32 2#32

theorem decodes_short : decode Config.testBinding (encode Config.testBinding short) = .ok short := rfl

/-- The upload at a step, with `k` bytes sent and `a` confirmed. -/
def uploading (st : St) (phase : BitVec 2) (k a : Word) (bytes : List Byte) (ended : Bool) : State :=
  { holding short st with rph := phase, idx := k, acked := a, last := 0x10#8, rx := bytes, rxEnd := ended }

/-- The upload waiting for the ready byte meets the invariant. -/
theorem ready_inv (bytes : List Byte) (ended : Bool) : Inv (uploading .rxReady 2#2 0#32 0#32 bytes ended) :=
  inv_of (i := short) ⟨rfl, rfl, rfl, rfl⟩ decodes_short
    (show ownChecks _ _ = none ∧ flagsAre short true _ ∧ uploadLen short ≠ none ∧ countersClear short _ ∧ _ = _ from
      ⟨rfl, ⟨rfl, rfl, fun _ => rfl⟩, by decide, fun _ => ⟨rfl, rfl⟩, rfl⟩)

/-- The upload waiting for the first echo meets the invariant. -/
theorem echo_inv (bytes : List Byte) (ended : Bool) : Inv (uploading .upEcho 3#2 1#32 0#32 bytes ended) :=
  inv_of (i := short) ⟨rfl, rfl, rfl, rfl⟩ decodes_short
    (show ownChecks _ _ = none ∧ flagsAre short true _ ∧ oneUnconfirmed short _ ∧ _ = _ from
      ⟨rfl, ⟨rfl, rfl, fun _ => rfl⟩, ⟨2#32, rfl, Nat.succ_le_succ (Nat.zero_le 1), rfl⟩, rfl⟩)

/-- EndOfInputRaisesTruncatedRead, at each of the four steps that read. -/
theorem witness_end_of_input :
    Inv (lsReading [] true) ∧ Inv (uploading .rxReady 2#2 0#32 0#32 [] true) ∧
    Inv (uploading .upEcho 3#2 1#32 0#32 [] true) ∧
    Inv { holding (.dlfs false []) .rxData with n := 5#32, rem := 1#32, idx := 4#32, rph := 1#2, rxEnd := true } := by
  refine ⟨lsReading_inv _ _, ready_inv _ _, echo_inv _ _, inv_of (i := .dlfs false []) (by decide) rfl ?_⟩
  exact (show flagsAre (.dlfs false []) true _ ∧ payloadSplit (.dlfs false []) _ ∧ _ = _ from
    ⟨by decide, ⟨by decide, 5#32, rfl, by decide⟩, rfl⟩)

/-- UploadChecksInOrder at its bounds. -/
theorem witness_upload_checks :
    nothingHeld (latched short .check) ∧ (latched short .check).st = .check ∧
    uploadChecks (some 16384#32) .four 0#32 16384#32 = none ∧
    uploadChecks (some 16384#32) .four 0#32 16385#32 = some (.capacityExceeded, 16385#32, 16384#32) ∧
    uploadChecks none .two 0#32 65535#32 = none ∧
    uploadChecks none .two 0#32 65536#32 = some (.badRequest, 0#32, 7#32) ∧
    uploadChecks none .two 0xFFFFFFFF#32 1#32 = none ∧
    uploadChecks none .two 0xFFFFFFFF#32 2#32 = some (.badRequest, 0#32, 6#32) := by decide

/-- UploadSendsConfirmedPayload and UploadByteCounts: a device that echoes, one that is not ready, and one
whose last echo is wrong. -/
theorem witness_upload :
    quiet (sending short [0x01#8, 0#8, 0#8, 9#8]) ∧ ownChecks Config.testBinding short = none ∧
    decode Config.testBinding (encode Config.testBinding short) = .ok short ∧
    [0#8, 0#8] = (List.range (2#32).toNat).map (fun k => memRead (sending short []).pay ((0x2000#32).toNat + k)) ∧
    (0x02#8 ≠ 0x01#8 ∧ [0#8, 0#8][1]? = some 0#8 ∧ 0x55#8 ≠ 0#8) :=
  ⟨by decide, rfl, rfl, by decide, by decide⟩

/-- WrongReadyByteRejectsUpload. -/
theorem witness_wrong_ready :
    Inv (uploading .rxReady 2#2 0#32 0#32 [0x00#8] false) ∧
    (uploading .rxReady 2#2 0#32 0#32 [0x00#8] false).rx = 0x00#8 :: [] ∧ 0x00#8 ≠ 0x01#8 :=
  ⟨ready_inv _ _, rfl, by decide⟩

/-- WrongEchoDesyncsUpload. -/
theorem witness_wrong_echo :
    Inv (uploading .upEcho 3#2 1#32 0#32 [0x11#8] false) ∧
    (uploading .upEcho 3#2 1#32 0#32 [0x11#8] false).rx = 0x11#8 :: [] ∧
    0x11#8 ≠ (uploading .upEcho 3#2 1#32 0#32 [0x11#8] false).last := ⟨echo_inv _ _, rfl, by decide⟩

/-- UploadSendsOneByte: the last address of `PAY`, unchanged and changed. -/
theorem witness_send_byte :
    (uploading .upSend 2#2 0#32 0#32 [] false).st = .upSend ∧
    (0xFFFFFFFF#32).toNat + (uploading .upSend 2#2 0#32 0#32 [] false).idx.toNat < 2 ^ 32 ∧
    (0xFFFFFFFF#32).toNat + (0#32).toNat ∉ (uploading .upSend 2#2 0#32 0#32 [] false).payChanged ∧
    (0xFFFFFFFF#32).toNat + (0#32).toNat ∈
      { uploading .upSend 2#2 0#32 0#32 [] false with payChanged := [0xFFFFFFFF] }.payChanged := by decide

/-- NoForeignByteUnderTxLock: another writer tries while the lock is held. -/
theorem witness_tx_lock :
    Inv { wipeSending 0#8 with turns := [.env (.otherTx 0x55#8)] } ∧
    { wipeSending 0#8 with turns := [.env (.otherTx 0x55#8)] }.txlk = true ∧
    answers (step { wipeSending 0#8 with turns := [.env (.otherTx 0x55#8)] }) (fun t => t.trace == []) = true :=
  ⟨witness_frame_sender.2.2.1, rfl, by decide⟩

/-- BrokenExclusivityFreesReads. -/
theorem witness_breach :
    (lsReading [7#8] false).excl = true ∧ (lsReading [7#8] false).rx = 7#8 :: [] ∧
    { lsReading [7#8] false with tapped := true }.tapped = true ∧ (lsReading [7#8] false).withheld = [] := by decide

/-- BrokenExclusivityFreesReads: a breach, and a byte to read, at each of the four steps that read. -/
theorem witness_breach_steps :
    Inv { lsReading [7#8] false with tapped := true } ∧
    Inv { holding (.dlfs false []) .rxData with
      n := 5#32, rem := 1#32, idx := 4#32, rph := 1#2, rx := [7#8], tapped := true } ∧
    Inv { uploading .rxReady 2#2 0#32 0#32 [7#8] false with tapped := true } ∧
    Inv { uploading .upEcho 3#2 1#32 0#32 [7#8] false with tapped := true } := by
  refine ⟨lsReading_inv [7#8] false, inv_of (i := .dlfs false []) (by decide) rfl ?_, ready_inv [7#8] false,
    echo_inv [7#8] false⟩
  exact (show flagsAre (.dlfs false []) true _ ∧ payloadSplit (.dlfs false []) _ ∧ _ = _ from
    ⟨by decide, ⟨by decide, 5#32, rfl, by decide⟩, rfl⟩)

/-- CallerWriteReadsBack: during a request, a byte that differs. -/
theorem witness_caller_write :
    memoryWf (lsReading [] false).pix = true ∧ memoryWf (lsReading [] false).pay = true ∧
    (lsReading [] false).st ≠ .idle ∧ memRead (lsReading [] false).pix (0xFFFFFFFF#32).toNat ≠ 1#8 := by decide

end Sys2Proof.Tests
end

section
/-! PROOFS. The statements of 30_encoding.md about directory records (R112) and the common checks that refuse
a descriptor (R94, R95, R137). -/
namespace Sys2Proof.Machine

/-! ## Directory records -/

/-- A slot is used when its byte 0 is not 0 (R112). -/
theorem dirRecord_used_iff (b0 b1 b2 b3 : Byte) : (dirRecord b0 b1 b2 b3).used = true ↔ b0.toNat ≠ 0 := by
  simp [dirRecord, ← BitVec.toNat_inj]

/-- Bit 0 of byte 1 tells a bitmap from a font (R112). -/
theorem dirRecord_fileType_eq_bitmap_iff (b0 b1 b2 b3 : Byte) :
    (dirRecord b0 b1 b2 b3).fileType = .bitmap ↔ b1.toNat % 2 = 1 := by
  have hbit : b1[0] = decide (b1.toNat % 2 = 1) := Nat.testBit_zero b1.toNat
  simp [dirRecord, hbit]

/-- Bits 7 to 1 of byte 1 are the file's number (R112). -/
theorem dirRecord_fileId_toNat (b0 b1 b2 b3 : Byte) : (dirRecord b0 b1 b2 b3).fileId.toNat = b1.toNat / 2 := by
  have hfits : b1.toNat / 2 < 2 ^ 7 := by have := b1.isLt; omega
  calc (dirRecord b0 b1 b2 b3).fileId.toNat = b1.toNat / 2 % 2 ^ 7 := rfl
    _ = b1.toNat / 2 := Nat.mod_eq_of_lt hfits

/-- Bytes 2 and 3 are the size, little-endian (R112, C17). -/
theorem dirRecord_size_toNat (b0 b1 b2 b3 : Byte) :
    (dirRecord b0 b1 b2 b3).size.toNat = b2.toNat + 256 * b3.toNat := by
  calc (dirRecord b0 b1 b2 b3).size.toNat = b3.toNat <<< 8 ||| b2.toNat := BitVec.toNat_append b3 b2
    _ = b3.toNat <<< 8 + b2.toNat := (Nat.shiftLeft_add_eq_or_of_lt b2.isLt b3.toNat).symm
    _ = b2.toNat + 256 * b3.toNat := by rw [Nat.shiftLeft_eq]; omega

/-- The first slot yields its entry when it is used and none otherwise; the next slot starts four bytes on. -/
theorem directory_slot (b0 b1 b2 b3 : Byte) (rest : List Byte) :
    directory (b0 :: b1 :: b2 :: b3 :: rest) =
      (if b0.toNat ≠ 0 then [dirRecord b0 b1 b2 b3] else []) ++ directory rest := by
  rw [directory]
  simp only [dirRecord_used_iff]
  split <;> rfl

/-- Whole slots are read on their own, so what follows them starts a slot of its own. -/
theorem directory_append_of_whole_slots (rest : List Byte) : ∀ slots : List Byte, slots.length % 4 = 0 →
    directory (slots ++ rest) = directory slots ++ directory rest
  | [], _ => rfl
  | b0 :: b1 :: b2 :: b3 :: slots, h => by
    have ih := directory_append_of_whole_slots rest slots (by simp only [List.length_cons] at h; omega)
    simp only [List.cons_append, directory_slot, ih, List.append_assoc]
  | [_], h | [_, _], h | [_, _, _], h => nomatch h

/-! ## The common checks -/

/-- With nothing held the epilogue is the response alone (R204, R215). -/
theorem epilogueEntry_of_nothingHeld {s : State} (h : nothingHeld s) : epilogueEntry s = .resp := by
  obtain ⟨hlock, hbaud, hexcl⟩ := h
  simp [epilogueEntry, afterUnlock, afterRestore, hlock, hbaud, hexcl]

/-- In `CHECK` a descriptor the decoder rejects is refused with the cause of the rejection (R137). -/
theorem engineStep_check_of_decode_error {s : State} {e : BadRequest} (hst : s.st = .check)
    (hd : decode s.cfg s.rq = .error e) :
    engineStep s = .next (conclude .badRequest 0#32 (badRequestCause e) s) := by
  simp [engineStep, stepRefused, hst, hd]

/-- A turn that refuses a descriptor, with nothing held, writes the outcome and goes to `RESP` (R94, R95). -/
theorem step_check_of_decode_error {s : State} {e : BadRequest} (ht : s.turns = []) (hst : s.st = .check)
    (hheld : nothingHeld s) (hd : decode s.cfg s.rq = .error e) :
    step s = .next { s with st := .resp, status := 8#4, value := 0#32, aux := badRequestCause e } := by
  have hturn : step s = engineStep s := by simp [step, turnStep, ht]
  rw [hturn, engineStep_check_of_decode_error hst hd, conclude, epilogueEntry_of_nothingHeld hheld]
  rfl

/-- The codes that use `PARAM`, counted out (R93, R137). -/
theorem usesParams_iff : ∀ code : BitVec 4, usesParams code = true ↔ code.toNat ∈ [0, 2, 3, 4, 5, 6, 7] := by
  decide

/-- Codes 9 to 15 are rejected before anything else is looked at (R94). -/
theorem decode_of_reservedCode (c : Config) {d : Request} (h : 9 ≤ d.code.toNat) :
    decode c d = .error .reservedCode := if_pos h

/-- Set reserved bits are rejected next (R95). -/
theorem decode_of_reservedBits (c : Config) {d : Request} (hcode : d.code.toNat < 9)
    (h : d.reserved ≠ 0#7) : decode c d = .error .reservedBits := by
  rw [decode, if_neg (by omega), if_pos h]

/-- Too many parameters, for a code that uses them, are rejected last (R95). -/
theorem decode_of_tooManyParams {c : Config} {d : Request} (hcode : d.code.toNat < 9) (hres : d.reserved = 0#7)
    (huses : usesParams d.code = true) (h : c.maxParams < d.nparam.toNat) :
    decode c d = .error .tooManyParams := by
  rw [decode, if_neg (by omega), if_neg (not_not_intro hres), if_pos ⟨huses, h⟩]

/-! ## The obligations -/

/-- Settles O11: the four fields of a record, and the split of a directory at a slot's boundary. -/
theorem directoryRecordFields : Obligations.DirectoryRecordFields := by
  refine ⟨fun b0 b1 b2 b3 => ⟨dirRecord_used_iff b0 b1 b2 b3, dirRecord_fileType_eq_bitmap_iff b0 b1 b2 b3,
    dirRecord_fileId_toNat b0 b1 b2 b3, dirRecord_size_toNat b0 b1 b2 b3⟩, ?_⟩
  intro b0 b1 b2 b3 slots rest h
  rw [directory_append_of_whole_slots _ slots h, directory_slot, List.append_assoc]

/-- Settles O15: each clause is a rejection of the decoder, and every rejection is refused alike. -/
theorem commonChecksRefuseBadRequest : Obligations.CommonChecksRefuseBadRequest := by
  intro s ht hst hheld
  refine ⟨fun hcode => ?_, fun hcode hres => ?_, fun hcode hres huses hcount => ?_⟩
  · exact step_check_of_decode_error ht hst hheld (decode_of_reservedCode s.cfg hcode)
  · exact step_check_of_decode_error ht hst hheld (decode_of_reservedBits s.cfg hcode hres)
  · have hparams : usesParams s.rq.code = true := (usesParams_iff s.rq.code).mpr huses
    exact step_check_of_decode_error ht hst hheld (decode_of_tooManyParams hcode hres hparams hcount)

end Sys2Proof.Machine
end

section
/-! PROOFS. The statement of 40_framer.md about the parameter sanitiser (R130). -/
namespace Sys2Proof.Machine

/-! ## The sanitiser -/

/-- A negative value is sent as 0 (R130). -/
theorem sanitize_of_neg {v : Word} (h : v.toInt < 0) : sanitize v = 0#8 := if_pos h

/-- Any other value keeps its low 8 bits (R130). -/
theorem sanitize_of_nonneg {v : Word} (h : 0 ≤ v.toInt) : sanitize v = v.extractLsb' 0 8 := if_neg h.not_gt

/-- The low byte of a word that is not negative is the remainder of its value. -/
theorem lowByte_toNat_of_nonneg {v : Word} (h : 0 ≤ v.toInt) :
    ((v.extractLsb' 0 8).toNat : Int) = v.toInt % 256 := by
  have hvalue : v.toInt = v.toNat := BitVec.toInt_eq_toNat_of_lt (BitVec.toInt_pos_iff.mp h)
  rw [hvalue, BitVec.extractLsb'_toNat, Nat.shiftRight_zero]
  rfl

/-! ## The obligation -/

/-- Settles O7, by the sign of the value: below 0 the maximum is 0, from 0 on it is the value itself. -/
theorem sanitizeSaturatesThenMasks : Obligations.SanitizeSaturatesThenMasks := by
  intro v
  rcases lt_or_ge v.toInt 0 with hneg | hnonneg
  · rw [sanitize_of_neg hneg, max_eq_left hneg.le]
    rfl
  · rw [sanitize_of_nonneg hnonneg, max_eq_right hnonneg, lowByte_toNat_of_nonneg hnonneg]

end Sys2Proof.Machine
end

section
/-! PROOFS. Runs of several steps in a quiet environment, and the statements of 41_packer.md about the checks
and the whole run of `bitmap` (R170, R171, R175, R176). -/
namespace Sys2Proof.Machine

/-! ## Runs of several steps -/

theorem steps_succ_of_step {s t : State} (k : Nat) (h : step s = .next t) : steps (k + 1) s = steps k t := by
  rw [steps, h]

/-- A run goes on from where its first part has led. -/
theorem steps_add {a : Nat} {s t : State} (b : Nat) (h : steps a s = .next t) : steps (a + b) s = steps b t := by
  induction a generalizing s with
  | zero => cases h; rw [Nat.zero_add]
  | succ a ih =>
    rw [steps] at h
    rw [Nat.succ_add, steps]
    cases hstep : step s with
    | next u => rw [hstep] at h; exact ih h
    | fault r => rw [hstep] at h; cases h
    | refused r => rw [hstep] at h; cases h

/-- A sequence of states that single steps connect is a run. -/
theorem steps_of_chain (f : Nat → State) (n : Nat) (h : ∀ k < n, step (f k) = .next (f (k + 1))) :
    steps n (f 0) = .next (f n) := by
  induction n with
  | zero => rfl
  | succ n ih =>
    have hinit : steps n (f 0) = .next (f n) := ih fun k hk => h k (by omega)
    rw [steps_add 1 hinit, steps_succ_of_step 0 (h n (by omega)), steps]

/-- With the engine to move, a request under way takes its own step (R9, R137). -/
theorem step_eq_exec {i : Instr} {s : State} (ht : s.turns = []) (hd : decode s.cfg s.rq = .ok i)
    (hidle : s.st ≠ .idle) (hnamed : ∀ k, s.st ≠ .reserved k) : step s = exec i s := by
  have hturn : step s = engineStep s := by simp only [step, turnStep, ht]
  rw [hturn]
  unfold engineStep
  split
  · rename_i k hst; exact absurd hst (hnamed k)
  · rename_i hst; exact absurd hst hidle
  · rw [hd]

/-! ## The frame sender -/

/-- The next bytes of `FB` have been sent: the index stands behind them (R25, R133, log 9). -/
def frameSent (bytes : List Byte) (s : State) : State :=
  { s with
    hi := BitVec.ofNat 8 (sentCount s + bytes.length), hiWraps := (sentCount s + bytes.length) / 256,
    trace := s.trace ++ bytes.map .tx }

/-- `HI` and its wraps are the two digits of the count of bytes sent. -/
theorem hi_eq_ofNat_sentCount (s : State) : s.hi = BitVec.ofNat 8 (sentCount s) := by
  apply BitVec.eq_of_toNat_eq
  have := s.hi.isLt
  rw [BitVec.toNat_ofNat, sentCount]
  omega

theorem hiWraps_eq_sentCount_div (s : State) : s.hiWraps = sentCount s / 256 := by
  have := s.hi.isLt
  rw [sentCount]
  omega

theorem frameSent_singleton (b : Byte) (s : State) : frameSent [b] s = frameByteSent b s := by
  have hhi := hi_eq_ofNat_sentCount (frameByteSent b s)
  have hwraps := hiWraps_eq_sentCount_div (frameByteSent b s)
  rw [sentCount_frameByteSent] at hhi hwraps
  rw [frameSent, List.length_singleton, ← hhi, ← hwraps]
  rfl

theorem frameSent_cons (b : Byte) (bytes : List Byte) (s : State) :
    frameSent (b :: bytes) s = frameSent bytes (frameByteSent b s) := by
  have hcount : sentCount s + (b :: bytes).length = sentCount (frameByteSent b s) + bytes.length := by
    rw [sentCount_frameByteSent, List.length_cons]; omega
  rw [frameSent, hcount, frameSent, frameByteSent_trace, List.append_assoc]
  rfl

/-- In a quiet environment `TX_FRAME` sends the first of the bytes left, and is done when there are no more
(R133). -/
theorem stepTxFrame_of_drop {done : State → State} {s : State} {b : Byte} {rest : List Byte}
    (hw : s.withheld = []) (hleft : s.fb.drop (sentCount s) = b :: rest) :
    stepTxFrame done s = .next (if rest = [] then done (frameByteSent b s) else frameByteSent b s) := by
  have hget : s.fb[sentCount s]? = some b := by
    rw [← Nat.add_zero (sentCount s), ← List.getElem?_drop, hleft]; rfl
  have hlen : s.fb.length - sentCount s = rest.length + 1 := by
    rw [← List.length_drop, hleft, List.length_cons]
  have hmore : sentCount s + 1 < s.fb.length ↔ ¬rest = [] := by
    rw [← List.length_eq_zero_iff]; omega
  rw [stepTxFrame, hget]
  simp only [whenOffered_of_offers (offers_of_withheld_nil .tx hw), sentCount_frameByteSent, hmore, ite_not]

/-- In a quiet environment a request whose `TX_FRAME` goes on with `done` sends all that is left of its frame,
one byte a step, and goes on (R133). -/
theorem steps_txFrame {i : Instr} {done : State → State}
    (hexec : ∀ u : State, u.st = .txFrame → exec i u = stepTxFrame done u) {bytes : List Byte} :
    ∀ {s : State}, quiet s → decode s.cfg s.rq = .ok i → s.st = .txFrame → s.fb.drop (sentCount s) = bytes →
      bytes ≠ [] → steps bytes.length s = .next (done (frameSent bytes s)) := by
  induction bytes with
  | nil => intro s _ _ _ _ hne; exact absurd rfl hne
  | cons b rest ih =>
    intro s hquiet hd hst hleft _
    have ⟨hturns, hwithheld, _⟩ := hquiet
    have hstep : step s = .next (if rest = [] then done (frameByteSent b s) else frameByteSent b s) := by
      rw [step_eq_exec hturns hd (by simp [hst]) (by simp [hst]), hexec s hst, stepTxFrame_of_drop hwithheld hleft]
    rw [List.length_cons, steps_succ_of_step _ hstep]
    by_cases hrest : rest = []
    · subst hrest
      rw [if_pos rfl, frameSent_singleton]
      rfl
    · have hnext : (frameByteSent b s).fb.drop (sentCount (frameByteSent b s)) = rest := by
        rw [sentCount_frameByteSent, frameByteSent_fb, ← List.drop_drop, hleft]; rfl
      rw [if_neg hrest, frameSent_cons, ih (s := frameByteSent b s) hquiet hd hst hnext hrest]

/-! ## The checks of `bitmap` -/

theorem mem_strides_iff (n : Nat) : n ∈ Config.strides ↔ n = 1 ∨ n = 3 ∨ n = 4 := by
  simp [Config.strides]

/-- The area of a picture as a word is the product of its sides as words. -/
theorem ofNat_area (w h : Half) :
    BitVec.ofNat 32 (w.toNat * h.toNat) = w.zeroExtend 32 * h.zeroExtend 32 := by
  rw [BitVec.ofNat_mul, BitVec.ofNat_toNat, BitVec.ofNat_toNat]

/-- The checks in the words of R171: over the numbers the fields hold. -/
theorem bitmapChecks_eq (w h nf : Half) (stride : BitVec 3) (base : Word) :
    bitmapChecks w h nf stride base =
      if ¬(stride.toNat = 1 ∨ stride.toNat = 3 ∨ stride.toNat = 4) then some (.badRequest, 0#32, 4#32)
      else if nf.toNat = 0 then some (.badRequest, 0#32, 5#32)
      else if 255 < w.toNat ∨ 255 < h.toNat then some (.dimensionOverflow, w.zeroExtend 32, h.zeroExtend 32)
      else if ¬8 ∣ w.toNat * h.toNat then some (.invalidDimensions, w.zeroExtend 32 * h.zeroExtend 32, 0#32)
      else if 2 ^ 32 < base.toNat + nf.toNat * w.toNat * h.toNat * stride.toNat then
        some (.badRequest, 0#32, 6#32)
      else none := by
  have hframes : nf = 0#16 ↔ nf.toNat = 0 := BitVec.toNat_inj.symm
  simp only [bitmapChecks, mem_strides_iff, hframes, Config.dimMax, ne_eq, ← Nat.dvd_iff_mod_eq_zero, ofNat_area,
    pixEnd]
  congr

/-- A request whose checks pass has a frame, and its pixels end within the address space (R171). -/
theorem bounds_of_bitmapChecks {w h nf : Half} {stride : BitVec 3} {base : Word}
    (hc : bitmapChecks w h nf stride base = none) : 0 < nf.toNat ∧ pixEnd base nf w h stride ≤ 2 ^ 32 := by
  rw [bitmapChecks_eq] at hc
  split_ifs at hc with _ hframes _ _ hend
  exact ⟨Nat.pos_of_ne_zero hframes, not_lt.mp hend⟩

/-- `CHECK` with nothing held: a check that fails writes its outcome, and the response is next; otherwise the
first frame is (R170, R171). -/
theorem bitmapCheck_of_nothingHeld (w h nf : Half) (stride : BitVec 3) (base : Word) {s : State}
    (hheld : nothingHeld s) :
    bitmapCheck w h nf stride base s = (bitmapChecks w h nf stride base).elim (goto .lock (frameIndex 0#16 s))
      fun (x, v, a) => { s with st := .resp, status := statusCode x, value := v, aux := a } := by
  rcases bitmapCheck_cases w h nf stride base s with ⟨x, v, a, hc, hq⟩ | ⟨hc, hq⟩
  · rw [hq, hc, conclude, epilogueEntry_of_nothingHeld hheld]
    rfl
  · rw [hq, hc]
    rfl

theorem exec_bitmap_check {x0 y0 : Word} {w h : Half} {thr : Byte} {inv : Bool} {stride : BitVec 3} {nf : Half}
    {base : Word} {s : State} (hst : s.st = .check) :
    exec (.bitmap x0 y0 w h thr inv stride nf base) s = .next (bitmapCheck w h nf stride base s) := by
  simp only [exec, execBitmap, hst]

/-- Settles O32: `CHECK` follows the first check that fails, and the checks are those of R171. -/
theorem bitmapChecksInOrder : Obligations.BitmapChecksInOrder := by
  intro x0 y0 w h thr inv stride nf base s hst hheld
  rw [exec_bitmap_check hst, bitmapCheck_of_nothingHeld _ _ _ _ _ hheld, bitmapChecks_eq]
  split_ifs <;> rfl

/-! ## One step of `bitmap` in a quiet environment -/

/-- The `bitmap` request of a picture. -/
def bitmapOf (x0 y0 : Word) (nf : Half) (pic : Picture) : Instr :=
  .bitmap x0 y0 pic.w pic.h pic.thr pic.inv pic.stride nf pic.pixBase

/-- The state with all that `bitmap` writes blanked: states that agree here agree on everything else. -/
def bitmapBlanked (s : State) : State :=
  { s with
    st := .idle, status := 0#4, value := 0#32, aux := 0#32, fb := [], hi := 0#8, hiWraps := 0, txlk := false,
    fr := 0#16, pb := 0#32, pbyte := 0#8, draws := 0, trace := [] }

/-- What a `bitmap` request reads beside its own registers, and the input it does not read, stay as they are. -/
theorem of_bitmapBlanked_eq {s t : State} (h : bitmapBlanked t = bitmapBlanked s) :
    t.pix = s.pix ∧ t.pixChanged = s.pixChanged ∧ t.rx = s.rx :=
  ⟨(congrArg State.pix h :), (congrArg State.pixChanged h :), (congrArg State.rx h :)⟩

/-- What holds all through a `bitmap` request that runs in a quiet environment, its checks passed. -/
structure Drawing (x0 y0 : Word) (nf : Half) (pic : Picture) (s : State) : Prop where
  quiet : quiet s
  request : decode s.cfg s.rq = .ok (bitmapOf x0 y0 nf pic)
  checked : bitmapChecks pic.w pic.h nf pic.stride pic.pixBase = none
  rate : s.baudChg = false
  token : s.excl = false

section Steps
variable {x0 y0 : Word} {nf : Half} {pic : Picture} {s t : State}

/-- The request goes on being drawn while nothing but what it writes changes. -/
theorem Drawing.of_blanked_eq (hs : Drawing x0 y0 nf pic s) (h : bitmapBlanked t = bitmapBlanked s) :
    Drawing x0 y0 nf pic t := by
  have hblank : Drawing x0 y0 nf pic (bitmapBlanked s) := ⟨hs.quiet, hs.request, hs.checked, hs.rate, hs.token⟩
  rw [← h] at hblank
  exact ⟨hblank.quiet, hblank.request, hblank.checked, hblank.rate, hblank.token⟩

theorem Drawing.step_eq_exec (hs : Drawing x0 y0 nf pic s) (hidle : s.st ≠ .idle)
    (hnamed : ∀ k, s.st ≠ .reserved k) : step s = exec (bitmapOf x0 y0 nf pic) s :=
  Machine.step_eq_exec hs.quiet.1 hs.request hidle hnamed

theorem Drawing.offers (hs : Drawing x0 y0 nf pic s) (k : EventKind) : offers s k = true := by
  obtain ⟨_, hwithheld, _⟩ := hs.quiet
  exact offers_of_withheld_nil k hwithheld

/-- `CHECK`: the first frame is next. -/
theorem Drawing.step_check (hs : Drawing x0 y0 nf pic s) (hst : s.st = .check) :
    step s = .next (goto .lock (frameIndex 0#16 s)) := by
  rw [hs.step_eq_exec (by simp [hst]) (by simp [hst]), bitmapOf, exec_bitmap_check hst, bitmapCheck, hs.checked]

/-- The frame's header is loaded under the TX lock, no packed byte sent (R170). -/
def headerLoaded (x0 y0 : Word) (pic : Picture) (s : State) : State :=
  packStarted (loadFrame (bitmapHeader x0 y0 pic.w pic.h) (goto .txFrame (locked s)))

/-- `LOCK`: the lock is free. -/
theorem Drawing.step_lock (hs : Drawing x0 y0 nf pic s) (hst : s.st = .lock) :
    step s = .next (headerLoaded x0 y0 pic s) := by
  obtain ⟨_, _, hfree⟩ := hs.quiet
  rw [hs.step_eq_exec (by simp [hst]) (by simp [hst])]
  simp only [exec, bitmapOf, execBitmap, hst, stepLock, hs.offers .lock, hfree]
  rfl

/-- The step at which `k` packed bytes of a frame have been sent. -/
def packingStep (pic : Picture) (k : Nat) : St := if k < packedBytes pic.w pic.h then .pkData else .unlock

/-- The header has been sent. -/
def headerSent (x0 y0 : Word) (pic : Picture) (s : State) : State :=
  frameSent (bitmapHeader x0 y0 pic.w pic.h) (headerLoaded x0 y0 pic s)

/-- `TX_FRAME`: the six header bytes. -/
theorem Drawing.steps_header (hs : Drawing x0 y0 nf pic s) :
    steps 6 (headerLoaded x0 y0 pic s) = .next (goto (packingStep pic 0) (headerSent x0 y0 pic s)) :=
  steps_txFrame (i := bitmapOf x0 y0 nf pic) (done := goto (packingStep pic 0))
    (bytes := bitmapHeader x0 y0 pic.w pic.h)
    (fun u hu => by simp only [exec, bitmapOf, execBitmap, hu, packingStep])
    hs.quiet hs.request rfl rfl (List.cons_ne_nil _ _)

/-- `PBYTE` is the packed byte at `PB`, it is sent, and `PB` advances (R170). -/
def bytePacked (pic : Picture) (s : State) : State :=
  drawn (8 * pic.stride.toNat) (packedByteSent (packByte pic s s.fr.toNat s.pb.toNat) s)

/-- The pixels of a packed byte of a frame the request has end before the request's pixels do (R61, R63). -/
theorem packEnd_le_pixEnd {f j : Nat} (hf : f < nf.toNat) (hj : j < packedBytes pic.w pic.h) :
    packEnd pic f j ≤ pixEnd pic.pixBase nf pic.w pic.h pic.stride := by
  have hpixels : 8 * j + 8 ≤ pic.w.toNat * pic.h.toNat := by unfold packedBytes at hj; omega
  have hframes : f * pic.w.toNat * pic.h.toNat + (8 * j + 8) ≤ nf.toNat * pic.w.toNat * pic.h.toNat :=
    calc f * pic.w.toNat * pic.h.toNat + (8 * j + 8)
        ≤ f * pic.w.toNat * pic.h.toNat + pic.w.toNat * pic.h.toNat := Nat.add_le_add_left hpixels _
      _ = (f + 1) * (pic.w.toNat * pic.h.toNat) := by ring
      _ ≤ nf.toNat * (pic.w.toNat * pic.h.toNat) := Nat.mul_le_mul_right _ hf
      _ = nf.toNat * pic.w.toNat * pic.h.toNat := (Nat.mul_assoc ..).symm
  exact Nat.add_le_add_left (Nat.mul_le_mul_right _ hframes) _

/-- `PK_DATA`: one packed byte. -/
theorem Drawing.step_pkData (hs : Drawing x0 y0 nf pic s) (hst : s.st = .pkData) (hfr : s.fr.toNat < nf.toNat)
    (hpb : s.pb.toNat < packedBytes pic.w pic.h) :
    step s = .next (goto (packingStep pic (s.pb + 1#32).toNat) (bytePacked pic s)) := by
  have hend : ¬2 ^ 32 < packEnd pic s.fr.toNat s.pb.toNat :=
    not_lt.mpr ((packEnd_le_pixEnd hfr hpb).trans (bounds_of_bitmapChecks hs.checked).2)
  rw [hs.step_eq_exec (by simp [hst]) (by simp [hst])]
  simp only [exec, bitmapOf, execBitmap, hst, stepPkData]
  rw [if_neg hend, whenOffered_of_offers (hs.offers .tx)]
  rfl

/-- `UNLOCK`: the frame's end (R170). -/
theorem Drawing.step_unlock (hs : Drawing x0 y0 nf pic s) (hst : s.st = .unlock) :
    step s = stepFrameUnlock nf s := by
  rw [hs.step_eq_exec (by simp [hst]) (by simp [hst])]
  simp only [exec, bitmapOf, execBitmap, hst]

/-- `RESP`: the response. -/
theorem Drawing.step_resp (hs : Drawing x0 y0 nf pic s) (hst : s.st = .resp) : step s = .next (responded s) := by
  rw [hs.step_eq_exec (by simp [hst]) (by simp [hst])]
  simp only [exec, bitmapOf, execBitmap, hst, stepEpilogue]
  exact whenOffered_of_offers (hs.offers .respond)

/-! ## One frame -/

/-- Packed byte `j` of the frame `FR`, as the `j`-th packed from `s` on: a free value in it is a draw numbered on
from there (R64, log 8). -/
def frameByte (pic : Picture) (s : State) (j : Nat) : Byte :=
  packByte pic { s with draws := s.draws + 8 * pic.stride.toNat * j } s.fr.toNat j

/-- The first `k` packed bytes of the frame `FR` have been sent (R170, R175). -/
def bytesPacked (pic : Picture) (k : Nat) (s : State) : State :=
  { s with
    pbyte := if k = 0 then s.pbyte else frameByte pic s (k - 1), pb := BitVec.ofNat 32 k,
    draws := s.draws + 8 * pic.stride.toNat * k,
    trace := s.trace ++ (List.range k).map fun j => .tx (frameByte pic s j) }

theorem bytesPacked_zero (hpb : s.pb = 0#32) : bytesPacked pic 0 s = s := by
  cases s
  cases hpb
  simp [bytesPacked]

/-- One packed byte more. -/
theorem bytePacked_bytesPacked {k : Nat} (hk : k < 2 ^ 32) :
    bytePacked pic (bytesPacked pic k s) = bytesPacked pic (k + 1) s := by
  have hindex : (BitVec.ofNat 32 k).toNat = k := Nat.mod_eq_of_lt hk
  have hbyte : packByte pic (bytesPacked pic k s) s.fr.toNat k = frameByte pic s k := rfl
  have hpb : BitVec.ofNat 32 k + 1#32 = BitVec.ofNat 32 (k + 1) := (BitVec.ofNat_add k 1).symm
  have hdraws : s.draws + 8 * pic.stride.toNat * k + 8 * pic.stride.toNat =
      s.draws + 8 * pic.stride.toNat * (k + 1) := by ring
  have htrace : (s.trace ++ (List.range k).map fun j => Event.tx (frameByte pic s j)) ++
      [.tx (frameByte pic s k)] = s.trace ++ (List.range (k + 1)).map fun j => .tx (frameByte pic s j) := by
    rw [List.range_succ, List.map_append, List.append_assoc]; rfl
  calc bytePacked pic (bytesPacked pic k s)
      = { s with
          pbyte := packByte pic (bytesPacked pic k s) s.fr.toNat (BitVec.ofNat 32 k).toNat,
          pb := BitVec.ofNat 32 k + 1#32,
          draws := s.draws + 8 * pic.stride.toNat * k + 8 * pic.stride.toNat,
          trace := (s.trace ++ (List.range k).map fun j => Event.tx (frameByte pic s j)) ++
            [.tx (packByte pic (bytesPacked pic k s) s.fr.toNat (BitVec.ofNat 32 k).toNat)] } := rfl
    _ = bytesPacked pic (k + 1) s := by rw [hindex, hbyte, hpb, hdraws, htrace]; rfl

/-- No frame has more packed bytes than `PB` counts. -/
theorem packedBytes_lt (w h : Half) : packedBytes w h < 2 ^ 32 := by
  have hsize : w.toNat * h.toNat < 2 ^ 16 * 2 ^ 16 := Nat.mul_lt_mul'' w.isLt h.isLt
  unfold packedBytes
  omega

/-- `PK_DATA` after `k` packed bytes of the frame: the next one. -/
theorem Drawing.step_after_bytesPacked (hs : Drawing x0 y0 nf pic s) (hfr : s.fr.toNat < nf.toNat) {k : Nat}
    (hk : k < packedBytes pic.w pic.h) :
    step (goto .pkData (bytesPacked pic k s)) =
      .next (goto (packingStep pic (k + 1)) (bytesPacked pic (k + 1) s)) := by
  have hbound : k + 1 < 2 ^ 32 := by have := packedBytes_lt pic.w pic.h; omega
  have hindex : (BitVec.ofNat 32 k).toNat = k := Nat.mod_eq_of_lt (by omega)
  have hnext : (BitVec.ofNat 32 k + 1#32).toNat = k + 1 := by
    rw [← BitVec.ofNat_add]; exact Nat.mod_eq_of_lt hbound
  have hat : Drawing x0 y0 nf pic (goto .pkData (bytesPacked pic k s)) := hs.of_blanked_eq rfl
  rw [← bytePacked_bytesPacked (by omega), ← hnext]
  exact hat.step_pkData rfl hfr (hindex.trans_lt hk)

/-- `PK_DATA`: all packed bytes of the frame, in order, one a step (R170, R175). -/
theorem Drawing.steps_packed (hs : Drawing x0 y0 nf pic s) (hfr : s.fr.toNat < nf.toNat) (hpb : s.pb = 0#32) :
    steps (packedBytes pic.w pic.h) (goto (packingStep pic 0) s) =
      .next (goto .unlock (bytesPacked pic (packedBytes pic.w pic.h) s)) := by
  have hlast : packingStep pic (packedBytes pic.w pic.h) = .unlock := if_neg (lt_irrefl _)
  have hrun := steps_of_chain (fun k => goto (packingStep pic k) (bytesPacked pic k s)) (packedBytes pic.w pic.h)
    fun k hk => by
      have hmore : packingStep pic k = .pkData := if_pos hk
      rw [hmore, hs.step_after_bytesPacked hfr hk]
  rwa [bytesPacked_zero hpb, hlast] at hrun

/-- The events of one frame, its packed bytes given by their index (R175). -/
def frameEvents (x0 y0 : Word) (pic : Picture) (byte : Nat → Byte) : List Event :=
  [.lock] ++ (bitmapHeader x0 y0 pic.w pic.h).map .tx ++
    (List.range (packedBytes pic.w pic.h)).map (fun j => .tx (byte j)) ++ [.unlock]

/-- The frames sent so far: `FR` of them. While one is left its `LOCK` is next, after the last one the response
`OK(NF, 0)` (R170, R176). -/
structure AfterFrame (nf : Half) (s : State) : Prop where
  unheld : s.txlk = false
  more : s.fr.toNat < nf.toNat → s.st = .lock
  last : s.fr.toNat = nf.toNat → s.st = .resp ∧ s.status = 0#4 ∧ s.value = nf.zeroExtend 32 ∧ s.aux = 0#32

/-- `UNLOCK` ends the frame `FR`: the next one is next, or the response (R170). -/
theorem Drawing.step_unlock_ends_frame (hs : Drawing x0 y0 nf pic s) (hst : s.st = .unlock)
    (hfr : s.fr.toNat < nf.toNat) :
    ∃ t, step s = .next t ∧ t.trace = s.trace ++ [.unlock] ∧ bitmapBlanked t = bitmapBlanked s ∧
      t.pb = s.pb ∧ t.fr.toNat = s.fr.toNat + 1 ∧ AfterFrame nf t := by
  have hindex : (s.fr + 1#16).toNat = s.fr.toNat + 1 := by
    have := nf.isLt
    exact BitVec.toNat_add_of_lt (by simp; omega)
  rw [hs.step_unlock hst]
  rcases stepFrameUnlock_cases nf s with ⟨hmore, hq⟩ | ⟨hlast, hq⟩
  · exact ⟨_, hq, rfl, rfl, rfl, hindex,
      ⟨rfl, fun _ => rfl, fun h => absurd (hindex.symm.trans h) hmore.ne⟩⟩
  · have hheld : nothingHeld (frameIndex (s.fr + 1#16) (unlocked s)) := ⟨rfl, hs.rate, hs.token⟩
    exact ⟨_, hq, rfl, rfl, rfl, hindex,
      ⟨rfl, fun h => absurd (hindex.symm.trans_lt h) hlast.not_gt,
        fun _ => ⟨epilogueEntry_of_nothingHeld hheld, rfl, rfl, rfl⟩⟩⟩

/-- The state at the `UNLOCK` of the frame that was at its `LOCK` in `s`: the whole frame sent (R175). -/
def frameDrawn (x0 y0 : Word) (pic : Picture) (s : State) : State :=
  goto .unlock (bytesPacked pic (packedBytes pic.w pic.h) (headerSent x0 y0 pic s))

theorem frameDrawn_trace (x0 y0 : Word) (pic : Picture) (s : State) :
    (frameDrawn x0 y0 pic s).trace ++ [.unlock] = s.trace ++ frameEvents x0 y0 pic (frameByte pic s) := by
  have hbefore : (frameDrawn x0 y0 pic s).trace =
      s.trace ++ [.lock] ++ (bitmapHeader x0 y0 pic.w pic.h).map .tx ++
        (List.range (packedBytes pic.w pic.h)).map fun j => .tx (frameByte pic s j) := rfl
  simp only [hbefore, frameEvents, List.append_assoc]

/-- From a frame's `LOCK` to its `UNLOCK`. -/
theorem Drawing.steps_to_unlock (hs : Drawing x0 y0 nf pic s) (hst : s.st = .lock) (hfr : s.fr.toNat < nf.toNat) :
    steps (7 + packedBytes pic.w pic.h) s = .next (frameDrawn x0 y0 pic s) := by
  have hheader : Drawing x0 y0 nf pic (headerSent x0 y0 pic s) := hs.of_blanked_eq rfl
  have hlock : steps 1 s = .next (headerLoaded x0 y0 pic s) := by
    rw [steps_succ_of_step 0 (hs.step_lock hst), steps]
  rw [show 7 = 1 + 6 from rfl, Nat.add_assoc, steps_add _ hlock, steps_add _ hs.steps_header]
  exact hheader.steps_packed hfr rfl

/-- One frame of `bitmap`, from its `LOCK` (R170, R175). -/
theorem Drawing.steps_frame (hs : Drawing x0 y0 nf pic s) (hst : s.st = .lock) (hfr : s.fr.toNat < nf.toNat) :
    ∃ t, steps (8 + packedBytes pic.w pic.h) s = .next t ∧
      t.trace = s.trace ++ frameEvents x0 y0 pic (frameByte pic s) ∧ bitmapBlanked t = bitmapBlanked s ∧
      t.pb.toNat = packedBytes pic.w pic.h ∧ t.fr.toNat = s.fr.toNat + 1 ∧ AfterFrame nf t := by
  have hdrawn : Drawing x0 y0 nf pic (frameDrawn x0 y0 pic s) := hs.of_blanked_eq rfl
  obtain ⟨t, hstep, htrace, hblank, hpb, hindex, hafter⟩ := hdrawn.step_unlock_ends_frame rfl hfr
  refine ⟨t, ?_, htrace.trans (frameDrawn_trace x0 y0 pic s), hblank, ?_, hindex, hafter⟩
  · rw [show 8 + packedBytes pic.w pic.h = 7 + packedBytes pic.w pic.h + 1 by omega,
      steps_add 1 (hs.steps_to_unlock hst hfr), steps_succ_of_step 0 hstep, steps]
  · rw [hpb]
    exact Nat.mod_eq_of_lt (packedBytes_lt pic.w pic.h)

/-! ## The whole request -/

/-- Where the caller has changed no byte, a packed byte depends on the pixel memory alone (R64). -/
theorem frameByte_of_unchanged (hs : s.pixChanged = []) (ht : t.pixChanged = []) (hpix : t.pix = s.pix)
    (j : Nat) : frameByte pic t j = packByte pic s t.fr.toNat j := by
  simp only [frameByte, packByte, pixelLevel, stableRead, hs, ht, hpix, List.not_mem_nil, if_false]

/-- The first `f` frames sent from `s` on: `t` is the state after them. -/
structure FramesSent (x0 y0 : Word) (nf : Half) (pic : Picture) (s : State) (f : Nat) (t : State) : Prop where
  index : t.fr.toNat = f
  trace : t.trace = s.trace ++
    (List.range f).flatMap fun g => frameEvents x0 y0 pic (packByte pic s g)
  blanked : bitmapBlanked t = bitmapBlanked s
  after : AfterFrame nf t

/-- The frames one by one, none skipped (R176). -/
theorem Drawing.steps_frames (hs : Drawing x0 y0 nf pic s) (hfresh : s.pixChanged = [])
    (hstart : FramesSent x0 y0 nf pic s 0 s) (f : Nat) (hf : f ≤ nf.toNat) :
    ∃ t, steps (f * (8 + packedBytes pic.w pic.h)) s = .next t ∧ FramesSent x0 y0 nf pic s f t := by
  induction f with
  | zero => exact ⟨s, by rw [Nat.zero_mul, steps], hstart⟩
  | succ f ih =>
    obtain ⟨t, hrun, hsent⟩ := ih (by omega)
    have ht : Drawing x0 y0 nf pic t := hs.of_blanked_eq hsent.blanked
    have hleft : t.fr.toNat < nf.toNat := hsent.index.trans_lt hf
    obtain ⟨u, hframe, htrace, hblank, _, hindex, hafter⟩ := ht.steps_frame (hsent.after.more hleft) hleft
    obtain ⟨hpix, hchanged, _⟩ := of_bitmapBlanked_eq hsent.blanked
    have hbytes : frameByte pic t = packByte pic s f := by
      funext j
      rw [frameByte_of_unchanged hfresh (hchanged.trans hfresh) hpix, hsent.index]
    refine ⟨u, ?_, hindex.trans (by rw [hsent.index]), ?_, hblank.trans hsent.blanked, hafter⟩
    · rw [Nat.succ_mul, steps_add _ hrun, hframe]
    · rw [htrace, hsent.trace, hbytes, List.range_succ, List.flatMap_append, List.append_assoc]
      rw [List.flatMap_singleton]

/-- The whole request from its first `LOCK`, at frame 0: all its frames, then the response (R170, R176). -/
theorem Drawing.steps_request (hs : Drawing x0 y0 nf pic s) (hfresh : s.pixChanged = []) (hst : s.st = .lock)
    (hunheld : s.txlk = false) (hfr : s.fr = 0#16) :
    ∃ t, steps (nf.toNat * (8 + packedBytes pic.w pic.h) + 1) s = .next t ∧ t.st = .idle ∧ t.txlk = false ∧
      bitmapBlanked t = bitmapBlanked s ∧
      t.trace = s.trace ++
        (List.range nf.toNat).flatMap (fun f => frameEvents x0 y0 pic (packByte pic s f)) ++
        [.respond 0#4 (nf.zeroExtend 32) 0#32] := by
  have hzero : s.fr.toNat = 0 := by rw [hfr]; rfl
  have hsome : 0 < nf.toNat := (bounds_of_bitmapChecks hs.checked).1
  have hstart : FramesSent x0 y0 nf pic s 0 s :=
    ⟨hzero, (List.append_nil _).symm, rfl,
      ⟨hunheld, fun _ => hst, fun h => absurd (hzero.symm.trans h) hsome.ne⟩⟩
  obtain ⟨t, hrun, hsent⟩ := hs.steps_frames hfresh hstart nf.toNat le_rfl
  obtain ⟨hresp, hstatus, hvalue, haux⟩ := hsent.after.last hsent.index
  have ht : Drawing x0 y0 nf pic t := hs.of_blanked_eq hsent.blanked
  refine ⟨responded t, ?_, rfl, hsent.after.unheld, hsent.blanked, ?_⟩
  · rw [steps_add 1 hrun, steps_succ_of_step 0 (ht.step_resp hresp), steps]
  · rw [responded_trace, hstatus, hvalue, haux, hsent.trace]

end Steps

/-- Settles O34: `CHECK` starts frame 0, and from there the frames follow by induction on their number. -/
theorem bitmapSendsEveryFrame : Obligations.BitmapSendsEveryFrame := by
  intro x0 y0 w h thr inv stride nf base s hst hc
  refine ⟨?_, fun hquiet ⟨hunheld, hrate, htoken⟩ hfresh hd => ?_⟩
  · rw [exec_bitmap_check hst, bitmapCheck, hc]
    rfl
  · have hs : Drawing x0 y0 nf ⟨w, h, thr, inv, stride, base⟩ s := ⟨hquiet, hd, hc, hrate, htoken⟩
    have hfirst : Drawing x0 y0 nf ⟨w, h, thr, inv, stride, base⟩ (goto .lock (frameIndex 0#16 s)) :=
      hs.of_blanked_eq rfl
    obtain ⟨t, hrun, hidle, hlock, hblank, htrace⟩ := hfirst.steps_request hfresh rfl hunheld rfl
    obtain ⟨_, _, hrx⟩ := of_bitmapBlanked_eq hblank
    have ht : Drawing x0 y0 nf ⟨w, h, thr, inv, stride, base⟩ t := hfirst.of_blanked_eq hblank
    refine ⟨t, ?_, hidle, ⟨hlock, ht.rate, ht.token⟩, hrx, htrace⟩
    rw [Nat.add_comm 2, steps_succ_of_step _ (hs.step_check hst), ← hrun]

end Sys2Proof.Machine
end

section
/-! PROOFS. The statements of 60_exceptions.md: what a reading step does at the end of input (R262) and what an
upload does with a wrong ready byte (R263) and with a wrong echo (R264). -/
namespace Sys2Proof.Machine

/-! ## Reading steps in an environment that withholds nothing -/

/-- With no byte held and end of input signalled, a read delivers `END` and consumes nothing (R271). -/
theorem receive_of_end {s : State} (hoffer : s.withheld = []) (hrx : s.rx = []) (hend : s.rxEnd = true) :
    receive s = some (none, emit (.rx none) s) := by
  simp [receive, offers_of_withheld_nil .rx hoffer, hrx, hend]

/-- With exclusivity kept, a read delivers the oldest byte held (R72). -/
theorem receive_of_byte {s : State} {b : Byte} {rest : List Byte} (hoffer : s.withheld = [])
    (htap : s.tapped = false) (hrx : s.rx = b :: rest) :
    receive s = some (some b, rxDelivered b rest s) := by
  simp [receive, offers_of_withheld_nil .rx hoffer, hrx, htap]

/-- An outcome under the TX lock starts the epilogue at `UNLOCK` (R204, R271). -/
theorem conclude_of_txlk {s : State} (x : Status) (v a : Word) (hlock : s.txlk = true) :
    conclude x v a s = { s with st := .unlock, status := statusCode x, value := v, aux := a } := by
  simp [conclude, epilogueEntry, hlock]

/-- A reading step that raises on `END`, at the end of input in the phase `p` and under the lock (R262). -/
theorem stepRx_of_end {s : State} {g : Byte → State → State} {p : BitVec 2} (v : Word) (hphase : s.rph = p)
    (hlock : s.txlk = true) (hoffer : s.withheld = []) (hrx : s.rx = []) (hend : s.rxEnd = true) :
    stepRx s (raise .truncatedRead v (s.rph.zeroExtend 32)) g = .next { s with
      st := .unlock, status := 2#4, value := v, aux := p.zeroExtend 32, trace := s.trace ++ [.rx none] } := by
  have htaken : (emit (.rx none) s).txlk = true := hlock
  rw [stepRx, receive_of_end hoffer hrx hend, ← hphase]
  exact congrArg Host.Outcome.next (conclude_of_txlk .truncatedRead v _ htaken)

/-- A wrong byte in `RX_READY` rejects the upload (R211, R263). -/
theorem stepRxReady_of_wrong {s : State} {r : Byte} {rest : List Byte} (len : Word) (hoffer : s.withheld = [])
    (htap : s.tapped = false) (hrx : s.rx = r :: rest) (hwrong : r ≠ Config.ready) :
    stepRxReady len s =
      .next (conclude .uploadRejected (r.zeroExtend 32) 0#32 (rxDelivered r rest s)) := by
  simp only [stepRxReady, stepRx, receive_of_byte hoffer htap hrx, if_pos hwrong, raise_eq]

/-- A wrong echo in `UP_ECHO` ends the upload (R211, R264). -/
theorem stepUpEcho_of_wrong {s : State} {e : Byte} {rest : List Byte} (hoffer : s.withheld = [])
    (htap : s.tapped = false) (hrx : s.rx = e :: rest) (hwrong : e ≠ s.last) :
    stepUpEcho s = .next (conclude .uploadDesync (s.idx - 1#32)
      ((s.last.zeroExtend 32 <<< 8) ||| e.zeroExtend 32) (rxDelivered e rest s)) := by
  simp only [stepUpEcho, stepRx, receive_of_byte hoffer htap hrx, if_pos hwrong, raise_eq]

/-! ## Which reading step a request takes -/

/-- `RX_LEN` of every request that has a length field (R134); how it goes on after a byte is the request's. -/
theorem exec_rxLen {i : Instr} {s : State} (hw : 0 < lengthWidth i) (hst : s.st = .rxLen) :
    ∃ done, exec i s = stepRxLen done s := by
  cases i with
  | dlfile elev ps => simp only [exec, execDlfile, download, hst]; exact ⟨_, rfl⟩
  | dlfs elev ps => simp only [exec, execDlfs, download, hst]; exact ⟨_, rfl⟩
  | ls ps => simp only [exec, execLs, hst]; exact ⟨_, rfl⟩
  | free ps => simp only [exec, execFree, hst]; exact ⟨_, rfl⟩
  | _ => exact absurd hw (Nat.lt_irrefl 0)

/-- `RX_DATA` of every request that reads a payload (R135). -/
theorem exec_rxData {i : Instr} {s : State} {n count : Word} (hp : payloadCount i n = some count)
    (hst : s.st = .rxData) : exec i s = stepRxData s := by
  cases i with
  | dlfile elev ps => simp only [exec, execDlfile, download, hst]
  | dlfs elev ps => simp only [exec, execDlfs, download, hst]
  | ls ps => simp only [exec, execLs, hst]
  | _ => nomatch hp

/-- `RX_READY` of an upload (R211). -/
theorem exec_rxReady {i : Instr} {s : State} {len : Word} (hu : uploadLen i = some len) (hst : s.st = .rxReady) :
    exec i s = stepRxReady len s := by
  cases i with
  | upfont ps base n => cases hu; simp only [exec, execUpfont, upload, hst]
  | upfs ps base n => cases hu; simp only [exec, execUpfs, upload, hst]
  | _ => nomatch hu

/-- `UP_ECHO` of an upload (R211). -/
theorem exec_upEcho {i : Instr} {s : State} {len : Word} (hu : uploadLen i = some len) (hst : s.st = .upEcho) :
    exec i s = stepUpEcho s := by
  cases i with
  | upfont ps base n => simp only [exec, execUpfont, upload, hst]
  | upfs ps base n => simp only [exec, execUpfs, upload, hst]
  | _ => nomatch hu

/-- Both uploads carry the length of their payload. -/
theorem uploadLen_of_upload {i : Instr} {ps : List Word} {base len : Word}
    (h : i = .upfont ps base len ∨ i = .upfs ps base len) : uploadLen i = some len := by
  rcases h with rfl | rfl <;> rfl

/-! ## What the invariant says at the reading steps -/

section
variable {i : Instr} {s : State}

/-- The invariant of a request that decodes holds at its step. -/
theorem Inv.request (h : Inv s) (hd : decode s.cfg s.rq = .ok i) : requestInv i s := by
  obtain ⟨_, _, _, _, hstep⟩ := h
  exact (stepInv_iff hd).mp hstep

/-- In `RX_LEN` the lock is held and the field is not complete, in phase 0 (R26, R29). -/
theorem Inv.at_rxLen (h : Inv s) (hd : decode s.cfg s.rq = .ok i) (hst : s.st = .rxLen) :
    s.txlk = true ∧ s.lenW.toNat = lengthWidth i ∧ s.lenIdx.toNat < lengthWidth i ∧ s.rph = 0#2 := by
  have hreq := h.request hd
  simp only [requestInv, hst] at hreq
  obtain ⟨⟨hlock, _, _⟩, hwidth, hidx, hphase, _⟩ := hreq
  exact ⟨hlock, hwidth, hidx, hphase⟩

/-- In `RX_DATA` the lock is held and a payload byte is still to come, in phase 1 (R28, R29, R30). -/
theorem Inv.at_rxData (h : Inv s) (hd : decode s.cfg s.rq = .ok i) (hst : s.st = .rxData) :
    s.txlk = true ∧ (∃ count, payloadCount i s.n = some count ∧ s.idx.toNat < count.toNat) ∧ s.rph = 1#2 := by
  have hreq := h.request hd
  simp only [requestInv, hst] at hreq
  obtain ⟨⟨hlock, _, _⟩, ⟨hrem, count, hcount, hsplit⟩, hphase⟩ := hreq
  have hpos : 0 < s.rem.toNat := Nat.pos_of_ne_zero fun h0 => hrem (BitVec.eq_of_toNat_eq h0)
  exact ⟨hlock, ⟨count, hcount, by omega⟩, hphase⟩

/-- In `RX_READY` an upload holds the lock and has sent no payload byte, in phase 2 (R29, R30). -/
theorem Inv.at_rxReady (h : Inv s) (hd : decode s.cfg s.rq = .ok i) (hst : s.st = .rxReady) :
    s.txlk = true ∧ (∃ len, uploadLen i = some len) ∧ s.idx = 0#32 ∧ s.rph = 2#2 := by
  have hreq := h.request hd
  simp only [requestInv, hst] at hreq
  obtain ⟨_, ⟨hlock, _, _⟩, hupload, hclear, hphase⟩ := hreq
  obtain ⟨hidx, _⟩ := hclear hupload
  exact ⟨hlock, Option.ne_none_iff_exists'.mp hupload, hidx, hphase⟩

/-- In `UP_ECHO` an upload holds the lock and has one byte sent and not confirmed, in phase 3 (R29, R30). -/
theorem Inv.at_upEcho (h : Inv s) (hd : decode s.cfg s.rq = .ok i) (hst : s.st = .upEcho) :
    s.txlk = true ∧ (∃ len, uploadLen i = some len) ∧ s.idx.toNat = s.acked.toNat + 1 ∧ s.rph = 3#2 := by
  have hreq := h.request hd
  simp only [requestInv, hst] at hreq
  obtain ⟨_, ⟨hlock, _, _⟩, ⟨len, hlen, _, hone⟩, hphase⟩ := hreq
  exact ⟨hlock, ⟨len, hlen⟩, hone, hphase⟩

end

/-- The byte not confirmed has the index `ACKED` (R30, R264). -/
theorem idx_sub_one_eq_acked {idx acked : Word} (h : idx.toNat = acked.toNat + 1) : idx - 1#32 = acked := by
  bv_omega

/-- `LAST << 8 | e` is the number whose two bytes are `LAST` and `e` (R264). -/
theorem desyncAux_toNat (last e : Byte) :
    ((last.zeroExtend 32 <<< 8) ||| e.zeroExtend 32).toNat = 256 * last.toNat + e.toNat := by
  have hlast := last.isLt
  have he := e.isLt
  have hhigh : (last.zeroExtend 32 <<< 8).toNat = last.toNat <<< 8 := by
    rw [BitVec.toNat_shiftLeft, BitVec.toNat_setWidth_of_le (by decide)]
    exact Nat.mod_eq_of_lt (by rw [Nat.shiftLeft_eq]; omega)
  calc ((last.zeroExtend 32 <<< 8) ||| e.zeroExtend 32).toNat
      = last.toNat <<< 8 ||| e.toNat := by
        rw [BitVec.toNat_or, hhigh, BitVec.toNat_setWidth_of_le (by decide)]
    _ = last.toNat <<< 8 + e.toNat := (Nat.shiftLeft_add_eq_or_of_lt he last.toNat).symm
    _ = 256 * last.toNat + e.toNat := by rw [Nat.shiftLeft_eq]; omega

/-! ## The obligations -/

/-- Settles O41: at each reading step the invariant gives the count's range and the phase code, and the end of
input is one and the same exception. -/
theorem endOfInputRaisesTruncatedRead : Obligations.EndOfInputRaisesTruncatedRead := by
  intro i s hinv hd hoffer hrx hend
  refine ⟨fun hst => ?rxLen, fun hst => ?rxData, fun hst => ?rxReady, fun hst => ?upEcho⟩
  case rxLen =>
    obtain ⟨hlock, hwidth, hidx, hphase⟩ := hinv.at_rxLen hd hst
    obtain ⟨done, hexec⟩ := exec_rxLen (Nat.zero_lt_of_lt hidx) hst
    refine ⟨hidx.trans_eq hwidth.symm, ?_⟩
    rw [hexec, stepRxLen]
    exact stepRx_of_end _ hphase hlock hoffer hrx hend
  case rxData =>
    obtain ⟨hlock, ⟨count, hcount, hidx⟩, hphase⟩ := hinv.at_rxData hd hst
    refine ⟨⟨count, hcount, hidx⟩, ?_⟩
    rw [exec_rxData hcount hst, stepRxData]
    exact stepRx_of_end _ hphase hlock hoffer hrx hend
  case rxReady =>
    obtain ⟨hlock, ⟨len, hlen⟩, _, hphase⟩ := hinv.at_rxReady hd hst
    rw [exec_rxReady hlen hst, stepRxReady]
    exact stepRx_of_end _ hphase hlock hoffer hrx hend
  case upEcho =>
    obtain ⟨hlock, ⟨len, hlen⟩, hone, hphase⟩ := hinv.at_upEcho hd hst
    refine ⟨hone, ?_⟩
    rw [exec_upEcho hlen hst, stepUpEcho, idx_sub_one_eq_acked hone]
    exact stepRx_of_end _ hphase hlock hoffer hrx hend

/-- Settles O44: before the ready byte no payload byte is sent, and a wrong one is the exception. -/
theorem wrongReadyByteRejectsUpload : Obligations.WrongReadyByteRejectsUpload := by
  intro i ps base len s r rest hi hinv hd hst hoffer htap hrx hwrong
  obtain ⟨hlock, _, hidx, _⟩ := hinv.at_rxReady hd hst
  have htaken : (rxDelivered r rest s).txlk = true := hlock
  refine ⟨hidx, ?_⟩
  rw [exec_rxReady (uploadLen_of_upload hi) hst, stepRxReady_of_wrong len hoffer htap hrx hwrong,
    conclude_of_txlk _ _ _ htaken]
  rfl

/-- Settles O45: the byte at `ACKED` is the one sent and not confirmed, and a wrong echo of it is the exception. -/
theorem wrongEchoDesyncsUpload : Obligations.WrongEchoDesyncsUpload := by
  intro i ps base len s e rest hi hinv hd hst hoffer htap hrx hwrong
  obtain ⟨hlock, _, hone, _⟩ := hinv.at_upEcho hd hst
  have htaken : (rxDelivered e rest s).txlk = true := hlock
  refine ⟨hone, _, (exec_upEcho (uploadLen_of_upload hi) hst).trans (stepUpEcho_of_wrong hoffer htap hrx hwrong),
    ?_⟩
  rw [conclude_of_txlk _ _ _ htaken, idx_sub_one_eq_acked hone]
  exact ⟨rfl, rfl, rfl, desyncAux_toNat s.last e, rfl, rfl, rfl, rfl⟩

end Sys2Proof.Machine
end

section
/-! PROOFS. The statements of 30_encoding.md about the encoder, the decoder and the opcode table (R91 to R118),
and of 00_scope.md about little-endian fields (R12). -/
namespace Sys2Proof.Machine

open Sys2Proof.Laws

/-! ## The fields of an encoded word -/

section
variable (thr opcode : Byte) (stride : BitVec 3) (inv elev : Bool) (code : BitVec 4)

theorem packW0_elev : (packW0 thr opcode stride inv elev code).getLsbD 4 = elev := by
  simp only [packW0, BitVec.getLsbD_append]
  simp

theorem packW0_inv : (packW0 thr opcode stride inv elev code).getLsbD 5 = inv := by
  simp only [packW0, BitVec.getLsbD_append]
  simp

theorem packW0_stride : (packW0 thr opcode stride inv elev code).extractLsb' 6 3 = stride := by
  rw [packW0]
  simp (disch := decide) only [BitVec.extractLsb'_append_eq_of_le, BitVec.extractLsb'_append_eq_right,
    Nat.reduceSub]

theorem packW0_opcode : (packW0 thr opcode stride inv elev code).extractLsb' 16 8 = opcode := by
  rw [packW0]
  simp (disch := decide) only [BitVec.extractLsb'_append_eq_of_le, BitVec.extractLsb'_append_eq_right,
    Nat.reduceSub]

theorem packW0_thr : (packW0 thr opcode stride inv elev code).extractLsb' 24 8 = thr := by
  rw [packW0]
  simp (disch := decide) only [BitVec.extractLsb'_append_eq_of_le, BitVec.extractLsb'_eq_self, Nat.reduceSub]

end

/-! ## The encoder's common fields -/

/-- For every request the encoder writes its code and leaves the reserved bits 0 (R91, R92). -/
theorem encode_code_reserved : ∀ i : Instr, EncodedWord.Statement i
  | .cmd op ps => EncodedWord.cmd op ps
  | .bitmap x0 y0 w h thr inv stride nf base => EncodedWord.bitmap x0 y0 w h thr inv stride nf base
  | .dlfile elev ps => EncodedWord.dlfile elev ps
  | .dlfs elev ps => EncodedWord.dlfs elev ps
  | .upfont ps base len => EncodedWord.upfont ps base len
  | .upfs ps base len => EncodedWord.upfs ps base len
  | .ls ps => EncodedWord.ls ps
  | .free ps => EncodedWord.free ps
  | .wipe => EncodedWord.wipe

theorem instrCode_lt (i : Instr) : (instrCode i).toNat < 9 := by
  cases i <;> simp [instrCode]

/-- `NPARAM` of an encoded request is the length of its parameter list (R116). -/
theorem encode_nparam (c : Config) (i : Instr) : (encode c i).nparam = BitVec.ofNat 8 i.params.length := by
  cases i <;> rfl

/-- The used entries of a list laid out in `PARAM` are the list (R90, R116). -/
theorem usedParams_of_padded {c : Config} {d : Request} {ps : List Word} (hn : d.nparam = BitVec.ofNat 8 ps.length)
    (hp : d.params = padParams c.maxParams ps) (hfits : ps.length < 256) : d.usedParams = ps := by
  have hcount : (BitVec.ofNat 8 ps.length).toNat = ps.length := Nat.mod_eq_of_lt hfits
  rw [Request.usedParams, hn, hp, hcount, padParams, List.take_left']
  rfl

/-- A descriptor no common check rejects is dispatched on its code (R137). -/
theorem decode_of_accepted {c : Config} {d : Request} (hcode : d.code.toNat < 9) (hres : d.reserved = 0#7)
    (hcount : usesParams d.code = true → d.nparam.toNat ≤ c.maxParams) : decode c d = decodeCode d := by
  rw [decode, if_neg (by omega), if_neg (not_not_intro hres), if_neg]
  exact fun ⟨huses, hmore⟩ => absurd (hcount huses) (by omega)

/-- A well-formed request's descriptor passes the common checks (R91, R95, R116). -/
theorem decode_encode_eq_decodeCode {c : Config} {i : Instr} (hwf : i.wf c) :
    decode c (encode c i) = decodeCode (encode c i) := by
  obtain ⟨hfits, hmax⟩ := hwf
  obtain ⟨hcode, hres⟩ := encode_code_reserved i c
  refine decode_of_accepted (hcode ▸ instrCode_lt i) hres fun _ => ?_
  rw [encode_nparam, BitVec.toNat_ofNat, Nat.mod_eq_of_lt hfits]
  exact hmax

/-- The used entries of an encoded request are its parameters (R93, R116). -/
theorem encode_usedParams (c : Config) {i : Instr} (hfits : i.countFits) : (encode c i).usedParams = i.params := by
  cases i with
  | bitmap => rfl
  | wipe => rfl
  | _ => exact usedParams_of_padded rfl rfl hfits

/-- Settles O1: the code of each request selects its arm of the decoder, and each operand is its field. -/
theorem decodeEncodeRoundTrip : Obligations.DecodeEncodeRoundTrip := by
  intro c i hwf
  have hused := encode_usedParams c hwf.1
  rw [decode_encode_eq_decodeCode hwf, decodeCode, (encode_code_reserved i c).1, hused]
  cases i with
  | cmd op ps => exact congrArg (fun x => Except.ok (Instr.cmd x ps)) (packW0_opcode ..)
  | bitmap x0 y0 w h thr inv stride nf base =>
    have hthr : (encode c (.bitmap x0 y0 w h thr inv stride nf base)).thr = thr := packW0_thr ..
    have hinv : (encode c (.bitmap x0 y0 w h thr inv stride nf base)).inv = inv := packW0_inv ..
    have hstride : (encode c (.bitmap x0 y0 w h thr inv stride nf base)).stride = stride := packW0_stride ..
    rw [hthr, hinv, hstride]
    rfl
  | dlfile elev ps => exact congrArg (fun x => Except.ok (Instr.dlfile x ps)) (packW0_elev ..)
  | dlfs elev ps => exact congrArg (fun x => Except.ok (Instr.dlfs x ps)) (packW0_elev ..)
  | _ => rfl

/-! ## The decoder and the opcode table -/

/-- The code selects the arm, and the arm's request has that code (R92). -/
theorem instrCode_of_decodeCode {d : Request} {i : Instr} (h : decodeCode d = .ok i) : d.code = instrCode i := by
  apply BitVec.eq_of_toNat_eq
  unfold decodeCode at h
  split at h <;> cases h <;> assumption

/-- A descriptor that decodes has the code of its request and no reserved bit set (R91, R137). -/
theorem code_reserved_of_decode {c : Config} {d : Request} {i : Instr} (h : decode c d = .ok i) :
    d.code = instrCode i ∧ d.reserved = 0#7 := by
  unfold decode at h
  split_ifs at h with _ hres _
  exact ⟨instrCode_of_decodeCode h, not_not.mp hres⟩

/-- Every code of R92 has its arm. -/
theorem decodeCode_of_code_lt {d : Request} (h : d.code.toNat < 9) :
    ∃ i, decodeCode d = .ok i ∧ instrCode i = d.code := by
  have hok : ∃ i, decodeCode d = .ok i := by
    unfold decodeCode
    interval_cases d.code.toNat <;> exact ⟨_, rfl⟩
  obtain ⟨i, hi⟩ := hok
  exact ⟨i, hi, (instrCode_of_decodeCode hi).symm⟩

/-- The bits every row's mask keeps are the reserved bits and the code (R118). -/
theorem and_rowMask (d : Request) : d.w0 &&& 0x0000FE0F#32 = 0#16 ++ d.reserved ++ 0#5 ++ d.code := by
  apply BitVec.eq_of_getLsbD_eq
  intro k hk
  simp only [Request.reserved, Request.code, BitVec.getLsbD_append, BitVec.getLsbD_extractLsb',
    BitVec.getLsbD_and]
  interval_cases k <;> simp

theorem maskedWord_inj {r r' : BitVec 7} {k k' : BitVec 4} :
    0#16 ++ r ++ 0#5 ++ k = 0#16 ++ r' ++ 0#5 ++ k' ↔ r = r' ∧ k = k' := by
  refine ⟨fun h => ⟨?_, ?_⟩, fun ⟨hr, hk⟩ => by rw [hr, hk]⟩
  · have hfield := congrArg (BitVec.extractLsb' 9 7) h
    simpa (disch := decide) only [BitVec.extractLsb'_append_eq_of_le, BitVec.extractLsb'_append_eq_right,
      Nat.reduceSub] using hfield
  · have hfield := congrArg (BitVec.extractLsb' 0 4) h
    simpa only [BitVec.extractLsb'_append_eq_right] using hfield

/-- The code a row stands for. -/
def rowCode (r : OpcodeRow) : BitVec 4 := r.pattern.extractLsb' 0 4

theorem opcodeTable_rows : ∀ r ∈ opcodeTable,
    r.mask = 0x0000FE0F#32 ∧ r.pattern = 0#16 ++ 0#7 ++ 0#5 ++ rowCode r ∧ (rowCode r).toNat < 9 := by
  decide

/-- A row accepts the words of its code with no reserved bit set (R118). -/
theorem accepts_iff {r : OpcodeRow} (hr : r ∈ opcodeTable) (d : Request) :
    r.accepts d.w0 = true ↔ d.reserved = 0#7 ∧ d.code = rowCode r := by
  obtain ⟨hmask, hpattern, _⟩ := opcodeTable_rows r hr
  rw [OpcodeRow.accepts, beq_iff_eq, hmask, and_rowMask, hpattern, maskedWord_inj]

/-- A row is a request's by its name exactly when it is by its code (R92). -/
theorem mnemonic_eq_iff {r : OpcodeRow} (hr : r ∈ opcodeTable) (i : Instr) :
    r.mnemonic = mnemonicOf i ↔ instrCode i = rowCode r := by
  revert r
  cases i <;> simp only [mnemonicOf, instrCode] <;> decide

/-- Settles O3: rows and decoder both read the code and the reserved bits. -/
theorem opcodeTableMatchesDecoder : Obligations.OpcodeTableMatchesDecoder := by
  refine ⟨fun c d i hd r hr => ?_, fun c d r hr hacc hcount => ?_⟩
  · obtain ⟨hcode, hres⟩ := code_reserved_of_decode hd
    simp only [accepts_iff hr, mnemonic_eq_iff hr, hres, hcode, true_and]
  · obtain ⟨hres, hcode⟩ := (accepts_iff hr d).mp hacc
    have hlt : d.code.toNat < 9 := hcode ▸ (opcodeTable_rows r hr).2.2
    obtain ⟨i, hi, hik⟩ := decodeCode_of_code_lt hlt
    exact ⟨i, (decode_of_accepted hlt hres hcount).trans hi, ((mnemonic_eq_iff hr i).mpr (hik.trans hcode)).symm⟩

/-! ## The fields a code uses -/

/-- The dispatch reads the fields its code uses and no others (R93). -/
theorem decodeCode_congr {d e : Request} (h : agreeOnUsed d e) : decodeCode d = decodeCode e := by
  obtain ⟨hcode, _, hparams, hop, hpic, helev, hpay⟩ := h
  have hk : ∀ k : Fin 16, e.code.toNat = k → d.code = BitVec.ofFin k := fun k hk =>
    hcode.trans (BitVec.eq_of_toNat_eq hk)
  unfold decodeCode
  rw [hcode]
  split
  case h_1 hc => rw [hop (hk 0 hc), (hparams (hk 0 hc ▸ rfl)).2]
  case h_2 hc =>
    obtain ⟨h1, h2, h3, h4, h5, h6, h7, h8, h9⟩ := hpic (hk 1 hc)
    rw [h1, h2, h3, h4, h5, h6, h7, h8, h9]
  case h_3 hc => rw [helev (.inl (hk 2 hc)), (hparams (hk 2 hc ▸ rfl)).2]
  case h_4 hc => rw [helev (.inr (hk 3 hc)), (hparams (hk 3 hc ▸ rfl)).2]
  case h_5 hc => rw [(hpay (.inl (hk 4 hc))).1, (hpay (.inl (hk 4 hc))).2, (hparams (hk 4 hc ▸ rfl)).2]
  case h_6 hc => rw [(hpay (.inr (hk 5 hc))).1, (hpay (.inr (hk 5 hc))).2, (hparams (hk 5 hc ▸ rfl)).2]
  case h_7 hc => rw [(hparams (hk 6 hc ▸ rfl)).2]
  case h_8 hc => rw [(hparams (hk 7 hc ▸ rfl)).2]
  case h_9 => rfl
  case h_10 => rfl

/-- Settles O2: the common checks read the code, the reserved bits and the count of a code that uses it, and
the dispatch the fields of its code. -/
theorem decodeIgnoresUnusedFields : Obligations.DecodeIgnoresUnusedFields := by
  intro c d e h
  have hbody := decodeCode_congr h
  obtain ⟨hcode, hres, hparams, _⟩ := h
  have hcount : (usesParams e.code = true ∧ c.maxParams < d.nparam.toNat) ↔
      (usesParams e.code = true ∧ c.maxParams < e.nparam.toNat) := by
    exact and_congr_right fun huses => by rw [(hparams (hcode ▸ huses)).1]
  simp only [decode, hbody, hcode, hres, hcount]

/-- Settles O4. -/
theorem specWordsDecode : Obligations.SpecWordsDecode := ⟨rfl, rfl, rfl, rfl, rfl, rfl⟩

/-! ## Little-endian fields and frame lengths -/

theorem length_leBytes (v : Word) (w : Nat) : (leBytes v w).length = w := by
  induction w generalizing v with
  | zero => rfl
  | succ w ih => rw [leBytes, List.length_cons, ih]

/-- The bytes of a value, put together again (R12, R65). -/
theorem fromLE_leBytes (v : Word) (w : Nat) : fromLE (leBytes v w) = v.toNat % 2 ^ (8 * w) := by
  induction w generalizing v with
  | zero => exact (Nat.mod_one _).symm
  | succ w ih =>
    have hhigh : (v >>> 8).toNat = v.toNat / 2 ^ 8 := by rw [BitVec.toNat_ushiftRight, Nat.shiftRight_eq_div_pow]
    have hlow : (v.extractLsb' 0 8).toNat = v.toNat % 2 ^ 8 := by
      rw [BitVec.extractLsb'_toNat, Nat.shiftRight_zero]
    rw [leBytes, fromLE, ih, hhigh, hlow, Nat.mul_succ, Nat.add_comm (8 * w), pow_add, Nat.mod_mul]

/-- Settles O8. -/
theorem littleEndianRoundTrip : Obligations.LittleEndianRoundTrip :=
  fun v w => ⟨length_leBytes v w, fromLE_leBytes v w⟩

theorem length_frame (op : Byte) (ps : List Word) : (frame op ps).length = 2 + ps.length := by
  rw [frame, List.length_cons, List.length_cons, List.length_map]
  omega

theorem length_uploadHeader (op : Byte) (ps : List Word) (len : Word) (wl : LenWidth) :
    (uploadHeader op ps len wl).length = 2 + ps.length + wl.bytes := by
  rw [uploadHeader, List.length_append, length_frame, length_leBytes]

/-- Settles O5: a command frame is its two bytes and its parameters, an upload's header has its length field
behind them, and the other two frames are fixed. -/
theorem frameLengthByRequest : Obligations.FrameLengthByRequest := by
  intro c op ps e base len x0 y0 w h nf thr inv st
  exact ⟨length_frame .., length_frame .., length_frame .., length_frame .., length_frame ..,
    length_uploadHeader .., length_uploadHeader .., rfl, rfl⟩

/-- A frame is no longer than its parameters, a length field of four bytes and the two bytes before them. -/
theorem length_frameOf_le (c : Config) (i : Instr) : (frameOf c i).length ≤ 6 + i.params.length := by
  have hfont : c.upLenWFont.bytes ≤ 4 := by cases c.upLenWFont <;> decide
  have hfs : c.upLenWFs.bytes ≤ 4 := by cases c.upLenWFs <;> decide
  cases i <;> simp only [frameOf, length_frame, length_uploadHeader, Instr.params, bitmapHeader, wipeFrame,
    Config.wipeConf, List.length_cons, List.length_nil] <;> omega

/-- Settles O6. -/
theorem frameFitsByteIndex : Obligations.FrameFitsByteIndex := by
  intro c i ⟨_, hmax⟩ hc
  have := length_frameOf_le c i
  omega

end Sys2Proof.Machine
end

section
/-! PROOFS. What a step of a request leaves unchanged, what it records and which flags it changes: the frames of
00_scope.md (R9), 10_state.md (R23, R24, R32 to R34, R37) and 20_memory.md (R60, R71, R77). -/
namespace Sys2Proof.Machine

/-! ## What an engine step is -/

/-- A step of the engine: `IDLE` waits or accepts, a request makes one of its moves, and a refused descriptor
raises in `CHECK` or takes a step of the epilogue (R137). -/
theorem engineStep_cases {s t : State} (h : engineStep s = .next t) :
    (s.st = .idle ∧ (t = s ∨ ∃ d rest, s.requests = d :: rest ∧
      t = accepted (fitRequest s.cfg.maxParams d) rest s)) ∨
    (∃ i, decode s.cfg s.rq = .ok i ∧ s.st ≠ .idle ∧ Move i s t) ∨
    (∃ e, decode s.cfg s.rq = .error e ∧ s.st ≠ .idle ∧
      ((s.st = .check ∧ t = conclude .badRequest 0#32 (badRequestCause e) s) ∨ stepEpilogue s = .next t)) := by
  unfold engineStep at h
  split at h
  · cases h
  · rename_i hst; exact .inl ⟨hst, stepIdle_cases h⟩
  · rename_i hidle
    split at h
    · rename_i i hd; exact .inr (.inl ⟨i, hd, hidle, exec_move h⟩)
    · rename_i e hd; exact .inr (.inr ⟨e, hd, hidle, stepRefused_cases h⟩)

/-- The state a read leaves differs from the one before in the input, the draws and the trace (R72). -/
theorem eq_of_receive {s u : State} {x : Option Byte} (h : receive s = some (x, u)) :
    ∃ r d, u = { s with rx := r, draws := d, trace := s.trace ++ [.rx x] } := ⟨_, _, receive_eq h⟩

/-! ## What belongs to others -/

/-- The state with all that a request writes blanked: the instance's parameters, the latched request and what
the other agents own are left (R8, R37). -/
def engineBlanked (s : State) : State :=
  { State.resetWith s.cfg with
    rq := s.rq, requests := s.requests, pix := s.pix, pay := s.pay, pixChanged := s.pixChanged,
    payChanged := s.payChanged, rxEnd := s.rxEnd, keys := s.keys, tapped := s.tapped,
    otherLock := s.otherLock, withheld := s.withheld, turns := s.turns }

section
variable {i : Instr} {s t : State}

/-- No move touches what belongs to others. -/
theorem Move.engineBlanked_eq (h : Move i s t) : engineBlanked t = engineBlanked s := by
  cases h with
  | lengthEnds _ _ _ hr | takesLength _ _ _ _ hr | endsEmpty _ _ _ _ hr | startsPayload _ _ _ _ _ hr
  | endsNoRecords _ _ _ _ _ hr | endsCount _ _ _ _ _ hr | payloadEnds _ _ _ _ _ hr | takesByte _ _ _ _ _ _ hr
  | readyEnds _ _ _ _ hr | rejected _ _ _ _ _ hr | acknowledged _ _ _ _ hr | acknowledgedEmpty _ _ _ _ hr
  | echoEnds _ _ _ _ hr | desynced _ _ _ _ _ hr | echoed _ _ _ _ hr =>
    obtain ⟨r, d, rfl⟩ := eq_of_receive hr
    rfl
  | _ => rfl

/-! ## What a step records -/

/-- An event the engine performs during a request: neither an `Accept` nor another writer's byte. -/
def ofRequest : Event → Bool
  | .accept _ => false
  | .foreignTx _ => false
  | _ => true

/-- At most one event is recorded, and it is one of a request. -/
def recordsOne (s t : State) : Prop := t.trace = s.trace ∨ ∃ e, ofRequest e = true ∧ t.trace = s.trace ++ [e]

/-- Every move records at most one event (R9). -/
theorem Move.records (h : Move i s t) : recordsOne s t := by
  cases h with
  | lengthEnds _ _ _ hr | takesLength _ _ _ _ hr | endsEmpty _ _ _ _ hr | startsPayload _ _ _ _ _ hr
  | endsNoRecords _ _ _ _ _ hr | endsCount _ _ _ _ _ hr | payloadEnds _ _ _ _ _ hr | takesByte _ _ _ _ _ _ hr
  | readyEnds _ _ _ _ hr | rejected _ _ _ _ _ hr | acknowledged _ _ _ _ hr | acknowledgedEmpty _ _ _ _ hr
  | echoEnds _ _ _ _ hr | desynced _ _ _ _ _ hr | echoed _ _ _ _ hr =>
    obtain ⟨r, d, rfl⟩ := eq_of_receive hr
    exact .inr ⟨_, rfl, rfl⟩
  | waits | refused | startsFrame | startsBitmap | startsQuery | startsTransfer => exact .inl rfl
  | _ => exact .inr ⟨_, rfl, rfl⟩

/-! ## The flags -/

/-- `EXCL` changes in `PAUSE` and `RESUME` (R33). -/
theorem Move.excl_eq (h : Move i s t) :
    t.excl = s.excl ∨ s.st = .pause ∧ t.excl = true ∨ s.st = .resume ∧ t.excl = false := by
  cases h with
  | pauses hst => exact .inr (.inl ⟨hst, rfl⟩)
  | resumes hst => exact .inr (.inr ⟨hst, rfl⟩)
  | lengthEnds _ _ _ hr | takesLength _ _ _ _ hr | endsEmpty _ _ _ _ hr | startsPayload _ _ _ _ _ hr
  | endsNoRecords _ _ _ _ _ hr | endsCount _ _ _ _ _ hr | payloadEnds _ _ _ _ _ hr | takesByte _ _ _ _ _ _ hr
  | readyEnds _ _ _ _ hr | rejected _ _ _ _ _ hr | acknowledged _ _ _ _ hr | acknowledgedEmpty _ _ _ _ hr
  | echoEnds _ _ _ _ hr | desynced _ _ _ _ _ hr | echoed _ _ _ _ hr =>
    obtain ⟨r, d, rfl⟩ := eq_of_receive hr
    exact .inl rfl
  | _ => exact .inl rfl

/-- `TXLK` changes in `LOCK` and `UNLOCK` (R34). -/
theorem Move.txlk_eq (h : Move i s t) :
    t.txlk = s.txlk ∨ (s.st = .lock ∧ s.otherLock = false) ∧ t.txlk = true ∨ s.st = .unlock ∧ t.txlk = false := by
  cases h with
  | locks hst _ ho => exact .inr (.inl ⟨⟨hst, ho⟩, rfl⟩)
  | locksFrame _ _ hst _ ho => exact .inr (.inl ⟨⟨hst, ho⟩, rfl⟩)
  | unlocksFrame _ _ hst | unlocksLast _ _ hst | unlocks hst => exact .inr (.inr ⟨hst, rfl⟩)
  | lengthEnds _ _ _ hr | takesLength _ _ _ _ hr | endsEmpty _ _ _ _ hr | startsPayload _ _ _ _ _ hr
  | endsNoRecords _ _ _ _ _ hr | endsCount _ _ _ _ _ hr | payloadEnds _ _ _ _ _ hr | takesByte _ _ _ _ _ _ hr
  | readyEnds _ _ _ _ hr | rejected _ _ _ _ _ hr | acknowledged _ _ _ _ hr | acknowledgedEmpty _ _ _ _ hr
  | echoEnds _ _ _ _ hr | desynced _ _ _ _ _ hr | echoed _ _ _ _ hr =>
    obtain ⟨r, d, rfl⟩ := eq_of_receive hr
    exact .inl rfl
  | _ => exact .inl rfl

/-- The transport's rate, the saved one and `BAUD_CHG`: `BAUD_GET` may save the rate, `BAUD_UP` raises it and
`BAUD_RESTORE` gives the saved one back (R31, R32, R201, R204). -/
theorem Move.rate_eq (h : Move i s t) :
    (t.baudChg = s.baudChg ∧ t.baud = s.baud ∧
      (t.savedBaud = s.savedBaud ∨ s.st = .baudGet ∧ t.savedBaud = s.baud)) ∨
    (s.st = .baudUp ∧ t.baudChg = true ∧ t.savedBaud = s.savedBaud) ∨
    (s.st = .baudRestore ∧ t.baudChg = false ∧ t.baud = s.savedBaud) := by
  cases h with
  | savesRate hst => exact .inl ⟨rfl, rfl, .inr ⟨hst, rfl⟩⟩
  | raisesRate hst => exact .inr (.inl ⟨hst, rfl, rfl⟩)
  | restores hst => exact .inr (.inr ⟨hst, rfl, rfl⟩)
  | lengthEnds _ _ _ hr | takesLength _ _ _ _ hr | endsEmpty _ _ _ _ hr | startsPayload _ _ _ _ _ hr
  | endsNoRecords _ _ _ _ _ hr | endsCount _ _ _ _ _ hr | payloadEnds _ _ _ _ _ hr | takesByte _ _ _ _ _ _ hr
  | readyEnds _ _ _ _ hr | rejected _ _ _ _ _ hr | acknowledged _ _ _ _ hr | acknowledgedEmpty _ _ _ _ hr
  | echoEnds _ _ _ _ hr | desynced _ _ _ _ _ hr | echoed _ _ _ _ hr =>
    obtain ⟨r, d, rfl⟩ := eq_of_receive hr
    exact .inl ⟨rfl, rfl, .inl rfl⟩
  | _ => exact .inl ⟨rfl, rfl, .inl rfl⟩

/-! ## The outcome -/

/-- `STATUS`, `VALUE` and `AUX` are as before, or the move ended the operation: a `conclude` wrote them, and the
step was one of the operation's own (R13, R24). -/
theorem Move.outcome_eq (h : Move i s t) :
    (t.status = s.status ∧ t.value = s.value ∧ t.aux = s.aux) ∨
    (t.st = epilogueEntry t ∧ s.st ≠ .baudRestore ∧ s.st ≠ .resume ∧ s.st ≠ .resp ∧
      (s.st = .unlock → bitmapShape i ≠ none)) := by
  cases h with
  | refused _ _ _ hst | sendsLast _ hst | lengthEnds _ hst | endsEmpty _ _ hst | endsNoRecords _ _ _ hst
  | endsCount _ _ _ hst | payloadEnds _ _ _ hst | handsLast _ _ hst | readyEnds _ _ hst | rejected _ _ _ hst
  | acknowledgedEmpty _ _ hst | echoEnds _ _ hst | desynced _ _ _ hst | confirmsLast _ hst =>
    exact .inr ⟨rfl, by simp [hst], by simp [hst], by simp [hst], by simp [hst]⟩
  | unlocksLast _ _ hst hb => exact .inr ⟨rfl, by simp [hst], by simp [hst], by simp [hst], by simp [hb]⟩
  | takesLength _ _ _ _ hr | startsPayload _ _ _ _ _ hr | takesByte _ _ _ _ _ _ hr | acknowledged _ _ _ _ hr
  | echoed _ _ _ _ hr =>
    obtain ⟨r, d, rfl⟩ := eq_of_receive hr
    exact .inl ⟨rfl, rfl, rfl⟩
  | _ => exact .inl ⟨rfl, rfl, rfl⟩

end

/-! ## The epilogue's own steps, for a refused descriptor too -/

/-- The epilogue's steps are moves, whatever the descriptor: those of `wipe`, say. -/
theorem move_of_stepEpilogue {s t : State} (h : stepEpilogue s = .next t) : Move .wipe s t :=
  stepEpilogue_move (.inl rfl) h

/-! ## The obligations -/

/-- Settles O24: from the frame and the record of the move. -/
theorem execLeavesOthersUnchanged : Obligations.ExecLeavesOthersUnchanged := by
  intro i s t h
  have hmove := exec_move h
  have hb := hmove.engineBlanked_eq
  have hpix : t.pix = s.pix := (congrArg State.pix hb :)
  have hpay : t.pay = s.pay := (congrArg State.pay hb :)
  refine ⟨(congrArg State.cfg hb :), (congrArg State.rq hb :), (congrArg State.requests hb :), fun a => by rw [hpix],
    fun a => by rw [hpay], (congrArg State.pixChanged hb :), (congrArg State.payChanged hb :),
    (congrArg State.rxEnd hb :),
    (congrArg State.keys hb :), (congrArg State.tapped hb :), (congrArg State.otherLock hb :),
    (congrArg State.withheld hb :),
    (congrArg State.turns hb :), ?_⟩
  rcases hmove.records with hsame | ⟨e, _, hone⟩
  · exact ⟨[], by rw [hsame, List.append_nil], Nat.zero_le 1⟩
  · exact ⟨[e], hone, le_rfl⟩

/-- Settles O27. -/
theorem outcomeWrittenOnlyAtTheEnd : Obligations.OutcomeWrittenOnlyAtTheEnd := by
  intro i s t h hchanged
  rcases (exec_move h).outcome_eq with ⟨hstatus, hvalue, haux⟩ | hended
  · simp [hstatus, hvalue, haux] at hchanged
  · exact hended

/-- A step of the engine outside `IDLE` leaves what belongs to others alone and records at most one event of its
request. -/
theorem engineStep_frame {s t : State} (h : engineStep s = .next t) (hidle : s.st ≠ .idle) :
    engineBlanked t = engineBlanked s ∧ recordsOne s t := by
  rcases engineStep_cases h with ⟨hst, _⟩ | ⟨i, _, _, hmove⟩ | ⟨e, _, _, ⟨_, rfl⟩ | hepi⟩
  · exact absurd hst hidle
  · exact ⟨hmove.engineBlanked_eq, hmove.records⟩
  · exact ⟨rfl, .inl rfl⟩
  · exact ⟨(move_of_stepEpilogue hepi).engineBlanked_eq, (move_of_stepEpilogue hepi).records⟩

/-- Settles O14: the one event a request records is no `Accept`. -/
theorem requestLatchedUntilNextAccept : Obligations.RequestLatchedUntilNextAccept := by
  intro s t h hidle
  obtain ⟨hb, hrec⟩ := engineStep_frame h hidle
  refine ⟨(congrArg State.rq hb :), (congrArg State.requests hb :), fun d htrace => ?_⟩
  rcases hrec with hsame | ⟨e, he, hone⟩
  · simp [hsame] at htrace
  · rw [hone, List.append_cancel_left_eq, List.singleton_inj] at htrace
    rw [htrace] at he
    cases he

/-- Settles O18: each flag by the moves that change it; neither `IDLE` nor a refusal changes one. -/
theorem flagsChangeOnlyAtTheirSteps : Obligations.FlagsChangeOnlyAtTheirSteps := by
  intro s t h
  have hkeep : (∃ i, Move i s t) ∨ t.excl = s.excl ∧ t.txlk = s.txlk ∧ t.baudChg = s.baudChg := by
    rcases engineStep_cases h with ⟨_, rfl | ⟨d, rest, _, rfl⟩⟩ | ⟨i, _, _, hmove⟩ | ⟨e, _, _, ⟨_, rfl⟩ | hepi⟩
    · exact .inr ⟨rfl, rfl, rfl⟩
    · exact .inr ⟨rfl, rfl, rfl⟩
    · exact .inl ⟨i, hmove⟩
    · exact .inr ⟨rfl, rfl, rfl⟩
    · exact .inl ⟨_, move_of_stepEpilogue hepi⟩
  rcases hkeep with ⟨i, hmove⟩ | ⟨hexcl, htxlk, hchg⟩
  · refine ⟨fun hne => hmove.excl_eq.resolve_left hne, fun hne => ?_, fun hne => ?_⟩
    · exact (hmove.txlk_eq.resolve_left hne).imp (fun ⟨⟨hst, _⟩, hset⟩ => ⟨hst, hset⟩) id
    · exact (hmove.rate_eq.resolve_left fun ⟨hc, _⟩ => hne hc).imp (fun ⟨hst, hc, _⟩ => ⟨hst, hc⟩)
        (fun ⟨hst, hc, _⟩ => ⟨hst, hc⟩)
  · exact ⟨fun hne => absurd hexcl hne, fun hne => absurd htxlk hne, fun hne => absurd hchg hne⟩

end Sys2Proof.Machine
end

section
/-! PROOFS. The invariant of the step machine (42_sequencer.md R215 over 10_state.md R32 to R34): every step keeps
it and reset establishes it. -/
namespace Sys2Proof.Machine

/-! ## What the kinds of request exclude -/

section
variable {i : Instr}

theorem bitmapShape_of_readExpecting (h : readExpecting i = true) : bitmapShape i = none := by
  cases i with
  | bitmap => nomatch h
  | _ => rfl

theorem uploadLen_of_not_readExpecting (h : readExpecting i = false) : uploadLen i = none := by
  cases i with
  | upfont | upfs => nomatch h
  | _ => rfl

theorem elevating_of_not_readExpecting (h : readExpecting i = false) : elevating i = false := by
  cases i with
  | cmd | bitmap | wipe => rfl
  | _ => nomatch h

theorem readExpecting_of_elevating (h : elevating i = true) : readExpecting i = true := by
  by_contra hr
  rw [elevating_of_not_readExpecting (Bool.eq_false_iff.mpr hr)] at h
  cases h

theorem readExpecting_of_lengthWidth (h : 0 < lengthWidth i) : readExpecting i = true := by
  cases i with
  | cmd | bitmap | wipe => nomatch h
  | _ => rfl

theorem readExpecting_of_payloadCount {n count : Word} (h : payloadCount i n = some count) :
    readExpecting i = true := by
  cases i with
  | cmd | bitmap | wipe => nomatch h
  | _ => rfl

theorem readExpecting_of_uploadLen {len : Word} (h : uploadLen i = some len) : readExpecting i = true := by
  cases i with
  | cmd | bitmap | wipe => nomatch h
  | _ => rfl

theorem readExpecting_of_bitmapShape {p : Nat × Nat} (h : bitmapShape i = some p) : readExpecting i = false := by
  cases i with
  | bitmap => rfl
  | _ => nomatch h

theorem lengthWidth_le (i : Instr) : lengthWidth i ≤ 4 := by
  cases i <;> simp [lengthWidth, Config.sizeW, Config.countW]

/-- A bitmap request whose checks pass has a frame (R171). -/
theorem frames_pos_of_ownChecks {c : Config} {nf nb : Nat} (hc : ownChecks c i = none)
    (hb : bitmapShape i = some (nf, nb)) : 0 < nf := by
  cases i with
  | bitmap => cases hb; exact (bounds_of_bitmapChecks hc).1
  | _ => nomatch hb

theorem ownChecks_of_frameOnly (c : Config) (hr : readExpecting i = false) (hb : bitmapShape i = none) :
    ownChecks c i = none := by
  cases i with
  | cmd | wipe => rfl
  | bitmap => nomatch hb
  | _ => nomatch hr

/-- Every frame has at least its first byte. -/
theorem length_frameOf_pos (c : Config) (i : Instr) : 0 < (frameOf c i).length := by
  cases i <;> exact Nat.zero_lt_succ _

end

/-! ## What a move establishes -/

theorem statusCode_le (x : Status) : (statusCode x).toNat ≤ 8 := by
  cases x <;> decide

section
variable {i : Instr} {s t : State}

/-- Ending a request under the lock leads to its `UNLOCK`. -/
theorem requestInv_conclude_of_txlk (x : Status) (v a : Word) (hf : flagsAre i true s)
    (hr : readExpecting i = true ∨ bitmapShape i = none) : requestInv i (conclude x v a s) := by
  have hb : bitmapShape i = none := hr.elim bitmapShape_of_readExpecting id
  have hlock : s.txlk = true := hf.1
  rw [conclude_of_txlk x v a hlock]
  exact ⟨hf, fun _ => statusCode_le x, fun nf nb h => by rw [hb] at h; cases h⟩

/-- Ending a request with nothing held leads to its response. -/
theorem requestInv_conclude_of_nothingHeld (x : Status) (v a : Word) (h : nothingHeld s) :
    requestInv i (conclude x v a s) := by
  rw [conclude, epilogueEntry_of_nothingHeld h]
  exact ⟨h, statusCode_le x⟩

/-- After the acquisition a request is at its `FLUSH` or its `LOCK` (R215). -/
theorem requestInv_afterAcquisition (hc : ownChecks s.cfg i = none) (hr : readExpecting i = true)
    (hf : flagsAre i false s) (hl : frameLoaded i s) (hu : countersClear i s) :
    requestInv i (goto (afterAcquisition s) s) := by
  unfold afterAcquisition
  split
  · rename_i hflush
    exact ⟨hc, hr, hflush, hf, hl, hu⟩
  · refine ⟨hc, hf, fun _ => hl, fun nf nb h => ?_, hu⟩
    rw [bitmapShape_of_readExpecting hr] at h
    cases h

theorem flagsAre_of_nothingHeld (hr : readExpecting i = false) (h : nothingHeld s) : flagsAre i false s := by
  obtain ⟨hlock, hchg, hexcl⟩ := h
  exact ⟨hlock, hexcl.trans hr.symm, fun hraised => absurd (hraised.symm.trans hchg) (by decide)⟩

theorem frameInRange_of_no_shape (hb : bitmapShape i = none) : frameInRange i s :=
  fun nf nb h => by rw [hb] at h; cases h

theorem countersClear_of_no_upload (hu : uploadLen i = none) : countersClear i s :=
  fun hne => absurd hu hne

/-- A byte at index `k` of a length field adds `b << 8k` and does not overflow (R134). -/
theorem lenAcc_add_byte {acc : Word} {b : Byte} {k : BitVec 3} (hk : k.toNat < 4)
    (hacc : acc.toNat < 2 ^ (8 * k.toNat)) :
    (acc + (b.zeroExtend 32 <<< (8 * k.toNat))).toNat = acc.toNat + b.toNat * 2 ^ (8 * k.toNat) ∧
      acc.toNat + b.toNat * 2 ^ (8 * k.toNat) < 2 ^ (8 * (k.toNat + 1)) := by
  have hb : b.toNat + 1 ≤ 2 ^ 8 := b.isLt
  have hfits : acc.toNat + b.toNat * 2 ^ (8 * k.toNat) < 2 ^ (8 * (k.toNat + 1)) :=
    calc acc.toNat + b.toNat * 2 ^ (8 * k.toNat)
        < (b.toNat + 1) * 2 ^ (8 * k.toNat) := by rw [Nat.succ_mul b.toNat]; omega
      _ ≤ 2 ^ 8 * 2 ^ (8 * k.toNat) := Nat.mul_le_mul_right _ hb
      _ = 2 ^ (8 * (k.toNat + 1)) := by rw [← pow_add]; congr 1; omega
  have hword : 2 ^ (8 * (k.toNat + 1)) ≤ 2 ^ 32 := Nat.pow_le_pow_right (by decide) (by omega)
  have hshift : (b.zeroExtend 32 <<< (8 * k.toNat)).toNat = b.toNat * 2 ^ (8 * k.toNat) := by
    rw [BitVec.toNat_shiftLeft, BitVec.toNat_setWidth_of_le (by decide), Nat.shiftLeft_eq,
      Nat.mod_eq_of_lt (by omega)]
  rw [BitVec.toNat_add, hshift, Nat.mod_eq_of_lt (by omega)]
  exact ⟨rfl, hfits⟩

theorem lenIdx_succ {k : BitVec 3} (hk : k.toNat < 4) : (k + 1#3).toNat = k.toNat + 1 :=
  BitVec.toNat_add_of_lt (by simp; omega)

/-- A move keeps the invariant of its request: each establishes what the step it goes to needs. -/
theorem Move.requestInv_of_requestInv (hmove : Move i s t) (h : requestInv i s) : requestInv i t := by
  cases hmove with
  | waits => exact h
  | refused x v a hst =>
    simp only [requestInv, hst] at h
    exact requestInv_conclude_of_nothingHeld x v a h
  | startsFrame hst hr hb =>
    simp only [requestInv, hst] at h
    exact ⟨ownChecks_of_frameOnly _ hr hb, flagsAre_of_nothingHeld hr h, fun _ => ⟨rfl, rfl, rfl⟩,
      frameInRange_of_no_shape hb, countersClear_of_no_upload (uploadLen_of_not_readExpecting hr)⟩
  | startsBitmap nf nb hst hc hb =>
    simp only [requestInv, hst] at h
    have hr := readExpecting_of_bitmapShape hb
    refine ⟨hc, flagsAre_of_nothingHeld hr h, fun hnone => ?_, fun nf' nb' hb' => ?_,
      countersClear_of_no_upload (uploadLen_of_not_readExpecting hr)⟩
    · rw [hb] at hnone; cases hnone
    · exact frames_pos_of_ownChecks hc hb'
  | startsQuery ps hst hi =>
    simp only [requestInv, hst] at h
    rcases hi with rfl | rfl <;> exact ⟨rfl, rfl, h, ⟨rfl, rfl, rfl⟩, countersClear_of_no_upload rfl⟩
  | startsTransfer hst hr hc =>
    simp only [requestInv, hst] at h
    exact ⟨hc, hr, h, ⟨rfl, rfl, rfl⟩, fun _ => ⟨rfl, rfl⟩⟩
  | pauses hst hr =>
    simp only [requestInv, hst] at h
    obtain ⟨hc, _, ⟨hlock, hchg, _⟩, hl, hu⟩ := h
    have hf : flagsAre i false (paused s) :=
      ⟨hlock, hr.symm, fun hraised => absurd (hraised.symm.trans hchg) (by decide)⟩
    split
    · rename_i he
      exact ⟨hc, he, hf, hchg, hl, hu⟩
    · exact requestInv_afterAcquisition (s := paused s) hc hr hf hl hu
  | findsHigh hst he =>
    simp only [requestInv, hst] at h
    obtain ⟨hc, _, hf, _, hl, hu⟩ := h
    exact requestInv_afterAcquisition (s := baudRead s) hc (readExpecting_of_elevating he) hf hl hu
  | savesRate hst he =>
    simp only [requestInv, hst] at h
    obtain ⟨hc, _, hf, hchg, hl, hu⟩ := h
    exact ⟨hc, he, hf, hchg, hl, hu⟩
  | raisesRate hst he =>
    simp only [requestInv, hst] at h
    obtain ⟨hc, _, ⟨hlock, hexcl, _⟩, _, hl, hu⟩ := h
    exact requestInv_afterAcquisition (s := baudRaised s) hc (readExpecting_of_elevating he)
      ⟨hlock, hexcl, fun _ => he⟩ hl hu
  | flushes hst hr =>
    simp only [requestInv, hst] at h
    obtain ⟨hc, _, _, hf, hl, hu⟩ := h
    exact ⟨hc, hf, fun _ => hl, frameInRange_of_no_shape (bitmapShape_of_readExpecting hr), hu⟩
  | locks hst hb =>
    simp only [requestInv, hst] at h
    obtain ⟨hc, ⟨_, hexcl, hchg⟩, hl, hin, hu⟩ := h
    obtain ⟨hfb, hhi, hwraps⟩ := hl hb
    refine ⟨hc, ⟨rfl, hexcl, hchg⟩, hfb, ?_, fun hne => absurd hb hne, hin, hu⟩
    rw [sentCount_goto, sentCount_locked, sentCount_of_fresh hhi hwraps, goto_fb, locked_fb, hfb]
    exact length_frameOf_pos _ _
  | locksFrame nf nb hst =>
    simp only [requestInv, hst] at h
    obtain ⟨hc, ⟨_, hexcl, hchg⟩, _, hin, hu⟩ := h
    exact ⟨hc, ⟨rfl, hexcl, hchg⟩, rfl, length_frameOf_pos _ _, fun _ => rfl, hin, hu⟩
  | sendsByte b hst _ hl =>
    simp only [requestInv, hst] at h
    obtain ⟨hc, hf, hfb, _, hpb, hin, hu⟩ := h
    simp only [requestInv, frameByteSent_st, hst]
    exact ⟨hc, hf, hfb, (sentCount_frameByteSent b s).trans_lt hl, hpb, hin, hu⟩
  | sendsLast b hst _ _ _ hp =>
    simp only [requestInv, hst] at h
    obtain ⟨_, hf, _⟩ := h
    exact requestInv_conclude_of_txlk (s := frameByteSent b s) _ _ _ hf (.inr hp)
  | asksLength b hst _ _ hw =>
    simp only [requestInv, hst] at h
    obtain ⟨_, hf, _⟩ := h
    have hwidth := lengthWidth_le i
    exact ⟨hf, Nat.mod_eq_of_lt (by omega), hw, rfl, Nat.one_pos⟩
  | asksReady b len hst _ _ hu =>
    simp only [requestInv, hst] at h
    obtain ⟨hc, hf, _, _, _, _, hclear⟩ := h
    exact ⟨hc, hf, by rw [hu]; exact Option.some_ne_none len, hclear, rfl⟩
  | endsHeader b nf nb hst _ _ hp =>
    simp only [requestInv, hst] at h
    obtain ⟨hc, hf, _, _, hpb, hin, _⟩ := h
    have hzero : s.pb = 0#32 := hpb (by rw [hp]; exact Option.some_ne_none _)
    have hfirst : s.pb.toNat = 0 := by rw [hzero]; rfl
    split
    · rename_i hmore
      exact ⟨hc, hf, nf, nb, hp, hin nf nb hp, hfirst.trans_lt hmore⟩
    · rename_i hnone
      refine ⟨hf, fun h0 => ?_, fun nf' nb' hp' => ⟨hc, hin nf' nb' hp', ?_⟩⟩
      · rw [hp] at h0; cases h0
      · rw [hp] at hp'; cases hp'; exact hfirst.trans (Nat.eq_zero_of_not_pos hnone).symm
  | lengthEnds u hst hw hr =>
    simp only [requestInv, hst] at h
    obtain ⟨hf, _⟩ := h
    obtain ⟨r, d, rfl⟩ := eq_of_receive hr
    exact requestInv_conclude_of_txlk _ _ _ hf (.inl (readExpecting_of_lengthWidth hw))
  | takesLength b u hst hw hr hl =>
    simp only [requestInv, hst] at h
    obtain ⟨hf, hwidth, hidx, hphase, hacc⟩ := h
    obtain ⟨r, d, rfl⟩ := eq_of_receive hr
    have hle := lengthWidth_le i
    have hnext := lenIdx_succ (k := s.lenIdx) (by omega)
    obtain ⟨hsum, hlt⟩ := lenAcc_add_byte (b := b) (by omega) hacc
    simp only [requestInv, lenByteTaken_st, hst]
    refine ⟨hf, hwidth, hl.trans_eq hwidth, hphase, ?_⟩
    rw [lenByteTaken_lenAcc, lenByteTaken_lenIdx, hsum, hnext]
    exact hlt
  | endsEmpty b u hst hw hr =>
    simp only [requestInv, hst] at h
    obtain ⟨hf, _⟩ := h
    obtain ⟨r, d, rfl⟩ := eq_of_receive hr
    exact requestInv_conclude_of_txlk (s := lenDone (lenByteTaken b _)) _ _ _ hf
      (.inl (readExpecting_of_lengthWidth (by omega)))
  | startsPayload b u count hst _ hr _ hp hc =>
    simp only [requestInv, hst] at h
    obtain ⟨hf, _⟩ := h
    obtain ⟨r, d, rfl⟩ := eq_of_receive hr
    exact ⟨hf, ⟨hc, count, hp, Nat.zero_add _⟩, rfl⟩
  | endsNoRecords b u ps hst hi hr =>
    simp only [requestInv, hst] at h
    obtain ⟨hf, _⟩ := h
    obtain ⟨r, d, rfl⟩ := eq_of_receive hr
    exact requestInv_conclude_of_txlk (s := payloadStarted 0#32 (lenDone (lenByteTaken b _))) _ _ _ hf
      (.inl (by rw [hi]; rfl))
  | endsCount b u ps hst hi hr =>
    simp only [requestInv, hst] at h
    obtain ⟨hf, _⟩ := h
    obtain ⟨r, d, rfl⟩ := eq_of_receive hr
    exact requestInv_conclude_of_txlk (s := lenDone (lenByteTaken b _)) _ _ _ hf (.inl (by rw [hi]; rfl))
  | payloadEnds u n count hst hp hr =>
    simp only [requestInv, hst] at h
    obtain ⟨hf, _⟩ := h
    obtain ⟨r, d, rfl⟩ := eq_of_receive hr
    exact requestInv_conclude_of_txlk _ _ _ hf (.inl (readExpecting_of_payloadCount hp))
  | takesByte b u n count hst hp hr =>
    simp only [requestInv, hst] at h
    obtain ⟨r, d, rfl⟩ := eq_of_receive hr
    exact h
  | handsByte n count hst hp hz =>
    simp only [requestInv, hst] at h
    obtain ⟨hf, ⟨hrem, total, htotal, hsum⟩, hphase⟩ := h
    refine ⟨hf, ⟨hz, total, htotal, ?_⟩, hphase⟩
    have hpos : 0 < s.rem.toNat := Nat.pos_of_ne_zero fun h0 => hrem (BitVec.eq_of_toNat_eq h0)
    have := total.isLt
    rw [goto_idx, goto_rem, dataHanded_idx, dataHanded_rem]
    bv_omega
  | handsLast n count hst hp =>
    simp only [requestInv, hst] at h
    obtain ⟨hf, _⟩ := h
    exact requestInv_conclude_of_txlk (s := dataHanded s) _ _ _ hf (.inl (readExpecting_of_payloadCount hp))
  | readyEnds u len hst hu hr | rejected _ u len hst hu hr | acknowledgedEmpty u len hst hu hr =>
    simp only [requestInv, hst] at h
    obtain ⟨_, hf, _⟩ := h
    obtain ⟨r, d, rfl⟩ := eq_of_receive hr
    exact requestInv_conclude_of_txlk _ _ _ hf (.inl (readExpecting_of_uploadLen hu))
  | acknowledged u len hst hu hr hl =>
    simp only [requestInv, hst] at h
    obtain ⟨hc, hf, hne, hclear, _⟩ := h
    obtain ⟨hidx, hacked⟩ := hclear hne
    obtain ⟨r, d, rfl⟩ := eq_of_receive hr
    exact ⟨hc, hf, hacked.trans hidx.symm, len, hu, hl⟩
  | sendsPayload ps base len hst =>
    simp only [requestInv, hst] at h
    obtain ⟨hc, hf, hacked, total, htotal, hlt⟩ := h
    have hnext : (s.idx + 1#32).toNat = s.idx.toNat + 1 := by have := total.isLt; bv_omega
    exact ⟨hc, hf, ⟨total, htotal, hnext.trans_le hlt, hnext.trans (by rw [← hacked]; rfl)⟩, rfl⟩
  | echoEnds u len hst hu hr | desynced _ u len hst hu hr =>
    simp only [requestInv, hst] at h
    obtain ⟨_, hf, _⟩ := h
    obtain ⟨r, d, rfl⟩ := eq_of_receive hr
    exact requestInv_conclude_of_txlk _ _ _ hf (.inl (readExpecting_of_uploadLen hu))
  | echoed u len hst hu hr =>
    simp only [requestInv, hst] at h
    obtain ⟨r, d, rfl⟩ := eq_of_receive hr
    exact h
  | confirms len hst hu hl =>
    simp only [requestInv, hst] at h
    obtain ⟨hc, hf, ⟨_, _, _, hone⟩, _⟩ := h
    have hnext : s.acked + 1#32 = s.idx := by bv_omega
    exact ⟨hc, hf, hnext, len, hu, hl⟩
  | confirmsLast len hst hu =>
    simp only [requestInv, hst] at h
    obtain ⟨_, hf, _⟩ := h
    exact requestInv_conclude_of_txlk (s := confirmSent s) _ _ _ hf (.inl (readExpecting_of_uploadLen hu))
  | packs pic x0 y0 nf hst hi =>
    simp only [requestInv, hst] at h
    obtain ⟨hc, hf, nf', nb, hshape, hfr, hpb⟩ := h
    subst hi
    cases hshape
    have hbound := packedBytes_lt pic.w pic.h
    split
    · rename_i hmore
      exact ⟨hc, hf, _, _, rfl, hfr, hmore⟩
    · rename_i hlast
      refine ⟨hf, fun h0 => (nomatch h0), fun nf' nb' h => ?_⟩
      cases h
      have hall : (s.pb + 1#32).toNat = packedBytes pic.w pic.h := by bv_omega
      exact ⟨hc, hfr, hall⟩
  | unlocksFrame nf nb hst hb hl =>
    simp only [requestInv, hst] at h
    obtain ⟨⟨_, hexcl, hchg⟩, _, hend⟩ := h
    obtain ⟨hc, _, _⟩ := hend nf nb hb
    refine ⟨hc, ⟨rfl, hexcl, hchg⟩, fun h0 => ?_, fun nf' nb' hb' => ?_,
      countersClear_of_no_upload (uploadLen_of_not_readExpecting (readExpecting_of_bitmapShape hb))⟩
    · rw [hb] at h0; cases h0
    · rw [hb] at hb'; cases hb'
      exact (Nat.mod_le _ _).trans_lt hl
  | unlocksLast nf nb hst hb =>
    simp only [requestInv, hst] at h
    obtain ⟨⟨_, hexcl, hchg⟩, _, _⟩ := h
    have hr := readExpecting_of_bitmapShape hb
    have hrate : s.baudChg = false := by
      by_contra hne
      have he := hchg (Bool.eq_true_of_not_eq_false hne)
      rw [elevating_of_not_readExpecting hr] at he
      cases he
    exact requestInv_conclude_of_nothingHeld (s := frameIndex (s.fr + 1#16) (unlocked s)) _ _ _
      ⟨rfl, hrate, hexcl.trans hr⟩
  | unlocks hst hb =>
    simp only [requestInv, hst] at h
    obtain ⟨⟨_, hexcl, hchg⟩, hcon, _⟩ := h
    unfold afterUnlock afterRestore
    split_ifs with hraised hheld
    · have he := hchg hraised
      have hr := readExpecting_of_elevating he
      exact ⟨he, hr, rfl, hexcl.trans hr, hraised, hcon hb⟩
    · exact ⟨hexcl.symm.trans hheld, rfl, hheld, Bool.eq_false_iff.mpr hraised, hcon hb⟩
    · exact ⟨⟨rfl, Bool.eq_false_iff.mpr hraised, Bool.eq_false_iff.mpr hheld⟩, hcon hb⟩
  | restores hst =>
    simp only [requestInv, hst] at h
    obtain ⟨_, hr, hlock, hexcl, _, hcon⟩ := h
    rw [afterRestore, if_pos hexcl]
    exact ⟨hr, hlock, hexcl, rfl, hcon⟩
  | resumes hst =>
    simp only [requestInv, hst] at h
    obtain ⟨_, hlock, _, hchg, hcon⟩ := h
    exact ⟨⟨hlock, hchg, rfl⟩, hcon⟩
  | responds hst =>
    simp only [requestInv, hst] at h
    exact h.1

end
/-! ## Every step keeps the invariant -/

section
variable {s t : State}

/-- The invariant reads nothing of the turns. -/
theorem inv_of_turns (rest : List Turn) : Inv { s with turns := rest } ↔ Inv s := Iff.rfl

/-- The step's invariant of a state at `RESP`, `IDLE` or `CHECK` with nothing held, whatever the descriptor. -/
theorem stepInv_of_nothingHeld (h : nothingHeld s)
    (hst : s.st = .idle ∨ s.st = .check ∨ s.st = .resp ∧ concluded s) : stepInv s := by
  rcases hst with hst | hst | ⟨hst, hcon⟩ <;> simp only [stepInv, requestInv, hst]
  · exact h
  · split
    · exact h
    · exact ⟨h, .inl trivial⟩
  · split
    · exact ⟨h, hcon⟩
    · exact ⟨h, .inr ⟨trivial, hcon⟩⟩

/-- A refused descriptor is at `CHECK` or `RESP`, with nothing held (R137). -/
theorem Inv.at_refused {e : BadRequest} (h : Inv s) (hd : decode s.cfg s.rq = .error e) (hidle : s.st ≠ .idle) :
    nothingHeld s ∧ (s.st = .check ∨ s.st = .resp ∧ concluded s) := by
  obtain ⟨_, _, _, _, hstep⟩ := h
  unfold stepInv at hstep
  split at hstep
  · exact absurd ‹_› hidle
  · exact hstep.elim
  · rwa [hd] at hstep

/-- With a descriptor that is refused, the only step of the epilogue is the response (R137). -/
theorem stepEpilogue_of_refused {e : BadRequest} (h : Inv s) (hd : decode s.cfg s.rq = .error e)
    (hidle : s.st ≠ .idle) (hepi : stepEpilogue s = .next t) : t = s ∨ t = responded s := by
  obtain ⟨_, hst⟩ := h.at_refused hd hidle
  rcases stepEpilogue_cases hepi with ⟨hq, _⟩ | ⟨hq, _⟩ | ⟨hq, _⟩ | ⟨_, hr⟩
  · simp [hq] at hst
  · simp [hq] at hst
  · simp [hq] at hst
  · exact hr

/-- Accepting a descriptor starts its request with nothing held and `MAX_PARAMS` entries (R23, R137). -/
theorem inv_of_accepted (h : Inv s) (hst : s.st = .idle) (d : Request) (rest : List Request) :
    Inv (accepted (fitRequest s.cfg.maxParams d) rest s) := by
  obtain ⟨hpix, hpay, _, hone, hstep⟩ := h
  simp only [stepInv, hst] at hstep
  refine ⟨hpix, hpay, ?_, hone, stepInv_of_nothingHeld hstep (.inr (.inl rfl))⟩
  show (padParams s.cfg.maxParams (d.params.take s.cfg.maxParams)).length = s.cfg.maxParams
  simp only [padParams, List.length_append, List.length_replicate, List.length_take]
  omega

/-- A move keeps the invariant of the whole state. -/
theorem Move.inv_of_inv {i : Instr} (hmove : Move i s t) (hd : decode s.cfg s.rq = .ok i) (h : Inv s) : Inv t := by
  have hothers := hmove.engineBlanked_eq
  have hcfg : t.cfg = s.cfg := (congrArg State.cfg hothers :)
  have hrq : t.rq = s.rq := (congrArg State.rq hothers :)
  have hpix : t.pix = s.pix := (congrArg State.pix hothers :)
  have hpay : t.pay = s.pay := (congrArg State.pay hothers :)
  have hlock : t.otherLock = s.otherLock := (congrArg State.otherLock hothers :)
  have hreq := hmove.requestInv_of_requestInv (h.request hd)
  obtain ⟨hwx, hwy, hlen, hone, _⟩ := h
  refine inv_of_requestInv (hpix ▸ hwx) (hpay ▸ hwy) (by rw [hrq, hcfg, hlen]) (fun hheld => ?_)
    (by rw [hrq, hcfg, hd]) hreq
  rw [hlock]
  rcases hmove.txlk_eq with hsame | ⟨⟨_, hfree⟩, _⟩ | ⟨_, hreleased⟩
  · exact hone (hsame ▸ hheld)
  · exact hfree
  · rw [hreleased] at hheld; cases hheld

/-- A step of the engine keeps the invariant. -/
theorem engineStep_keeps_inv (h : Inv s) (hstep : engineStep s = .next t) : Inv t := by
  rcases engineStep_cases hstep with ⟨hst, rfl | ⟨d, rest, _, rfl⟩⟩ | ⟨i, hd, _, hmove⟩ |
    ⟨e, hd, hidle, ⟨_, rfl⟩ | hepi⟩
  · exact h
  · exact inv_of_accepted h hst d rest
  · exact hmove.inv_of_inv hd h
  · obtain ⟨hheld, _⟩ := h.at_refused hd hidle
    obtain ⟨hpix, hpay, hlen, hone, _⟩ := h
    refine ⟨hpix, hpay, hlen, hone, stepInv_of_nothingHeld hheld (.inr (.inr ⟨?_, statusCode_le _⟩))⟩
    rw [conclude_st, epilogueEntry_of_nothingHeld hheld]
  · rcases stepEpilogue_of_refused h hd hidle hepi with rfl | rfl
    · exact h
    · obtain ⟨hheld, _⟩ := h.at_refused hd hidle
      obtain ⟨hpix, hpay, hlen, hone, _⟩ := h
      exact ⟨hpix, hpay, hlen, hone, stepInv_of_nothingHeld hheld (.inl rfl)⟩

/-- Reset establishes what does not concern the caller's memories (R40, R290). -/
theorem inv_of_reset {c : Config} (hrq : s.rq = Request.ofW0 c.maxParams 0#32) (hcfg : s.cfg = c)
    (hst : s.st = .idle) (hheld : nothingHeld s) (hpix : memoryWf s.pix = true) (hpay : memoryWf s.pay = true) :
    Inv s := by
  refine ⟨hpix, hpay, ?_, fun hlock => ?_, stepInv_of_nothingHeld hheld (.inl hst)⟩
  · rw [hrq, hcfg]; exact List.length_replicate
  · rw [hheld.1] at hlock; cases hlock

/-- An action of another agent, or reset, keeps the invariant. -/
theorem applyEnv_keeps_inv (a : EnvAction) (h : Inv s) : Inv (applyEnv a s) := by
  have ⟨hpix, hpay, hlen, hone, hstep⟩ := h
  cases a with
  | listenerTakes =>
    rw [applyEnv, listenerTake]
    split <;> exact h
  | otherLocks =>
    rw [applyEnv]
    split
    · exact h
    · rename_i hfree
      exact ⟨hpix, hpay, hlen, fun hlock => absurd hlock hfree, hstep⟩
  | otherUnlocks => exact ⟨hpix, hpay, hlen, fun _ => rfl, hstep⟩
  | otherTx b =>
    rw [applyEnv]
    split <;> exact h
  | callerWritesPix a b => exact ⟨memWrite_wf hpix a.isLt, hpay, hlen, hone, hstep⟩
  | callerWritesPay a b => exact ⟨hpix, memWrite_wf hpay a.isLt, hlen, hone, hstep⟩
  | reset => exact inv_of_reset rfl rfl rfl ⟨rfl, rfl, rfl⟩ hpix hpay
  | _ => exact h

/-- Settles O19: a turn is a step of the engine or an action of another agent, and both keep the invariant. -/
theorem invariantKeptByEveryStep : Obligations.InvariantKeptByEveryStep := by
  intro s t h hstep
  rcases turnStep_cases s with ⟨_, hturn⟩ | ⟨rest, _, hturn⟩ | ⟨a, rest, _, hturn⟩
  · exact engineStep_keeps_inv h (hturn.symm.trans hstep)
  · exact engineStep_keeps_inv ((inv_of_turns rest).mpr h) (hturn.symm.trans hstep)
  · cases hturn.symm.trans hstep
    exact applyEnv_keeps_inv a ((inv_of_turns rest).mpr h)

/-- Settles O20. -/
theorem invariantHoldsAtReset : Obligations.InvariantHoldsAtReset :=
  fun _ => inv_of_reset rfl rfl rfl ⟨rfl, rfl, rfl⟩ rfl rfl

end

end Sys2Proof.Machine
end

section
/-! PROOFS. Which shared operation a request's step is, by the state `ST` names (42_sequencer.md R215); from the
invariant none of them faults, and one whose event is not offered waits (00_scope.md R9). -/
namespace Sys2Proof.Machine

variable {i : Instr} {s : State}

/-! ## The operation of each step -/

/-- `CHECK` performs no event (R137). -/
theorem exec_check (i : Instr) (hst : s.st = .check) : ∃ t, exec i s = .next t := by
  cases i <;> simp only [exec, execCmd, execWipe, frameOnly, execBitmap, execDlfile, execDlfs, download, execUpfont,
    execUpfs, upload, execLs, execFree, hst] <;> exact ⟨_, rfl⟩

/-- The prologue's steps of a read-expecting request (R200). -/
theorem exec_bracket (hr : readExpecting i = true)
    (hst : s.st = .pause ∨ s.st = .baudGet ∨ s.st = .baudUp ∨ s.st = .flush ∨ s.st = .lock) :
    exec i s = stepBracket (elevating i) s := by
  cases i with
  | cmd | bitmap | wipe => cases hr
  | _ =>
    rcases hst with hst | hst | hst | hst | hst <;>
      simp only [exec, execDlfile, execDlfs, download, execUpfont, execUpfs, upload, execLs, execFree, elevating, hst]

/-- `LOCK` of every request (R77); what it goes on with is the request's. -/
theorem exec_lock (i : Instr) (hst : s.st = .lock) : ∃ k, exec i s = stepLock k s := by
  cases i <;> simp only [exec, execCmd, execWipe, frameOnly, execBitmap, execDlfile, execDlfs, download, execUpfont,
    execUpfs, upload, execLs, execFree, stepBracket, hst] <;> exact ⟨_, rfl⟩

/-- What a request goes on with after the last byte of its frame (R138, R139, R170, R208 to R214). -/
def afterLastByte : Instr → State → State
  | .cmd op ps => finish .ok (BitVec.ofNat 32 (frame op ps).length)
  | .bitmap _ _ w h _ _ _ _ _ => goto (if 0 < packedBytes w h then .pkData else .unlock)
  | .dlfile .. => beginLen Config.sizeW
  | .dlfs .. => beginLen Config.sizeW
  | .upfont .. => fun t => goto .rxReady (phase 2#2 t)
  | .upfs .. => fun t => goto .rxReady (phase 2#2 t)
  | .ls .. => beginLen Config.countW
  | .free .. => beginLen Config.sizeW
  | .wipe => finish .ok (BitVec.ofNat 32 wipeFrame.length)

/-- `TX_FRAME` of every request (R133). -/
theorem exec_txFrame (i : Instr) (hst : s.st = .txFrame) : exec i s = stepTxFrame (afterLastByte i) s := by
  cases i <;> simp only [exec, execCmd, execWipe, frameOnly, execBitmap, execDlfile, execDlfs, download, execUpfont,
    execUpfs, upload, execLs, execFree, afterLastByte, hst]

/-- `DATA_OUT` of a request with a payload (R135). -/
theorem exec_dataOut {n count : Word} (hp : payloadCount i n = some count) (hst : s.st = .dataOut) :
    exec i s = stepDataOut (finish .ok s.n) s := by
  cases i with
  | dlfile | dlfs | ls => simp only [exec, execDlfile, execDlfs, download, execLs, hst]
  | _ => cases hp

/-- An upload is one of the two requests. -/
theorem upload_of_uploadLen {len : Word} (hu : uploadLen i = some len) :
    ∃ ps base, i = .upfont ps base len ∨ i = .upfs ps base len := by
  cases i with
  | upfont ps base n => cases hu; exact ⟨ps, base, .inl rfl⟩
  | upfs ps base n => cases hu; exact ⟨ps, base, .inr rfl⟩
  | _ => cases hu

/-- `UP_SEND` of an upload (R211). -/
theorem exec_upSend {ps : List Word} {base len : Word} (hi : i = .upfont ps base len ∨ i = .upfs ps base len)
    (hst : s.st = .upSend) : exec i s = stepUpSend base s := by
  rcases hi with rfl | rfl <;> simp only [exec, execUpfont, execUpfs, upload, hst]

/-- `UP_CONF` of an upload (R211). -/
theorem exec_upConf {len : Word} (hu : uploadLen i = some len) (hst : s.st = .upConf) :
    exec i s = stepUpConf len s := by
  obtain ⟨ps, base, rfl | rfl⟩ := upload_of_uploadLen hu <;> simp only [exec, execUpfont, execUpfs, upload, hst]

/-- A bitmap request is one with a picture. -/
theorem bitmap_of_bitmapShape {nf nb : Nat} (hb : bitmapShape i = some (nf, nb)) :
    ∃ x0 y0 frames pic, i = bitmapOf x0 y0 frames pic ∧ nf = frames.toNat ∧ nb = packedBytes pic.w pic.h := by
  cases i with
  | bitmap x0 y0 w h thr inv stride frames base =>
    cases hb
    exact ⟨x0, y0, frames, ⟨w, h, thr, inv, stride, base⟩, rfl, rfl, rfl⟩
  | _ => cases hb

/-- The epilogue's steps of every request; the `UNLOCK` of a bitmap frame is its own (R204). -/
theorem exec_epilogue (hst : s.st = .unlock ∧ bitmapShape i = none ∨ s.st = .baudRestore ∨ s.st = .resume ∨
    s.st = .resp) : exec i s = stepEpilogue s := by
  rcases hst with ⟨hst, hb⟩ | hst
  · cases i with
    | bitmap => cases hb
    | _ => simp only [exec, execCmd, execWipe, frameOnly, execDlfile, execDlfs, download, execUpfont, execUpfs, upload,
        execLs, execFree, stepBracket, hst]
  · rcases hst with hst | hst | hst <;> cases i <;> simp only [exec, execCmd, execWipe, frameOnly, execBitmap,
      execDlfile, execDlfs, download, execUpfont, execUpfs, upload, execLs, execFree, stepBracket, hst]

/-! ## The shape of a step -/

/-- The answer of a step, by the kind of event it performs: none, one the environment may withhold, a read, or the
lock. -/
inductive StepShape (s : State) : Option EventKind → Result → Prop
  | free (t : State) : StepShape s none (.next t)
  | offered (k : EventKind) (t : State) (hrx : k ≠ .rx) (hlock : k ≠ .lock) :
      StepShape s (some k) (whenOffered k s t)
  | reads (e : State → State) (g : Byte → State → State) : StepShape s (some .rx) (stepRx s e g)
  | locks (k : State → State) : StepShape s (some .lock) (stepLock k s)

theorem stepTxFrame_shape (done : State → State) (h : sentCount s < s.fb.length) :
    StepShape s (some .tx) (stepTxFrame done s) := by
  rw [stepTxFrame, List.getElem?_eq_getElem h]
  exact .offered .tx _ (by decide) (by decide)

/-- The payload of an upload whose checks pass ends within the address space (R63, R211). -/
theorem payEnd_le_of_uploadChecks {capacity : Option Word} {wl : LenWidth} {base len : Word}
    (hc : uploadChecks capacity wl base len = none) : payEnd base len ≤ 2 ^ 32 := by
  unfold uploadChecks at hc
  split at hc <;> split_ifs at hc <;> omega

theorem payEnd_le_of_ownChecks {c : Config} {ps : List Word} {base len : Word}
    (hi : i = .upfont ps base len ∨ i = .upfs ps base len) (hc : ownChecks c i = none) : payEnd base len ≤ 2 ^ 32 := by
  rcases hi with rfl | rfl <;> rw [ownChecks] at hc <;> exact payEnd_le_of_uploadChecks hc

theorem stepUpSend_shape {base len : Word} (hend : payEnd base len ≤ 2 ^ 32) (hl : s.idx.toNat < len.toNat) :
    StepShape s (some .tx) (stepUpSend base s) := by
  unfold payEnd at hend
  rw [stepUpSend, if_neg (by omega)]
  exact .offered .tx _ (by decide) (by decide)

theorem stepPkData_shape {pic : Picture} (h : packEnd pic s.fr.toNat s.pb.toNat ≤ 2 ^ 32) :
    StepShape s (some .tx) (stepPkData pic s) := by
  rw [stepPkData, if_neg h.not_gt]
  exact .offered .tx _ (by decide) (by decide)

/-- From the invariant, every step of a request performs its event and no step is without a rule (R215). -/
theorem exec_shape (h : requestInv i s) (hidle : s.st ≠ .idle) : StepShape s (eventOf s.st) (exec i s) := by
  cases hst : s.st with
  | idle => exact absurd hst hidle
  | reserved k => simp only [requestInv, hst] at h
  | check =>
    obtain ⟨t, ht⟩ := exec_check i hst
    rw [ht]
    exact .free t
  | pause =>
    simp only [requestInv, hst] at h
    obtain ⟨_, hr, _⟩ := h
    rw [exec_bracket hr (by simp [hst])]
    simp only [stepBracket, hst]
    exact .offered _ _ (by decide) (by decide)
  | baudGet =>
    simp only [requestInv, hst] at h
    obtain ⟨_, he, _⟩ := h
    rw [exec_bracket (readExpecting_of_elevating he) (by simp [hst])]
    simp only [stepBracket, hst, he, if_true]
    exact .offered _ _ (by decide) (by decide)
  | baudUp =>
    simp only [requestInv, hst] at h
    obtain ⟨_, he, _⟩ := h
    rw [exec_bracket (readExpecting_of_elevating he) (by simp [hst])]
    simp only [stepBracket, hst, he, if_true]
    exact .offered _ _ (by decide) (by decide)
  | flush =>
    simp only [requestInv, hst] at h
    obtain ⟨_, hr, _⟩ := h
    rw [exec_bracket hr (by simp [hst])]
    simp only [stepBracket, hst]
    exact .offered _ _ (by decide) (by decide)
  | lock =>
    obtain ⟨k, hk⟩ := exec_lock i hst
    rw [hk]
    exact .locks k
  | txFrame =>
    simp only [requestInv, hst] at h
    obtain ⟨_, _, _, hleft, _⟩ := h
    rw [exec_txFrame i hst]
    exact stepTxFrame_shape _ hleft
  | rxLen =>
    simp only [requestInv, hst] at h
    obtain ⟨_, _, hidx, _⟩ := h
    obtain ⟨done, hdone⟩ := exec_rxLen (Nat.zero_lt_of_lt hidx) hst
    rw [hdone]
    exact .reads _ _
  | rxData =>
    simp only [requestInv, hst] at h
    obtain ⟨_, ⟨_, _, hcount, _⟩, _⟩ := h
    rw [exec_rxData hcount hst]
    exact .reads _ _
  | dataOut =>
    simp only [requestInv, hst] at h
    obtain ⟨_, ⟨_, _, hcount, _⟩, _⟩ := h
    rw [exec_dataOut hcount hst]
    exact .offered _ _ (by decide) (by decide)
  | rxReady =>
    simp only [requestInv, hst] at h
    obtain ⟨_, _, hu, _⟩ := h
    obtain ⟨len, hlen⟩ := Option.ne_none_iff_exists'.mp hu
    rw [exec_rxReady hlen hst]
    exact .reads _ _
  | upSend =>
    simp only [requestInv, hst] at h
    obtain ⟨hc, _, _, len, hlen, hlt⟩ := h
    obtain ⟨ps, base, hi⟩ := upload_of_uploadLen hlen
    rw [exec_upSend hi hst]
    exact stepUpSend_shape (payEnd_le_of_ownChecks hi hc) hlt
  | upEcho =>
    simp only [requestInv, hst] at h
    obtain ⟨_, _, ⟨len, hlen, _⟩, _⟩ := h
    rw [exec_upEcho hlen hst]
    exact .reads _ _
  | upConf =>
    simp only [requestInv, hst] at h
    obtain ⟨_, _, ⟨len, hlen, _⟩, _⟩ := h
    rw [exec_upConf hlen hst]
    exact .offered _ _ (by decide) (by decide)
  | pkData =>
    simp only [requestInv, hst] at h
    obtain ⟨hc, _, nf, nb, hb, hfr, hpb⟩ := h
    obtain ⟨x0, y0, frames, pic, rfl, rfl, rfl⟩ := bitmap_of_bitmapShape hb
    simp only [exec, bitmapOf, execBitmap, hst]
    exact stepPkData_shape ((packEnd_le_pixEnd hfr hpb).trans (bounds_of_bitmapChecks hc).2)
  | unlock =>
    cases hb : bitmapShape i with
    | none =>
      rw [exec_epilogue (.inl ⟨hst, hb⟩)]
      simp only [stepEpilogue, hst]
      exact .free _
    | some p =>
      obtain ⟨x0, y0, frames, pic, rfl, _⟩ := bitmap_of_bitmapShape hb
      simp only [exec, bitmapOf, execBitmap, hst, stepFrameUnlock]
      split <;> exact .free _
  | baudRestore =>
    rw [exec_epilogue (by simp [hst])]
    simp only [stepEpilogue, hst]
    exact .offered _ _ (by decide) (by decide)
  | resume =>
    rw [exec_epilogue (by simp [hst])]
    simp only [stepEpilogue, hst]
    exact .free _
  | resp =>
    rw [exec_epilogue (by simp [hst])]
    simp only [stepEpilogue, hst]
    exact .offered _ _ (by decide) (by decide)

/-- From the invariant, every step of the engine has the shape of its event, `IDLE` and a refusal too. -/
theorem engineStep_shape (h : Inv s) : StepShape s (eventOf s.st) (engineStep s) := by
  by_cases hidle : s.st = .idle
  · simp only [engineStep, hidle, eventOf, stepIdle]
    split
    · have hwait : (Host.Outcome.next s : Result) = whenOffered .accept s s := by simp [whenOffered]
      rw [hwait]
      exact .offered _ _ (by decide) (by decide)
    · exact .offered _ _ (by decide) (by decide)
  · cases hd : decode s.cfg s.rq with
    | ok i =>
      have hreq := h.request hd
      have hengine : engineStep s = exec i s := by
        unfold engineStep
        split
        · rename_i hst; simp only [requestInv, hst] at hreq
        · rename_i hst; exact absurd hst hidle
        · rw [hd]
      rw [hengine]
      exact exec_shape hreq hidle
    | error e =>
      obtain ⟨_, hst | ⟨hst, _⟩⟩ := h.at_refused hd hidle
      · rw [engineStep_check_of_decode_error hst hd, hst]
        exact .free _
      · simp only [engineStep, hst, hd, stepRefused, stepEpilogue]
        exact .offered _ _ (by decide) (by decide)

/-! ## Answers, and waits -/

theorem StepShape.answers_next {e : Option EventKind} {r : Result} (h : StepShape s e r) : ∃ t, r = .next t := by
  cases h with
  | free t => exact ⟨t, rfl⟩
  | offered k t =>
    unfold whenOffered
    split <;> exact ⟨_, rfl⟩
  | reads e g => exact stepRx_total s e g
  | locks k => exact stepLock_total k s

theorem receive_of_not_offered (h : offers s .rx = false) : receive s = none := by
  simp [receive, h]

/-- A step waits while the environment withholds its event. -/
theorem StepShape.waits_of_withheld {k : EventKind} {r : Result} (h : StepShape s (some k) r) (hk : k ∈ s.withheld) :
    r = .next s := by
  have hno : offers s k = false := by simp [offers, hk]
  cases h with
  | offered _ t => simp [whenOffered, hno]
  | reads e g => simp [stepRx, receive_of_not_offered hno]
  | locks k => simp [stepLock, hno]

/-- A reading step waits while no byte is held and no end of input is signalled. -/
theorem StepShape.waits_of_no_byte {r : Result} (h : StepShape s (some .rx) r) (hrx : s.rx = [])
    (hend : s.rxEnd = false) : r = .next s := by
  have hnone : receive s = none := by simp [receive, hrx, hend]
  cases h with
  | offered _ t hne => exact absurd rfl hne
  | reads e g => simp [stepRx, hnone]

/-- `LOCK` waits while another writer holds the lock. -/
theorem StepShape.waits_of_otherLock {r : Result} (h : StepShape s (some .lock) r) (hother : s.otherLock = true) :
    r = .next s := by
  cases h with
  | offered _ t _ hne => exact absurd rfl hne
  | locks k => simp [stepLock, hother]

/-! ## The obligations -/

/-- With the engine to move the turn is a step of the engine. -/
theorem step_eq_engineStep (ht : s.turns = []) : step s = engineStep s := by
  simp only [step, turnStep, ht]

/-- Settles O21: every shape answers a next state. -/
theorem invariantStepNeverFaults : Obligations.InvariantStepNeverFaults := by
  intro s h
  refine ⟨?_, fun i hidle hd => (exec_shape (h.request hd) hidle).answers_next⟩
  rcases turnStep_cases s with ⟨_, hturn⟩ | ⟨rest, _, hturn⟩ | ⟨a, rest, _, hturn⟩
  · obtain ⟨t, ht⟩ := (engineStep_shape h).answers_next
    exact ⟨t, hturn.trans ht⟩
  · obtain ⟨t, ht⟩ := (engineStep_shape (s := { s with turns := rest }) h).answers_next
    exact ⟨t, hturn.trans ht⟩
  · exact ⟨_, hturn⟩

/-- Settles O17: by the shape of the step, each of the three is a wait. -/
theorem unofferedEventWaits : Obligations.UnofferedEventWaits := by
  refine ⟨fun s k h ht he hk => ?_, fun s h ht he hrx hend => ?_, fun s h ht hst hother => ?_⟩
  · have hshape := engineStep_shape h
    rw [he] at hshape
    exact (step_eq_engineStep ht).trans (hshape.waits_of_withheld hk)
  · have hshape := engineStep_shape h
    rw [he] at hshape
    exact (step_eq_engineStep ht).trans (hshape.waits_of_no_byte hrx hend)
  · have hshape := engineStep_shape h
    rw [hst] at hshape
    exact (step_eq_engineStep ht).trans (hshape.waits_of_otherLock hother)

end Sys2Proof.Machine
end

section
/-! PROOFS. The next states of 42_sequencer.md (R215), the transport's rate over a request (R205), and what stands
after the response (R272). -/
namespace Sys2Proof.Machine

variable {i : Instr} {s t : State}

/-! ## The next-state table -/

theorem conclude_st_of_txlk (x : Status) (v a : Word) (hlock : s.txlk = true) :
    (conclude x v a s).st = .unlock := by
  rw [conclude_of_txlk x v a hlock]

/-- In a step with an event after the lock, the lock is held (R34). -/
theorem txlk_of_requestInv (h : requestInv i s)
    (hst : s.st ∈ [.txFrame, .rxLen, .rxData, .dataOut, .rxReady, .upSend, .upEcho, .upConf, .pkData, .unlock]) :
    s.txlk = true := by
  simp only [List.mem_cons, List.not_mem_nil, or_false] at hst
  rcases hst with hst | hst | hst | hst | hst | hst | hst | hst | hst | hst <;>
    simp only [requestInv, flagsAre, hst] at h <;> tauto

/-- What a read leaves of the state a reading step goes on from (R72). -/
theorem fields_of_receive {x : Option Byte} {u : State} (h : receive s = some (x, u)) :
    u.trace = s.trace ++ [.rx x] ∧ u.txlk = s.txlk ∧ u.st = s.st ∧ u.idx = s.idx := by
  obtain ⟨r, d, rfl⟩ := eq_of_receive h
  exact ⟨rfl, rfl, rfl, rfl⟩

theorem lengthWidth_of_uploadLen {len : Word} (hu : uploadLen i = some len) : lengthWidth i = 0 := by
  cases i with
  | upfont | upfs => rfl
  | _ => nomatch hu

theorem frames_lt_of_bitmapShape {nf nb : Nat} (hb : bitmapShape i = some (nf, nb)) : nf < 2 ^ 16 := by
  cases i with
  | bitmap _ _ _ _ _ _ _ frames => cases hb; exact frames.isLt
  | _ => nomatch hb

theorem lengthWidth_of_bitmapShape {p : Nat × Nat} (hb : bitmapShape i = some p) : lengthWidth i = 0 := by
  cases i with
  | bitmap => rfl
  | _ => nomatch hb

theorem lengthWidth_of_not_readExpecting (hr : readExpecting i = false) : lengthWidth i = 0 := by
  by_contra hne
  rw [readExpecting_of_lengthWidth (Nat.pos_of_ne_zero hne)] at hr
  cases hr

/-- A move that is no wait goes where the table says (R215). -/
theorem Move.nextStateRow_of_ne (hmove : Move i s t) (h : requestInv i s) (hne : t ≠ s) : nextStateRow i s t := by
  cases hmove with
  | waits => exact absurd rfl hne
  | refused x v a hst hc =>
    simp only [requestInv, hst] at h
    simp only [nextStateRow, hst, hc]
    exact epilogueEntry_of_nothingHeld h
  | startsFrame hst hr hb =>
    simp [nextStateRow, hst, hr, ownChecks_of_frameOnly s.cfg hr hb]
  | startsBitmap nf nb hst hc hb =>
    simp [nextStateRow, hst, hc, readExpecting_of_bitmapShape hb]
  | startsQuery ps hst hi =>
    rcases hi with rfl | rfl <;> simp [nextStateRow, hst, ownChecks, readExpecting]
  | startsTransfer hst hr hc => simp [nextStateRow, hst, hc, hr]
  | pauses hst =>
    simp only [nextStateRow, hst, goto_st]
    split <;> rfl
  | findsHigh hst he hb => simp [nextStateRow, hst, hb]
  | savesRate hst he hb => simp [nextStateRow, hst, hb]
  | raisesRate hst | flushes hst | locks hst | sendsPayload _ _ _ hst | restores hst | resumes hst | responds hst =>
    simp only [nextStateRow, hst]
    rfl
  | locksFrame _ _ hst =>
    simp only [nextStateRow, hst]
    rfl
  | sendsByte b hst _ hl => simp [nextStateRow, hst, hl]
  | sendsLast b hst _ hl hr hp =>
    have hlock := txlk_of_requestInv h (by simp [hst])
    simp only [nextStateRow, hst, sentCount_conclude, sentCount_frameByteSent, conclude_fb, frameByteSent_fb,
      if_neg hl.not_gt, lengthWidth_of_not_readExpecting hr, uploadLen_of_not_readExpecting hr, hasPacked, hp]
    exact conclude_st_of_txlk (s := frameByteSent b s) _ _ _ hlock
  | asksLength b hst _ hl hw => simp [nextStateRow, hst, hw, hl.not_gt]
  | asksReady b len hst _ hl hu => simp [nextStateRow, hst, hu, lengthWidth_of_uploadLen hu, hl.not_gt]
  | endsHeader b nf nb hst _ hl hp =>
    have hu := uploadLen_of_not_readExpecting (readExpecting_of_bitmapShape hp)
    simp only [nextStateRow, hst, sentCount_goto, sentCount_frameByteSent, goto_fb, frameByteSent_fb,
      if_neg hl.not_gt, lengthWidth_of_bitmapShape hp, hu, hasPacked, hp, goto_st, decide_eq_true_eq]
    split <;> simp_all
  | lengthEnds u hst _ hr | payloadEnds u _ _ hst _ hr =>
    have hlock := txlk_of_requestInv h (by simp [hst])
    obtain ⟨htrace, hkept, _, _⟩ := fields_of_receive hr
    simp [nextStateRow, hst, htrace, epilogueEntry, hkept, hlock]
  | takesLength b u hst _ hr hl =>
    obtain ⟨htrace, _, hstay, _⟩ := fields_of_receive hr
    simp [nextStateRow, hst, htrace, -BitVec.toNat_add, hl, hstay]
  | endsEmpty b u hst _ hr hl hn hp =>
    have hlock := txlk_of_requestInv h (by simp [hst])
    obtain ⟨htrace, hkept, _, _⟩ := fields_of_receive hr
    rw [lenByteTaken_lenAcc] at hn
    simp [nextStateRow, hst, htrace, -BitVec.toNat_add, hl, hasPayload, hn, hp, epilogueEntry, hkept, hlock]
  | startsPayload b u count hst _ hr hl hp hc =>
    obtain ⟨htrace, _, _, _⟩ := fields_of_receive hr
    rw [lenByteTaken_lenAcc] at hp
    simp [nextStateRow, hst, htrace, -BitVec.toNat_add, hl, hasPayload, hp, hc]
  | endsNoRecords b u ps hst _ hr hl hp =>
    have hlock := txlk_of_requestInv h (by simp [hst])
    obtain ⟨htrace, hkept, _, _⟩ := fields_of_receive hr
    rw [lenByteTaken_lenAcc] at hp
    simp [nextStateRow, hst, htrace, -BitVec.toNat_add, hl, hasPayload, hp, epilogueEntry, hkept, hlock]
  | endsCount b u ps hst hi hr hl =>
    have hlock := txlk_of_requestInv h (by simp [hst])
    obtain ⟨htrace, hkept, _, _⟩ := fields_of_receive hr
    simp [nextStateRow, hst, htrace, -BitVec.toNat_add, hl, hasPayload, hi, payloadCount, epilogueEntry, hkept, hlock]
  | takesByte b u _ _ hst _ hr =>
    obtain ⟨htrace, _, _, _⟩ := fields_of_receive hr
    simp [nextStateRow, hst, htrace]
  | handsByte _ _ hst _ hz =>
    have hmore : 0 < (s.rem - 1#32).toNat := Nat.pos_of_ne_zero fun h0 => hz (BitVec.eq_of_toNat_eq h0)
    simp only [nextStateRow, hst, goto_rem, dataHanded_rem, if_pos hmore, goto_st]
  | handsLast _ _ hst _ hz =>
    have hlock := txlk_of_requestInv h (by simp [hst])
    simp [nextStateRow, hst, hz, epilogueEntry, hlock]
  | readyEnds u len hst hu hr =>
    have hlock := txlk_of_requestInv h (by simp [hst])
    obtain ⟨htrace, hkept, _, _⟩ := fields_of_receive hr
    simp [nextStateRow, hst, htrace, epilogueEntry, hkept, hlock]
  | rejected b u len hst hu hr hwrong =>
    have hlock := txlk_of_requestInv h (by simp [hst])
    obtain ⟨htrace, hkept, _, _⟩ := fields_of_receive hr
    simp [nextStateRow, hst, htrace, hwrong, epilogueEntry, hkept, hlock]
  | acknowledged u len hst hu hr hl =>
    simp only [requestInv, hst] at h
    obtain ⟨_, _, _, hclear, _⟩ := h
    obtain ⟨hidx, _⟩ := hclear (by simp [hu])
    obtain ⟨htrace, _, _, hsame⟩ := fields_of_receive hr
    have hsome : 0 < len.toNat := Nat.zero_lt_of_lt hl
    simp [nextStateRow, hst, htrace, hu, hsome]
  | acknowledgedEmpty u len hst hu hr hl =>
    have hlock := txlk_of_requestInv h (by simp [hst])
    simp only [requestInv, hst] at h
    obtain ⟨_, _, _, hclear, _⟩ := h
    obtain ⟨hidx, _⟩ := hclear (by simp [hu])
    obtain ⟨htrace, hkept, _, hsame⟩ := fields_of_receive hr
    have hnone : len.toNat = 0 := by rw [hsame, hidx] at hl; exact Nat.le_zero.mp hl
    simp [nextStateRow, hst, htrace, hu, hnone, epilogueEntry, hkept, hlock]
  | echoEnds u len hst hu hr =>
    have hlock := txlk_of_requestInv h (by simp [hst])
    obtain ⟨htrace, hkept, _, _⟩ := fields_of_receive hr
    simp [nextStateRow, hst, htrace, epilogueEntry, hkept, hlock]
  | desynced e u len hst hu hr hwrong =>
    have hlock := txlk_of_requestInv h (by simp [hst])
    obtain ⟨htrace, hkept, _, _⟩ := fields_of_receive hr
    simp [nextStateRow, hst, htrace, hwrong, epilogueEntry, hkept, hlock]
  | echoed u len hst hu hr =>
    obtain ⟨htrace, _, _, _⟩ := fields_of_receive hr
    simp [nextStateRow, hst, htrace]
  | confirms len hst hu hl => simp [nextStateRow, hst, hu, hl]
  | confirmsLast len hst hu hl =>
    have hlock := txlk_of_requestInv h (by simp [hst])
    simp [nextStateRow, hst, hu, hl, epilogueEntry, hlock]
  | packs pic x0 y0 nf hst hi =>
    subst hi
    simp only [nextStateRow, hst]
    refine ⟨_, _, rfl, ?_⟩
    simp only [goto_pb, drawn_pb, packedByteSent_pb, goto_st]
    split <;> rfl
  | unlocksFrame nf nb hst hb hl =>
    have hframes := frames_lt_of_bitmapShape hb
    have hnext : (s.fr + 1#16).toNat = s.fr.toNat + 1 := BitVec.toNat_add_of_lt (by simp; omega)
    simp only [nextStateRow, hst, hasNextFrame, hb, decide_eq_true_eq, if_pos hl]
    exact ⟨rfl, hnext⟩
  | unlocksLast nf nb hst hb hl =>
    simp only [nextStateRow, hst, hasNextFrame, hb, decide_eq_true_eq, if_neg hl.not_gt]
    rfl
  | unlocks hst hb => simp [nextStateRow, hst, hasNextFrame, hb]

theorem engineStep_of_step (ht : s.turns = []) (h : step s = .next t) : engineStep s = .next t :=
  (step_eq_engineStep ht).symm.trans h

/-- Settles O16: the row of the move the step makes. -/
theorem stepFollowsNextStateTable : Obligations.StepFollowsNextStateTable := by
  intro s t i hinv ht hidle hd hstep hne
  have hmove : Move i s t := by
    rcases engineStep_cases (engineStep_of_step ht hstep) with ⟨hst, _⟩ | ⟨j, hj, _, hmove⟩ | ⟨e, he, _⟩
    · exact absurd hst hidle
    · rw [hd] at hj; cases hj; exact hmove
    · rw [hd] at he; cases he
  exact hmove.nextStateRow_of_ne (hinv.request hd) hne

/-! ## The rate over a request -/

theorem epilogueEntry_ne_baudUp (s : State) : epilogueEntry s ≠ .baudUp := by
  unfold epilogueEntry afterUnlock afterRestore
  split_ifs <;> decide

theorem conclude_st_ne_baudUp (x : Status) (v a : Word) (s : State) : (conclude x v a s).st ≠ .baudUp :=
  epilogueEntry_ne_baudUp s

/-- Only `BAUD_GET` leads to `BAUD_UP`, and it saves the rate on the way (R201). -/
theorem Move.saves_of_baudUp (hmove : Move i s t) (ht : t.st = .baudUp) :
    t = s ∨ s.st = .baudGet ∧ t.savedBaud = s.baud := by
  cases hmove with
  | waits => exact .inl rfl
  | savesRate hst => exact .inr ⟨hst, rfl⟩
  | refused | sendsLast | lengthEnds | endsEmpty | endsNoRecords | endsCount | payloadEnds | handsLast | readyEnds
  | rejected | acknowledgedEmpty | echoEnds | desynced | confirmsLast | unlocksLast =>
    exact absurd ht (conclude_st_ne_baudUp _ _ _ _)
  | sendsByte _ hst => cases hst.symm.trans ht
  | takesLength _ _ hst _ hr =>
    obtain ⟨_, _, hstay, _⟩ := fields_of_receive hr
    cases (hstay.trans hst).symm.trans ht
  | pauses | findsHigh | raisesRate =>
    simp only [goto_st, afterAcquisition] at ht
    split_ifs at ht
  | endsHeader | packs =>
    simp only [goto_st] at ht
    split_ifs at ht
  | unlocks | restores =>
    simp only [goto_st, afterUnlock, afterRestore] at ht
    split_ifs at ht
  | _ => cases ht

/-- The rate is raised in no request that stands at `BAUD_GET`, and is at `BAUD_RESTORE` (R215). -/
theorem baudChg_of_requestInv (h : requestInv i s) :
    (s.st = .baudGet → s.baudChg = false) ∧ (s.st = .baudRestore → s.baudChg = true) := by
  refine ⟨fun hst => ?_, fun hst => ?_⟩ <;> simp only [requestInv, hst] at h
  · obtain ⟨_, _, _, hchg, _⟩ := h
    exact hchg
  · obtain ⟨_, _, _, _, hchg, _⟩ := h
    exact hchg

/-- A move keeps the rate from before the request, running or saved (R31, R205). -/
theorem Move.rateKept_of_rateKept {rate : Word} (hmove : Move i s t) (h : requestInv i s) (hrate : rateKept rate s) :
    rateKept rate t := by
  obtain ⟨hruns, hsaved⟩ := hrate
  obtain ⟨hget, hrestore⟩ := baudChg_of_requestInv h
  rcases hmove.rate_eq with ⟨hchg, hbaud, hsv⟩ | ⟨hst, hchg, hsv⟩ | ⟨hst, hchg, hbaud⟩
  · refine ⟨fun hc => hbaud.trans (hruns (hchg.symm.trans hc)), fun hc => ?_⟩
    rcases hsv with hsv | ⟨hst, hsv⟩
    · rcases hc with hc | hc
      · exact hsv.trans (hsaved (.inl (hchg.symm.trans hc)))
      · rcases hmove.saves_of_baudUp hc with rfl | ⟨hst, hsv⟩
        · exact hsaved (.inr hc)
        · exact hsv.trans (hruns (hget hst))
    · exact hsv.trans (hruns (hget hst))
  · exact ⟨fun hc => absurd (hchg.symm.trans hc) (by decide), fun _ => hsv.trans (hsaved (.inr hst))⟩
  · refine ⟨fun _ => hbaud.trans (hsaved (.inl (hrestore hst))), fun hc => ?_⟩
    rcases hc with hc | hc
    · exact absurd (hchg.symm.trans hc) (by decide)
    · rcases hmove.saves_of_baudUp hc with rfl | ⟨hget', _⟩
      · cases hst.symm.trans hc
      · cases hst.symm.trans hget'

/-- With nothing held the rate from before runs, and whatever `SAVED_BAUD` holds is not asked for. -/
theorem rateKept_of_runs {rate : Word} (hchg : s.baudChg = false) (hbaud : s.baud = rate) (hst : s.st ≠ .baudUp) :
    rateKept rate s :=
  ⟨fun _ => hbaud, fun hc => hc.elim (fun hc => absurd (hchg.symm.trans hc) (by decide)) fun hc => absurd hc hst⟩

/-- A step of the engine keeps the rate. -/
theorem engineStep_keeps_rate {rate : Word} (hinv : Inv s) (hrate : rateKept rate s)
    (hstep : engineStep s = .next t) : rateKept rate t := by
  rcases engineStep_cases hstep with ⟨hst, rfl | ⟨d, rest, _, rfl⟩⟩ | ⟨i, hd, _, hmove⟩ |
    ⟨e, hd, hidle, ⟨_, rfl⟩ | hepi⟩
  · exact hrate
  · obtain ⟨_, _, _, _, hinvst⟩ := hinv
    simp only [stepInv, hst] at hinvst
    obtain ⟨_, hchg, _⟩ := hinvst
    exact rateKept_of_runs hchg (hrate.1 hchg) (by simp)
  · exact hmove.rateKept_of_rateKept (hinv.request hd) hrate
  · obtain ⟨⟨_, hchg, _⟩, _⟩ := hinv.at_refused hd hidle
    exact rateKept_of_runs hchg (hrate.1 hchg) (epilogueEntry_ne_baudUp s)
  · obtain ⟨⟨_, hchg, _⟩, _⟩ := hinv.at_refused hd hidle
    rcases stepEpilogue_of_refused hinv hd hidle hepi with rfl | rfl
    · exact hrate
    · exact rateKept_of_runs hchg (hrate.1 hchg) (by simp)

/-- An action of another agent that sets no rate, and is no reset, keeps the rate. -/
theorem applyEnv_keeps_rate {rate : Word} {a : EnvAction} (hset : ∀ r, a ≠ .otherSetsBaud r) (hreset : a ≠ .reset)
    (hrate : rateKept rate s) : rateKept rate (applyEnv a s) := by
  cases a with
  | listenerTakes =>
    rw [applyEnv, listenerTake]
    split <;> exact hrate
  | otherLocks | otherTx =>
    rw [applyEnv]
    split <;> exact hrate
  | otherSetsBaud r => exact absurd rfl (hset r)
  | reset => exact absurd rfl hreset
  | _ => exact hrate

/-- Settles O22. -/
theorem priorRateKeptByEveryStep : Obligations.PriorRateKeptByEveryStep := by
  intro s t rate hinv hrate hset hreset hstep
  rcases turnStep_cases s with ⟨_, hturn⟩ | ⟨rest, _, hturn⟩ | ⟨a, rest, hturns, hturn⟩
  · exact engineStep_keeps_rate hinv hrate (hturn.symm.trans hstep)
  · exact engineStep_keeps_rate ((inv_of_turns rest).mpr hinv) hrate (hturn.symm.trans hstep)
  · cases hturn.symm.trans hstep
    refine applyEnv_keeps_rate (fun r hr => ?_) (fun hr => ?_) hrate
    · exact hset r rest (hr ▸ hturns)
    · exact hreset rest (hr ▸ hturns)

/-! ## After the response -/

/-- At `RESP` nothing is held and the outcome has a named status, whatever the descriptor (R272). -/
theorem Inv.at_resp (h : Inv s) (hst : s.st = .resp) : nothingHeld s ∧ concluded s := by
  obtain ⟨_, _, _, _, hstep⟩ := h
  simp only [stepInv, hst] at hstep
  split at hstep
  · simpa only [requestInv, hst] using hstep
  · obtain ⟨hheld, hcheck | ⟨_, hcon⟩⟩ := hstep
    · cases hcheck
    · exact ⟨hheld, hcon⟩

/-- `RESP` is the response, whatever the descriptor (R204). -/
theorem step_resp (ht : s.turns = []) (hw : s.withheld = []) (hst : s.st = .resp) : step s = .next (responded s) := by
  have hepi : stepEpilogue s = .next (responded s) := by
    simp only [stepEpilogue, hst]
    exact whenOffered_of_offers (offers_of_withheld_nil .respond hw)
  rw [step_eq_engineStep ht]
  simp only [engineStep, hst]
  split
  · exact (exec_epilogue (.inr (.inr (.inr hst)))).trans hepi
  · simp only [stepRefused, hst]
    exact hepi

/-- Settles O23. -/
theorem responseLeavesNothingHeld : Obligations.ResponseLeavesNothingHeld := by
  intro s rate hinv hrate ht hw hst
  obtain ⟨⟨hlock, hchg, hexcl⟩, hcon⟩ := hinv.at_resp hst
  exact ⟨_, step_resp ht hw hst, rfl, hlock, hchg, hexcl, hrate.1 hchg, rfl, hcon⟩

/-! ## The wire under the lock -/

/-- An event of a request puts no other writer's byte on the wire (R71, R77). -/
theorem foreign_of_recordsOne (h : recordsOne s t) :
    (wire t.trace).filter (fun b => !b.1) = (wire s.trace).filter (fun b => !b.1) := by
  rcases h with hsame | ⟨e, he, hone⟩
  · rw [hsame]
  · have hown : (wire [e]).filter (fun b => !b.1) = [] := by
      cases e with
      | accept | foreignTx => cases he
      | _ => rfl
    rw [hone, wire, List.filterMap_append, List.filter_append]
    exact (congrArg _ hown).trans (List.append_nil _)

/-- An action of another agent puts no byte on the wire while no other writer holds the lock (R77, log 15). -/
theorem applyEnv_trace_of_free (a : EnvAction) (h : s.otherLock = false) : (applyEnv a s).trace = s.trace := by
  cases a with
  | listenerTakes =>
    rw [applyEnv, listenerTake]
    split <;> rfl
  | otherLocks =>
    rw [applyEnv]
    split <;> rfl
  | otherTx b => rw [applyEnv, h]; rfl
  | _ => rfl

/-- A step of the engine with the lock held is none of `IDLE`, and records an event of its request. -/
theorem recordsOne_of_txlk (hinv : Inv s) (hlock : s.txlk = true) (hstep : engineStep s = .next t) :
    recordsOne s t := by
  refine (engineStep_frame hstep fun hst => ?_).2
  obtain ⟨_, _, _, _, hinvst⟩ := hinv
  simp only [stepInv, hst] at hinvst
  rw [hinvst.1] at hlock
  cases hlock

/-- Settles O48: the engine's steps write no other writer's byte, and no other writer holds the lock. -/
theorem noForeignByteUnderTxLock : Obligations.NoForeignByteUnderTxLock := by
  intro s t hinv hlock hstep
  rcases turnStep_cases s with ⟨_, hturn⟩ | ⟨rest, _, hturn⟩ | ⟨a, rest, _, hturn⟩
  · exact foreign_of_recordsOne (recordsOne_of_txlk hinv hlock (hturn.symm.trans hstep))
  · exact foreign_of_recordsOne (s := { s with turns := rest })
      (recordsOne_of_txlk ((inv_of_turns rest).mpr hinv) hlock (hturn.symm.trans hstep))
  · cases hturn.symm.trans hstep
    obtain ⟨_, _, _, hone, _⟩ := hinv
    rw [applyEnv_trace_of_free a (s := { s with turns := rest }) (hone hlock)]

end Sys2Proof.Machine
end

section
/-! PROOFS. What each kind of request leaves alone: `cmd`, `wipe` and `bitmap` (R138, R139, R170, R178), and the
read-expecting requests (R206 to R214). -/
namespace Sys2Proof.Machine

variable {i : Instr} {s t : State}

/-! ## Requests that read nothing -/

/-- The state with all that `cmd` and `wipe` write blanked. -/
def framerBlanked (s : State) : State :=
  { s with
    st := .idle, status := 0#4, value := 0#32, aux := 0#32, fb := [], hi := 0#8, hiWraps := 0, txlk := false,
    trace := [] }

theorem stepEpilogue_framerBlanked (hrate : s.st ≠ .baudRestore) (htoken : s.st ≠ .resume)
    (h : stepEpilogue s = .next t) : framerBlanked t = framerBlanked s := by
  rcases stepEpilogue_cases h with ⟨_, rfl⟩ | ⟨hst, _⟩ | ⟨hst, _⟩ | ⟨_, rfl | rfl⟩
  · rfl
  · exact absurd hst hrate
  · exact absurd hst htoken
  · rfl
  · rfl

/-- A step of `cmd` or `wipe` that gives back neither rate nor token. -/
theorem frameOnly_framerBlanked {bytes : List Byte} (hrate : s.st ≠ .baudRestore) (htoken : s.st ≠ .resume)
    (h : frameOnly bytes s = .next t) : framerBlanked t = framerBlanked s := by
  unfold frameOnly at h
  split at h
  · cases h; rfl
  · rcases stepLock_cases h with rfl | ⟨_, rfl⟩ <;> rfl
  · obtain ⟨b, _, rfl | ⟨_, rfl⟩ | ⟨_, rfl⟩⟩ := stepTxFrame_cases h <;> rfl
  · exact stepEpilogue_framerBlanked hrate htoken h

/-- A step of `bitmap` that gives back neither rate nor token. -/
theorem execBitmap_bitmapBlanked {x0 y0 : Word} {w h : Half} {thr : Byte} {inv : Bool} {stride : BitVec 3}
    {nf : Half} {base : Word} (hrate : s.st ≠ .baudRestore) (htoken : s.st ≠ .resume)
    (hx : execBitmap x0 y0 w h thr inv stride nf base s = .next t) : bitmapBlanked t = bitmapBlanked s := by
  unfold execBitmap at hx
  split at hx
  · cases hx
    rcases bitmapCheck_cases w h nf stride base s with ⟨_, _, _, _, hq⟩ | ⟨_, hq⟩ <;> rw [hq] <;> rfl
  · rcases stepLock_cases hx with rfl | ⟨_, rfl⟩ <;> rfl
  · obtain ⟨b, _, rfl | ⟨_, rfl⟩ | ⟨_, rfl⟩⟩ := stepTxFrame_cases hx <;> rfl
  · obtain ⟨_, rfl | rfl⟩ := stepPkData_cases hx <;> rfl
  · rcases stepFrameUnlock_cases nf s with ⟨_, hq⟩ | ⟨_, hq⟩ <;> rw [hq] at hx <;> cases hx <;> rfl
  · exact (congrArg bitmapBlanked (stepEpilogue_framerBlanked hrate htoken hx) :)

/-- A request that reads nothing is never at a step that gives back the rate or the token (R178). -/
theorem not_releasing_of_not_readExpecting (hr : readExpecting i = false) (h : requestInv i s) :
    s.st ≠ .baudRestore ∧ s.st ≠ .resume := by
  refine ⟨fun hst => ?_, fun hst => ?_⟩ <;> simp only [requestInv, hst, hr] at h
  · obtain ⟨_, hread, _⟩ := h
    cases hread
  · obtain ⟨hread, _⟩ := h
    cases hread

/-- What every request that reads nothing leaves alone, and `cmd` and `wipe` beyond it. -/
theorem exec_framer_frame (hr : readExpecting i = false) (hrate : s.st ≠ .baudRestore) (htoken : s.st ≠ .resume)
    (h : exec i s = .next t) :
    bitmapBlanked t = bitmapBlanked s ∧ (bitmapShape i = none → framerBlanked t = framerBlanked s) := by
  cases i with
  | cmd op ps =>
    have hframe := frameOnly_framerBlanked hrate htoken h
    exact ⟨(congrArg bitmapBlanked hframe :), fun _ => hframe⟩
  | wipe =>
    have hframe := frameOnly_framerBlanked hrate htoken h
    exact ⟨(congrArg bitmapBlanked hframe :), fun _ => hframe⟩
  | bitmap => exact ⟨execBitmap_bitmapBlanked hrate htoken h, fun hb => nomatch hb⟩
  | _ => cases hr

/-- Settles O25. -/
theorem nonReadingRequestFrame : Obligations.NonReadingRequestFrame := by
  intro i s t hr hinv hd _ h
  obtain ⟨hrate, htoken⟩ := not_releasing_of_not_readExpecting hr (hinv.request hd)
  obtain ⟨hb, hframer⟩ := exec_framer_frame hr hrate htoken h
  refine ⟨(congrArg State.excl hb :), (congrArg State.baudChg hb :), (congrArg State.baud hb :),
    (congrArg State.savedBaud hb :), (congrArg State.rx hb :), (congrArg State.lenW hb :),
    (congrArg State.lenIdx hb :), (congrArg State.lenAcc hb :), (congrArg State.n hb :), (congrArg State.rem hb :),
    (congrArg State.dbyte hb :), (congrArg State.rph hb :), (congrArg State.idx hb :), (congrArg State.acked hb :),
    (congrArg State.last hb :), fun hnone => ?_⟩
  have hf := hframer hnone
  exact ⟨(congrArg State.fr hf :), (congrArg State.pb hf :), (congrArg State.pbyte hf :),
    (congrArg State.draws hf :)⟩

/-! ## The brackets -/

/-- The state with all that the brackets write blanked, but for the rate's registers. -/
def tokenBlanked (s : State) : State :=
  { s with st := .idle, txlk := false, excl := false, rx := [], trace := [] }

/-- The state with all that the brackets write blanked. -/
def bracketBlanked (s : State) : State :=
  { tokenBlanked s with baudChg := false, baud := 0#32, savedBaud := 0#32 }

theorem stepBracket_bracketBlanked {elev : Bool} (h : stepBracket elev s = .next t) :
    bracketBlanked t = bracketBlanked s := by
  rcases stepBracket_cases h with ⟨_, rfl | rfl⟩ | ⟨_, _, rfl | ⟨_, rfl⟩ | ⟨_, rfl⟩⟩ | ⟨_, _, rfl | rfl⟩ |
    ⟨_, rfl | rfl⟩ | ⟨_, rfl | ⟨_, rfl⟩⟩ | hepi
  iterate 11 rfl
  rcases stepEpilogue_cases hepi with ⟨_, rfl⟩ | ⟨_, rfl | rfl⟩ | ⟨_, rfl⟩ | ⟨_, rfl | rfl⟩ <;> rfl

/-- A request that raises no rate leaves it alone (R201). -/
theorem stepBracket_tokenBlanked (hrate : s.st ≠ .baudRestore) (h : stepBracket false s = .next t) :
    tokenBlanked t = tokenBlanked s := by
  rcases stepBracket_cases h with ⟨_, rfl | rfl⟩ | ⟨_, he, _⟩ | ⟨_, he, _⟩ | ⟨_, rfl | rfl⟩ |
    ⟨_, rfl | ⟨_, rfl⟩⟩ | hepi
  · rfl
  · rfl
  · cases he
  · cases he
  iterate 4 rfl
  rcases stepEpilogue_cases hepi with ⟨_, rfl⟩ | ⟨hst, _⟩ | ⟨_, rfl⟩ | ⟨_, rfl | rfl⟩
  · rfl
  · exact absurd hst hrate
  iterate 3 rfl

/-! ## Uploads -/

/-- The state with all that an upload writes blanked. -/
def uploadBlanked (s : State) : State :=
  { bracketBlanked s with
    status := 0#4, value := 0#32, aux := 0#32, fb := [], hi := 0#8, hiWraps := 0, rph := 0#2, idx := 0#32,
    acked := 0#32, last := 0#8, draws := 0 }

theorem uploadBlanked_of_receive {x : Option Byte} (h : receive s = some (x, t)) :
    uploadBlanked t = uploadBlanked s := by
  obtain ⟨r, d, rfl⟩ := eq_of_receive h
  rfl

theorem upload_uploadBlanked {k : UploadKind} {ps : List Word} {base len : Word}
    (h : upload k ps base len s = .next t) : uploadBlanked t = uploadBlanked s := by
  unfold upload at h
  split at h
  · cases h
    rcases uploadCheck_cases k ps base len s with ⟨_, _, _, _, hq⟩ | ⟨_, hq⟩ <;> rw [hq] <;> rfl
  · obtain ⟨b, _, rfl | ⟨_, rfl⟩ | ⟨_, rfl⟩⟩ := stepTxFrame_cases h <;> rfl
  · rcases stepRxReady_cases h with rfl | ⟨u, hr, rfl⟩ | ⟨r, u, hr, _, rfl⟩ | ⟨u, hr, ⟨_, rfl⟩ | ⟨_, rfl⟩⟩
    · rfl
    iterate 4 exact (uploadBlanked_of_receive hr : uploadBlanked u = _)
  · obtain ⟨_, rfl | rfl⟩ := stepUpSend_cases h <;> rfl
  · rcases stepUpEcho_cases h with rfl | ⟨u, hr, rfl⟩ | ⟨e, u, hr, _, rfl⟩ | ⟨u, hr, rfl⟩
    · rfl
    iterate 3 exact (uploadBlanked_of_receive hr : uploadBlanked u = _)
  · rcases stepUpConf_cases h with rfl | ⟨_, rfl⟩ | ⟨_, rfl⟩ <;> rfl
  · exact (congrArg uploadBlanked (stepBracket_bracketBlanked h) :)

/-! ## Downloads, `ls` and `free` -/

/-- The state with all that `free` writes blanked. -/
def freeBlanked (s : State) : State :=
  { tokenBlanked s with
    status := 0#4, value := 0#32, aux := 0#32, fb := [], hi := 0#8, hiWraps := 0, lenW := 0#3, lenIdx := 0#3,
    lenAcc := 0#32, n := 0#32, rph := 0#2, draws := 0 }

/-- The state with all that `ls` writes blanked. -/
def lsBlanked (s : State) : State := { freeBlanked s with rem := 0#32, dbyte := 0#8, idx := 0#32 }

/-- The state with all that a download writes blanked. -/
def downloadBlanked (s : State) : State :=
  { lsBlanked s with acked := 0#32, baudChg := false, baud := 0#32, savedBaud := 0#32 }

theorem freeBlanked_of_receive {x : Option Byte} (h : receive s = some (x, t)) : freeBlanked t = freeBlanked s := by
  obtain ⟨r, d, rfl⟩ := eq_of_receive h
  rfl

theorem stepTxFrame_beginLen_freeBlanked {w : Nat} (h : stepTxFrame (beginLen w) s = .next t) :
    freeBlanked t = freeBlanked s := by
  obtain ⟨b, _, rfl | ⟨_, rfl⟩ | ⟨_, rfl⟩⟩ := stepTxFrame_cases h <;> rfl

/-- A length byte is counted, and the request goes on with what leaves the same alone. -/
theorem stepRxLen_freeBlanked {done : State → State} (f : State → State)
    (hf : ∀ u v, freeBlanked u = freeBlanked v → f u = f v) (hdone : ∀ u, f (done u) = f u)
    (h : stepRxLen done s = .next t) : f t = f s := by
  rcases stepRxLen_cases h with rfl | ⟨u, hr, rfl⟩ | ⟨b, u, hr, _, rfl⟩ | ⟨b, u, hr, _, rfl⟩
  · rfl
  · exact hf _ _ (freeBlanked_of_receive hr : freeBlanked u = _)
  · exact hf _ _ (freeBlanked_of_receive hr : freeBlanked u = _)
  · exact (hdone _).trans (hf _ _ (freeBlanked_of_receive hr : freeBlanked u = _))

theorem stepRxData_lsBlanked (h : stepRxData s = .next t) : lsBlanked t = lsBlanked s := by
  rcases stepRxData_cases h with rfl | ⟨u, hr, rfl⟩ | ⟨b, u, hr, rfl⟩
  · rfl
  iterate 2 exact (congrArg lsBlanked (freeBlanked_of_receive hr) :)

theorem stepDataOut_lsBlanked {x : Status} {v : Word} (h : stepDataOut (finish x v) s = .next t) :
    lsBlanked t = lsBlanked s := by
  rcases stepDataOut_cases h with rfl | ⟨_, rfl⟩ | ⟨_, rfl⟩ <;> rfl

theorem beginPayload_lsBlanked {count : Word} {x : Status} {v : Word} (u : State) :
    lsBlanked (beginPayload count (finish x v) u) = lsBlanked u := by
  unfold beginPayload
  split <;> rfl

theorem afterSize_downloadBlanked (u : State) : downloadBlanked (afterSize u) = downloadBlanked u := by
  unfold afterSize
  split
  · rfl
  · exact (congrArg downloadBlanked (beginPayload_lsBlanked u) :)

theorem download_downloadBlanked {op : Byte} {elev : Bool} {ps : List Word}
    (h : download op elev ps s = .next t) : downloadBlanked t = downloadBlanked s := by
  unfold download at h
  split at h
  · cases h; rfl
  · exact (congrArg downloadBlanked (stepTxFrame_beginLen_freeBlanked h) :)
  · exact stepRxLen_freeBlanked downloadBlanked (fun _ _ hu => (congrArg downloadBlanked hu :))
      afterSize_downloadBlanked h
  · exact (congrArg downloadBlanked (stepRxData_lsBlanked h) :)
  · exact (congrArg downloadBlanked (stepDataOut_lsBlanked h) :)
  · exact (congrArg downloadBlanked (stepBracket_bracketBlanked h) :)

theorem execLs_lsBlanked {ps : List Word} (hrate : s.st ≠ .baudRestore) (h : execLs ps s = .next t) :
    lsBlanked t = lsBlanked s := by
  unfold execLs at h
  split at h
  · cases h; rfl
  · exact (congrArg lsBlanked (stepTxFrame_beginLen_freeBlanked h) :)
  · exact stepRxLen_freeBlanked lsBlanked (fun _ _ hu => (congrArg lsBlanked hu :))
      (fun u => beginPayload_lsBlanked u) h
  · exact stepRxData_lsBlanked h
  · exact stepDataOut_lsBlanked h
  · exact (congrArg lsBlanked (stepBracket_tokenBlanked hrate h) :)

theorem execFree_freeBlanked {ps : List Word} (hrate : s.st ≠ .baudRestore) (h : execFree ps s = .next t) :
    freeBlanked t = freeBlanked s := by
  unfold execFree at h
  split at h
  · cases h; rfl
  · exact stepTxFrame_beginLen_freeBlanked h
  · exact stepRxLen_freeBlanked (done := fun t => finish .ok t.n t) freeBlanked (fun _ _ hu => hu) (fun _ => rfl) h
  · exact (congrArg freeBlanked (stepBracket_tokenBlanked hrate h) :)

/-- A request that raises no rate is never at the step that gives it back (R204). -/
theorem not_restoring_of_not_elevating (he : elevating i = false) (h : requestInv i s) : s.st ≠ .baudRestore := by
  intro hst
  simp only [requestInv, hst, he] at h
  obtain ⟨hraised, _⟩ := h
  cases hraised

/-- Settles O26: each read-expecting request by the frame of its kind. -/
theorem readingRequestFrame : Obligations.ReadingRequestFrame := by
  intro i s t hr hinv hd _ h
  have hreq := hinv.request hd
  cases i with
  | cmd | bitmap | wipe => cases hr
  | dlfile | dlfs =>
    have hb := download_downloadBlanked h
    exact ⟨(congrArg State.fr hb :), (congrArg State.pb hb :), (congrArg State.pbyte hb :),
      fun hu => absurd rfl hu, fun _ => (congrArg State.last hb :), fun _ hi => by simp at hi,
      fun _ hi => by cases hi⟩
  | upfont | upfs =>
    have hb := upload_uploadBlanked h
    exact ⟨(congrArg State.fr hb :), (congrArg State.pb hb :), (congrArg State.pbyte hb :),
      fun _ => ⟨(congrArg State.lenW hb :), (congrArg State.lenIdx hb :), (congrArg State.lenAcc hb :),
        (congrArg State.n hb :), (congrArg State.rem hb :), (congrArg State.dbyte hb :)⟩,
      fun hu => (nomatch hu), fun _ hi => by simp at hi, fun _ hi => by cases hi⟩
  | ls =>
    have hb := execLs_lsBlanked (not_restoring_of_not_elevating rfl hreq) h
    exact ⟨(congrArg State.fr hb :), (congrArg State.pb hb :), (congrArg State.pbyte hb :),
      fun hu => absurd rfl hu, fun _ => (congrArg State.last hb :),
      fun _ _ => ⟨(congrArg State.baud hb :), (congrArg State.savedBaud hb :), (congrArg State.baudChg hb :),
        (congrArg State.acked hb :)⟩, fun _ hi => by cases hi⟩
  | free =>
    have hb := execFree_freeBlanked (not_restoring_of_not_elevating rfl hreq) h
    exact ⟨(congrArg State.fr hb :), (congrArg State.pb hb :), (congrArg State.pbyte hb :),
      fun hu => absurd rfl hu, fun _ => (congrArg State.last hb :),
      fun _ _ => ⟨(congrArg State.baud hb :), (congrArg State.savedBaud hb :), (congrArg State.baudChg hb :),
        (congrArg State.acked hb :)⟩,
      fun _ _ => ⟨(congrArg State.rem hb :), (congrArg State.dbyte hb :), (congrArg State.idx hb :)⟩⟩

end Sys2Proof.Machine
end

section
/-! PROOFS. Single steps: the frame sender (R133), the length decoder (R134), the upload's checks and its byte
(R211), a broken exclusivity (R300), and how the engine's turn comes to be a step of a request (R137). -/
namespace Sys2Proof.Machine

variable {i : Instr} {s : State}

/-! ## The frame sender -/

/-- What follows the last byte of a frame leaves the frame and its index alone, and is no `TX_FRAME`. -/
theorem afterLastByte_frame (i : Instr) (u : State) :
    (afterLastByte i u).trace = u.trace ∧ (afterLastByte i u).fb = u.fb ∧ (afterLastByte i u).hi = u.hi ∧
      (afterLastByte i u).hiWraps = u.hiWraps ∧ (afterLastByte i u).st ≠ .txFrame := by
  refine ⟨by cases i <;> rfl, by cases i <;> rfl, by cases i <;> rfl, by cases i <;> rfl, ?_⟩
  cases i with
  | cmd | wipe =>
    simp only [afterLastByte, finish_eq, conclude_st, epilogueEntry, afterUnlock, afterRestore]
    split_ifs <;> simp
  | bitmap =>
    simp only [afterLastByte, goto_st]
    split <;> simp
  | _ => simp [afterLastByte, beginLen]

/-- In `TX_FRAME` with `Tx` offered, the byte at the index is sent (R133). -/
theorem exec_txFrame_sends {b : Byte} (hst : s.st = .txFrame) (hw : s.withheld = [])
    (hb : s.fb[sentCount s]? = some b) :
    exec i s = .next (if sentCount s + 1 < s.fb.length then frameByteSent b s
      else afterLastByte i (frameByteSent b s)) := by
  rw [exec_txFrame i hst, stepTxFrame, hb]
  simp only [whenOffered_of_offers (offers_of_withheld_nil .tx hw), sentCount_frameByteSent]

/-- Settles O30: while bytes are left the step stays, and what follows the last byte leaves it. -/
theorem frameSenderSendsByteAtIndex : Obligations.FrameSenderSendsByteAtIndex := by
  intro i s b hst hw _ _ hb
  have hindex : 256 * (frameByteSent b s).hiWraps + (frameByteSent b s).hi.toNat = 256 * s.hiWraps + s.hi.toNat + 1 :=
    sentCount_frameByteSent b s
  refine ⟨_, exec_txFrame_sends hst hw hb, ?_⟩
  by_cases hmore : sentCount s + 1 < s.fb.length
  · rw [if_pos hmore]
    exact ⟨rfl, rfl, rfl, hindex, iff_of_true hst hmore⟩
  · rw [if_neg hmore]
    obtain ⟨htrace, hfb, hhi, hwraps, hleave⟩ := afterLastByte_frame i (frameByteSent b s)
    refine ⟨htrace, hfb, hhi, ?_, iff_of_false hleave hmore⟩
    rw [hhi, hwraps, hindex]

/-- Settles O31: at index 255 the u8 wraps and the wrap is counted, so that byte 256 is next. -/
theorem longFrameIndexWraps : Obligations.LongFrameIndexWraps := by
  intro op ps s b c hst hquiet hd hhi hwraps hb hc
  obtain ⟨ht, hw, hfree⟩ := hquiet
  obtain ⟨hlong, _⟩ := List.getElem?_eq_some_iff.mp hc
  have hcount : sentCount s = 255 := by rw [sentCount, hhi, hwraps]; rfl
  have hsent : frameByteSent b s = { s with hi := 0#8, hiWraps := 1, trace := s.trace ++ [.tx b] } := by
    rw [frameByteSent, hhi, hwraps]; rfl
  have hfirst : exec (.cmd op ps) s = .next (frameByteSent b s) := by
    rw [exec_txFrame_sends hst hw (hcount ▸ hb), if_pos (by rw [hcount]; exact hlong)]
  refine ⟨hsent ▸ hfirst, ?_⟩
  have hstep : step s = .next (frameByteSent b s) := by rw [step_eq_exec ht hd (by simp [hst]) (by simp [hst]), hfirst]
  have hnext : (frameByteSent b s).fb[sentCount (frameByteSent b s)]? = some c := by
    rw [sentCount_frameByteSent, hcount]; exact hc
  have hsecond := (step_eq_exec (s := frameByteSent b s) ht hd (by simp [hst]) (by simp [hst])).trans
    (exec_txFrame_sends hst hw hnext)
  refine ⟨_, by rw [steps_succ_of_step 1 hstep, steps_succ_of_step 0 hsecond, steps], ?_⟩
  obtain ⟨htrace, _, hkept, _⟩ := afterLastByte_frame (.cmd op ps) (frameByteSent c (frameByteSent b s))
  have hhi' : (frameByteSent c (frameByteSent b s)).hi = 1#8 := by
    rw [frameByteSent_hi, frameByteSent_hi, hhi]; rfl
  have htrace' : (frameByteSent c (frameByteSent b s)).trace = s.trace ++ [.tx b, .tx c] := by
    rw [frameByteSent_trace, frameByteSent_trace, List.append_assoc]; rfl
  split
  · exact ⟨hhi', htrace'⟩
  · exact ⟨hkept.trans hhi', htrace.trans htrace'⟩

/-! ## The length decoder -/

/-- What a request goes on with after its length field (R208, R213, R214). -/
def afterLength : Instr → State → State
  | .dlfile .. => afterSize
  | .dlfs .. => afterSize
  | .ls .. => fun t => beginPayload (BitVec.ofNat 32 (Config.recW * t.n.toNat)) (finish .ok t.n) t
  | .free .. => fun t => finish .ok t.n t
  | _ => id

/-- `RX_LEN` of every request that has a length field (R134). -/
theorem exec_rxLen_eq (hw : 0 < lengthWidth i) (hst : s.st = .rxLen) :
    exec i s = stepRxLen (afterLength i) s := by
  cases i with
  | dlfile | dlfs | ls | free => simp only [exec, execDlfile, execDlfs, download, execLs, execFree, hst, afterLength]
  | _ => nomatch hw

theorem epilogueEntry_ne_rxLen (s : State) : epilogueEntry s ≠ .rxLen := by
  unfold epilogueEntry afterUnlock afterRestore
  split_ifs <;> simp

/-- What follows the length field leaves it, its value, the input and the trace alone, and is no `RX_LEN`. -/
theorem afterLength_frame (hw : 0 < lengthWidth i) (u : State) :
    (afterLength i u).rx = u.rx ∧ (afterLength i u).trace = u.trace ∧ (afterLength i u).lenAcc = u.lenAcc ∧
      (afterLength i u).lenIdx = u.lenIdx ∧ (afterLength i u).n = u.n ∧ (afterLength i u).st ≠ .rxLen := by
  cases i with
  | dlfile | dlfs =>
    simp only [afterLength, afterSize, beginPayload]
    split_ifs <;> exact ⟨rfl, rfl, rfl, rfl, rfl, by simp [epilogueEntry_ne_rxLen]⟩
  | ls =>
    simp only [afterLength, beginPayload]
    split_ifs <;> exact ⟨rfl, rfl, rfl, rfl, rfl, by simp [epilogueEntry_ne_rxLen]⟩
  | free => exact ⟨rfl, rfl, rfl, rfl, rfl, epilogueEntry_ne_rxLen u⟩
  | _ => nomatch hw

/-- In `RX_LEN` with a byte held, the byte is counted, and the field goes on or is complete (R134). -/
theorem exec_rxLen_byte {b : Byte} {rest : List Byte} (hw : 0 < lengthWidth i) (hst : s.st = .rxLen)
    (hoffer : s.withheld = []) (htap : s.tapped = false) (hrx : s.rx = b :: rest) :
    exec i s = .next (if (s.lenIdx + 1#3).toNat < s.lenW.toNat then lenByteTaken b (rxDelivered b rest s)
      else afterLength i (lenDone (lenByteTaken b (rxDelivered b rest s)))) := by
  rw [exec_rxLen_eq hw hst]
  simp only [stepRxLen, stepRx, receive_of_byte hoffer htap hrx]
  rfl

/-- Settles O40: the invariant bounds the field, so a byte at its weight does not overflow. -/
theorem lengthDecoderAssemblesLittleEndian : Obligations.LengthDecoderAssemblesLittleEndian := by
  intro i s b rest hst hinv hoffer hd htap hrx
  have hreq := hinv.request hd
  simp only [requestInv, hst] at hreq
  obtain ⟨_, hwidth, hidx, _, hacc⟩ := hreq
  have hw : 0 < lengthWidth i := Nat.zero_lt_of_lt hidx
  have hle := lengthWidth_le i
  have hnext := lenIdx_succ (k := s.lenIdx) (by omega)
  obtain ⟨hsum, _⟩ := lenAcc_add_byte (b := b) (k := s.lenIdx) (by omega) hacc
  refine ⟨_, exec_rxLen_byte hw hst hoffer htap hrx, ?_⟩
  by_cases hmore : s.lenIdx.toNat + 1 < lengthWidth i
  · rw [if_pos (by rw [hnext, hwidth]; exact hmore)]
    exact ⟨rfl, rfl, hsum, hnext, iff_of_true hst hmore, fun hlast => absurd hlast hmore.ne⟩
  · rw [if_neg (by rw [hnext, hwidth]; exact hmore)]
    obtain ⟨hrx', htrace, hacc', hidx', hn, hleave⟩ :=
      afterLength_frame hw (lenDone (lenByteTaken b (rxDelivered b rest s)))
    refine ⟨hrx', htrace, ?_, ?_, iff_of_false hleave hmore, fun _ => hn.trans hacc'.symm⟩
    · rw [hacc']; exact hsum
    · rw [hidx']; exact hnext

/-! ## The upload's checks and its byte -/

/-- `CHECK` of an upload with nothing held: a check that fails writes its outcome and the response is next;
otherwise the header is loaded (R211). -/
theorem uploadCheck_of_nothingHeld (op : Byte) (wl : LenWidth) (capacity : Option Word) (ps : List Word)
    (base len : Word) (hheld : nothingHeld s) :
    uploadCheck ⟨op, wl, capacity⟩ ps base len s = (uploadChecks capacity wl base len).elim
      (goto .pause (countersReset (loadFrame (uploadHeader op ps len wl) s)))
      fun (x, v, a) => { s with st := .resp, status := statusCode x, value := v, aux := a } := by
  rcases uploadCheck_cases ⟨op, wl, capacity⟩ ps base len s with ⟨x, v, a, hc, hq⟩ | ⟨hc, hq⟩
  · rw [hq, hc, conclude, epilogueEntry_of_nothingHeld hheld]
    rfl
  · rw [hq, hc]
    rfl

/-- Settles O42: `CHECK` follows the first check that fails. -/
theorem uploadChecksInOrder : Obligations.UploadChecksInOrder := by
  intro ps base len s hst hheld
  constructor
  · have hexec : exec (.upfs ps base len) s =
        .next (uploadCheck ⟨s.cfg.opUploadFs, s.cfg.upLenWFs, some s.cfg.fsCapacity⟩ ps base len s) := by
      simp only [exec, execUpfs, upload, hst]; rfl
    rw [hexec, uploadCheck_of_nothingHeld _ _ _ _ _ _ hheld, uploadChecks, payEnd]
    split_ifs <;> rfl
  · have hexec : exec (.upfont ps base len) s =
        .next (uploadCheck ⟨s.cfg.opUploadFont, s.cfg.upLenWFont, none⟩ ps base len s) := by
      simp only [exec, execUpfont, upload, hst]; rfl
    rw [hexec, uploadCheck_of_nothingHeld _ _ _ _ _ _ hheld, uploadChecks, payEnd]
    split_ifs <;> rfl

/-- In `UP_SEND` with `Tx` offered and the address in the space, the payload byte goes out (R211). -/
theorem exec_upSend_sends {ps : List Word} {base len : Word}
    (hi : i = .upfont ps base len ∨ i = .upfs ps base len) (hst : s.st = .upSend) (hw : s.withheld = [])
    (ha : base.toNat + s.idx.toNat < 2 ^ 32) :
    exec i s = .next (goto .upEcho (drawn 1 (payloadByteSent (payloadByte base s) s))) := by
  rw [exec_upSend hi hst, stepUpSend, if_neg ha.not_ge]
  exact whenOffered_of_offers (offers_of_withheld_nil .tx hw)

/-- Settles O46: a read of `PAY` is the byte held, or free where the caller changed it. -/
theorem uploadSendsOneByte : Obligations.UploadSendsOneByte := by
  intro i ps base len s hi hst hw ha
  rw [exec_upSend_sends hi hst hw ha, payloadByte, stableRead]
  refine ⟨fun hkept => ?_, fun hchanged => ?_⟩
  · rw [if_neg hkept]; rfl
  · rw [if_pos hchanged]; rfl

/-! ## A broken exclusivity -/

/-- The state as a breach has it: noted, and the draws as given (R300, log 8). -/
def breached (draws : Nat) (s : State) : State := { s with tapped := true, draws := draws }

/-- After a breach a read delivers the free value of its draw and uses the oldest byte up (R300, log 21). -/
theorem receive_of_breach {b : Byte} {rest : List Byte} (htap : s.tapped = true) (hoffer : s.withheld = [])
    (hrx : s.rx = b :: rest) :
    receive s = some (some (Config.freeByte s.draws), drawn 1 (rxDelivered (Config.freeByte s.draws) rest s)) := by
  simp [receive, offers_of_withheld_nil .rx hoffer, hrx, htap]

/-- A reading step that goes on from a byte without asking for the breach or the draws goes on after a breach as
it does without one from the free byte. -/
theorem stepRx_of_breach {b : Byte} {rest : List Byte} {e e' : State → State} {g : Byte → State → State}
    (htap : s.tapped = true) (hoffer : s.withheld = []) (hrx : s.rx = b :: rest)
    (hcomm : ∀ d x u, g x (breached d u) = breached d (g x u))
    (hkeep : ∀ x u, (g x u).rx = u.rx ∧ (g x u).trace = u.trace) :
    ∃ u, stepRx { s with tapped := false, rx := Config.freeByte s.draws :: rest } e' g = .next u ∧
      stepRx s e g = .next { u with tapped := true, draws := s.draws + 1 } ∧ u.rx = rest ∧
      u.trace = s.trace ++ [.rx (some (Config.freeByte s.draws))] := by
  have hfree := receive_of_byte (s := { s with tapped := false, rx := Config.freeByte s.draws :: rest })
    hoffer rfl rfl
  have hsame : drawn 1 (rxDelivered (Config.freeByte s.draws) rest s) =
      breached (s.draws + 1) (rxDelivered (Config.freeByte s.draws) rest { s with tapped := false }) := by
    rw [breached, ← htap]; rfl
  refine ⟨_, by rw [stepRx, hfree], ?_, (hkeep _ _).1, (hkeep _ _).2⟩
  rw [stepRx, receive_of_breach htap hoffer hrx, hsame]
  exact congrArg Host.Outcome.next (hcomm _ _ _)

theorem afterLength_breached (d : Nat) (u : State) : afterLength i (breached d u) = breached d (afterLength i u) := by
  cases i with
  | dlfile | dlfs =>
    simp only [afterLength, afterSize, beginPayload, apply_ite (breached d)]
    rfl
  | ls =>
    simp only [afterLength, beginPayload, apply_ite (breached d)]
    rfl
  | _ => rfl

/-- Settles O49: at each reading step, what the request does with the byte asks neither for the breach nor for the
draws. -/
theorem brokenExclusivityFreesReads : Obligations.BrokenExclusivityFreesReads := by
  refine ⟨fun s b rest hexcl hrx => ?_, fun s b rest htap hoffer hrx => ?_,
    fun i s b rest hinv hd hst htap hoffer hrx => ?_⟩
  · simp [applyEnv, listenerTake, hrx, hexcl]
  · exact ⟨_, receive_of_breach htap hoffer hrx, rfl, rfl, rfl⟩
  rcases hst with hst | hst | hst | hst
  · obtain ⟨_, _, hidx, _⟩ := hinv.at_rxLen hd hst
    have hw : 0 < lengthWidth i := Nat.zero_lt_of_lt hidx
    rw [exec_rxLen_eq hw hst, exec_rxLen_eq (s := { s with tapped := false, rx := _ }) hw hst]
    refine stepRx_of_breach htap hoffer hrx (fun d x u => ?_) (fun x u => ?_)
    · rw [apply_ite (breached d), ← afterLength_breached]
      rfl
    · split
      · exact ⟨rfl, rfl⟩
      · obtain ⟨hrx', htrace, _⟩ := afterLength_frame hw (lenDone (lenByteTaken x u))
        exact ⟨hrx', htrace⟩
  · obtain ⟨_, ⟨_, hcount, _⟩, _⟩ := hinv.at_rxData hd hst
    rw [exec_rxData hcount hst, exec_rxData (s := { s with tapped := false, rx := _ }) hcount hst]
    exact stepRx_of_breach htap hoffer hrx (fun _ _ _ => rfl) (fun _ _ => ⟨rfl, rfl⟩)
  · obtain ⟨_, ⟨len, hlen⟩, _⟩ := hinv.at_rxReady hd hst
    rw [exec_rxReady hlen hst, exec_rxReady (s := { s with tapped := false, rx := _ }) hlen hst]
    refine stepRx_of_breach htap hoffer hrx (fun d x u => ?_) (fun x u => ?_)
    · rw [apply_ite (breached d), apply_ite (breached d)]
      rfl
    · split_ifs <;> exact ⟨rfl, rfl⟩
  · obtain ⟨_, ⟨len, hlen⟩, _⟩ := hinv.at_upEcho hd hst
    rw [exec_upEcho hlen hst, exec_upEcho (s := { s with tapped := false, rx := _ }) hlen hst]
    refine stepRx_of_breach htap hoffer hrx (fun d x u => ?_) (fun x u => ?_)
    · rw [apply_ite (breached d)]
      rfl
    · split_ifs <;> exact ⟨rfl, rfl⟩

/-! ## The engine's turn -/

theorem reserved_code_gt (k : Fin 12) : 19#5 < stCode (.reserved k) := by
  revert k; decide

/-- Settles O12. -/
theorem stepRunsDecodedRequest : Obligations.StepRunsDecodedRequest := by
  intro s i rest hidle hcode hd
  have hnamed : ∀ k, s.st ≠ .reserved k := fun k hst => by
    rw [hst] at hcode
    exact absurd hcode (BitVec.not_le.mpr (reserved_code_gt k))
  have hengine : ∀ turns, engineStep { s with turns := turns } = exec i { s with turns := turns } := fun turns => by
    unfold engineStep
    split
    · exact absurd ‹_› (hnamed _)
    · exact absurd ‹_› hidle
    · rw [hd]
  exact ⟨fun ht => step_eq_exec ht hd hidle hnamed, fun ht => by rw [step, turnStep, ht]; exact hengine rest⟩

/-- A descriptor with `MAX_PARAMS` entries is accepted as it stands (R90, log 14). -/
theorem fitRequest_of_length {n : Nat} {d : Request} (h : d.params.length = n) : fitRequest n d = d := by
  have hparams : padParams n (d.params.take n) = d.params := by
    rw [padParams, List.take_of_length_le h.le, h, Nat.sub_self]
    exact List.append_nil _
  rw [fitRequest, hparams]

/-- Settles O13. -/
theorem idleAcceptsOldestDescriptor : Obligations.IdleAcceptsOldestDescriptor := by
  intro s ht hst hw
  have hidle : step s = stepIdle s := by
    rw [step_eq_engineStep ht]
    simp only [engineStep, hst]
  refine ⟨fun hnone => ?_, fun d rest hsome hlen => ?_⟩
  · rw [hidle, stepIdle, hnone]
  · rw [hidle, stepIdle, hsome]
    simp only [whenOffered_of_offers (offers_of_withheld_nil .accept hw), fitRequest_of_length hlen]
    rfl

/-! ## The caller's memories, and reset -/

/-- During a request an address whose byte differs joins the changed ones (R64, log 20). -/
theorem mem_noteChange {m : Memory} {changed : List Nat} {a : Nat} {b : Byte} (hbusy : s.st ≠ .idle)
    (hdiff : memRead m a ≠ b) : a ∈ noteChange s m changed a b := by
  have hb : busy s = true := by simp [busy, hbusy]
  rw [noteChange, if_pos ⟨hb, hdiff⟩]
  exact List.mem_cons_self

/-- Settles O50: the laws of a write, for each of the two memories. -/
theorem callerWriteReadsBack : Obligations.CallerWriteReadsBack := by
  intro s a b hpix hpay
  exact ⟨⟨memRead_memWrite_same hpix, fun c hc => memRead_memWrite_other hc, rfl, memWrite_wf hpix a.isLt,
      fun hbusy hdiff => mem_noteChange hbusy hdiff⟩,
    memRead_memWrite_same hpay, fun c hc => memRead_memWrite_other hc, rfl, memWrite_wf hpay a.isLt,
      fun hbusy hdiff => mem_noteChange hbusy hdiff⟩

/-- Settles O51: reset keeps every field it does not give its reset value. -/
theorem resetClearsFlagsWithoutEvents : Obligations.ResetClearsFlagsWithoutEvents :=
  ⟨fun _ => ⟨rfl, ⟨rfl, rfl, rfl⟩, rfl, rfl, rfl, rfl, rfl, rfl, rfl, rfl, rfl, rfl, rfl, rfl, rfl, rfl, rfl, rfl, rfl,
    rfl, fun _ => ⟨rfl, rfl⟩⟩, rfl, rfl, rfl, rfl⟩

end Sys2Proof.Machine
end

section
/-! PROOFS. The packed byte and its laws (R172 to R174, R177), and one frame of `bitmap` (R170, R175). -/
namespace Sys2Proof.Machine

/-! ## The packed byte -/

/-- Bit `7 - i` of eight packed bits is bit `i` (R67, R174). -/
theorem packBits_getLsbD (bit : Nat → Bool) {i : Nat} (hi : i < 8) : (packBits bit).getLsbD (7 - i) = bit i := by
  rw [packBits, BitVec.getLsbD_ofBoolListBE]
  interval_cases i <;> rfl

theorem packByte_getLsbD (pic : Picture) (s : State) (f j : Nat) {i : Nat} (hi : i < 8) :
    (packByte pic s f j).getLsbD (7 - i) = pixelBit pic.thr pic.inv (pixelLevel pic s f (8 * j + i)) :=
  packBits_getLsbD _ hi

/-- Packed bytes are equal when their eight pixels are. -/
theorem byte_eq_of_pixels {a b : Byte} (h : ∀ i < 8, a.getLsbD (7 - i) = b.getLsbD (7 - i)) : a = b := by
  apply BitVec.eq_of_getLsbD_eq
  intro k hk
  have hbit := h (7 - k) (by omega)
  rwa [show 7 - (7 - k) = k by omega] at hbit

/-- Settles O9: a channel byte's draw counts from the pixel's place in its packed byte. -/
theorem packedBitIsPixelDarkness : Obligations.PackedBitIsPixelDarkness := by
  intro pic s f j i hi
  have hplace : (8 * j + i) % 8 = i := by omega
  rw [packByte_getLsbD pic s f j hi, pixelBit, pixelLevel, intensity, List.map_map, hplace]
  rfl

/-! ## The laws of the packer -/

/-- The bytes of a packed byte's pixels lie between its first address and its end (R61). -/
theorem pixAddr_in_range (pic : Picture) (f j : Nat) {i k : Nat} (hi : i < 8) (hk : k < pic.stride.toNat) :
    pixAddr pic.pixBase pic.w pic.h pic.stride f (8 * j) 0 ≤
        pixAddr pic.pixBase pic.w pic.h pic.stride f (8 * j + i) k ∧
      pixAddr pic.pixBase pic.w pic.h pic.stride f (8 * j + i) k < packEnd pic f j := by
  simp only [packEnd, pixAddr]
  have hfirst : (f * pic.w.toNat * pic.h.toNat + 8 * j) * pic.stride.toNat ≤
      (f * pic.w.toNat * pic.h.toNat + (8 * j + i)) * pic.stride.toNat := Nat.mul_le_mul_right _ (by omega)
  have hlast : (f * pic.w.toNat * pic.h.toNat + (8 * j + i) + 1) * pic.stride.toNat ≤
      (f * pic.w.toNat * pic.h.toNat + (8 * j + 8)) * pic.stride.toNat := Nat.mul_le_mul_right _ (by omega)
  rw [Nat.succ_mul] at hlast
  omega

/-- Where the caller has changed no byte, a pixel is as bright as its bytes in memory make it (R64, R172). -/
theorem pixelLevel_of_unchanged {pic : Picture} {s : State} (h : s.pixChanged = []) (f p : Nat) :
    pixelLevel pic s f p = intensity pic.stride ((List.range pic.stride.toNat).map fun k =>
      memRead s.pix (pixAddr pic.pixBase pic.w pic.h pic.stride f p k)) := by
  simp only [pixelLevel, stableRead, h, List.not_mem_nil, if_false]

/-- Channel bytes that are all `b` make a pixel of level `b`. -/
theorem intensity_of_equal {stride : BitVec 3} {read : Nat → Byte} {b : Byte} (hs : 0 < stride.toNat)
    (h : ∀ k < stride.toNat, read k = b) : intensity stride ((List.range stride.toNat).map read) = b.toNat := by
  have hbytes : (List.range stride.toNat).map read = List.replicate stride.toNat b :=
    List.eq_replicate_iff.mpr ⟨by simp, fun x hx => by
      obtain ⟨k, hk, rfl⟩ := List.mem_map.mp hx
      exact h k (List.mem_range.mp hk)⟩
  rw [intensity, hbytes, List.map_replicate, List.sum_replicate, smul_eq_mul, Nat.mul_div_cancel_left _ hs]

/-- A packed byte whose pixels all read `b` has eight equal bits (R173). -/
theorem packByte_getLsbD_of_equal {pic : Picture} {s : State} {f j : Nat} {b : Byte} (h : s.pixChanged = [])
    (hs : pic.stride.toNat ∈ Config.strides)
    (hb : ∀ a, pixAddr pic.pixBase pic.w pic.h pic.stride f (8 * j) 0 ≤ a → a < packEnd pic f j →
      memRead s.pix a = b) {i : Nat} (hi : i < 8) :
    (packByte pic s f j).getLsbD (7 - i) = pixelBit pic.thr pic.inv b.toNat := by
  have hpos : 0 < pic.stride.toNat := by
    rw [mem_strides_iff] at hs
    omega
  rw [packByte_getLsbD _ _ _ _ hi, pixelLevel_of_unchanged h, intensity_of_equal hpos fun k hk => ?_]
  obtain ⟨hfrom, hto⟩ := pixAddr_in_range pic f j hi hk
  exact hb _ hfrom hto

/-- Settles O10: each law pixel by pixel. -/
theorem packerLaws : Obligations.PackerLaws := by
  refine ⟨fun pic s f j => ?_, fun pic s f j h hthr hinv hs hwhite => ?_, fun pic s f j h hthr hinv hs hblack => ?_,
    fun pic s t f j hs ht hsame => ?_⟩ <;> apply byte_eq_of_pixels <;> intro i hi
  · have hones : (0xFF#8).getLsbD (7 - i) = true := by interval_cases i <;> rfl
    have hlevel : pixelLevel { pic with inv := true } s f (8 * j + i) =
        pixelLevel { pic with inv := false } s f (8 * j + i) := rfl
    rw [BitVec.getLsbD_xor, packByte_getLsbD _ _ _ _ hi, packByte_getLsbD _ _ _ _ hi, hones, hlevel]
    simp [pixelBit]
  · rw [packByte_getLsbD_of_equal h hs hwhite hi, hthr, hinv, BitVec.getLsbD_zero]
    rfl
  · have hones : (0xFF#8).getLsbD (7 - i) = true := by interval_cases i <;> rfl
    rw [packByte_getLsbD_of_equal h hs hblack hi, hthr, hinv, hones]
    rfl
  · rw [packByte_getLsbD _ _ _ _ hi, packByte_getLsbD _ _ _ _ hi, pixelLevel_of_unchanged hs,
      pixelLevel_of_unchanged ht]
    congr 2
    refine List.map_congr_left fun k hk => ?_
    obtain ⟨hfrom, hto⟩ := pixAddr_in_range pic f j hi (List.mem_range.mp hk)
    exact hsame _ hfrom hto

/-! ## One frame -/

/-- Settles O33: the frame's run, its events and where it leads. -/
theorem bitmapSendsOneFrame : Obligations.BitmapSendsOneFrame := by
  intro x0 y0 w h thr inv stride nf base s hst hquiet ⟨_, hrate, htoken⟩ hd hc hfr
  have hs : Drawing x0 y0 nf ⟨w, h, thr, inv, stride, base⟩ s := ⟨hquiet, hd, hc, hrate, htoken⟩
  obtain ⟨t, hrun, htrace, hblank, hpb, hindex, hafter⟩ := hs.steps_frame hst hfr
  have ht : Drawing x0 y0 nf ⟨w, h, thr, inv, stride, base⟩ t := hs.of_blanked_eq hblank
  refine ⟨t, hrun, ?_, ⟨hafter.unheld, ht.rate, ht.token⟩, hpb, hindex, fun hmore => hafter.more (by omega),
    fun hlast => hafter.last (by omega)⟩
  rw [htrace, frameEvents]
  simp only [← List.append_assoc]
  rw [List.append_assoc s.trace]
  rfl

end Sys2Proof.Machine
end

section
/-! PROOFS. Whole requests of the framer (R138, R139), and the brackets of the read-expecting requests (R200 to
R204), in a quiet environment. -/
namespace Sys2Proof.Machine

/-! ## A request that is served -/

/-- The request `i` is under way in a quiet environment. -/
structure Serving (i : Instr) (s : State) : Prop where
  quiet : quiet s
  request : decode s.cfg s.rq = .ok i

/-- The steps a request can take: every named code of `ST` but `IDLE` (R21). -/
def requestSteps : List St :=
  [.check, .pause, .baudGet, .baudUp, .flush, .lock, .txFrame, .rxLen, .rxData, .dataOut, .rxReady, .upSend, .upEcho,
    .upConf, .pkData, .unlock, .baudRestore, .resume, .resp]

section
variable {i : Instr} {s : State}

theorem Serving.step_eq (h : Serving i s) {x : St} (hst : s.st = x) (hx : x ∈ requestSteps) : step s = exec i s := by
  obtain ⟨ht, _, _⟩ := h.quiet
  refine step_eq_exec ht h.request (fun hidle => ?_) (fun k hk => ?_)
  · rw [← hst, hidle] at hx
    revert hx
    decide
  · rw [← hst, hk] at hx
    simp [requestSteps] at hx

theorem Serving.offers (h : Serving i s) (k : EventKind) : offers s k = true := by
  obtain ⟨_, hw, _⟩ := h.quiet
  exact offers_of_withheld_nil k hw

/-- A step that leads on is the first of a run. -/
theorem steps_of_step {t u : State} {n : Nat} (h : step s = .next t) (hrun : steps n t = .next u) :
    steps (n + 1) s = .next u := by
  rw [steps_succ_of_step n h, hrun]

theorem steps_one {t : State} (h : step s = .next t) : steps 1 s = .next t := steps_of_step h rfl

/-! ## The epilogue -/

/-- The state after the epilogue: whatever was held released in its order, and the outcome reported (R204). -/
def released (s : State) : State :=
  { s with
    st := .idle, txlk := false, baudChg := false, excl := false,
    baud := if s.baudChg = true then s.savedBaud else s.baud,
    trace := s.trace ++ (if s.txlk = true then [.unlock] else []) ++
      (if s.baudChg = true then [.setBaud s.savedBaud] else []) ++ (if s.excl = true then [.resume] else []) ++
      [.respond s.status s.value s.aux] }

/-- One step for each thing held, and the response. -/
def epilogueLength (s : State) : Nat := s.txlk.toNat + s.baudChg.toNat + s.excl.toNat + 1

/-- `RESP`. -/
theorem Serving.steps_of_resp (h : Serving i s) (hst : s.st = .resp) (hheld : nothingHeld s) :
    steps (epilogueLength s) s = .next (released s) := by
  obtain ⟨hlock, hrate, htoken⟩ := hheld
  have hstep : step s = .next (responded s) := by
    rw [h.step_eq hst (by decide), exec_epilogue (by simp [hst])]
    simp only [stepEpilogue, hst]
    exact whenOffered_of_offers (h.offers .respond)
  have hdone : responded s = released s := by
    simp [responded, released, hlock, hrate, htoken]
  rw [epilogueLength, hlock, hrate, htoken, ← hdone]
  exact steps_one hstep

/-- `RESUME` when the token is held, and on. -/
theorem Serving.steps_of_afterRestore (h : Serving i s) (hst : s.st = afterRestore s) (hlock : s.txlk = false)
    (hrate : s.baudChg = false) : steps (epilogueLength s) s = .next (released s) := by
  cases htoken : s.excl with
  | false =>
    rw [afterRestore, htoken] at hst
    exact h.steps_of_resp hst ⟨hlock, hrate, htoken⟩
  | true =>
    rw [afterRestore, htoken, if_pos rfl] at hst
    have hstep : step s = .next (goto .resp (resumed s)) := by
      rw [h.step_eq hst (by decide), exec_epilogue (by simp [hst])]
      simp [stepEpilogue, hst]
    have hnext : Serving i (goto .resp (resumed s)) := ⟨h.quiet, h.request⟩
    have hrun := hnext.steps_of_resp rfl ⟨hlock, hrate, rfl⟩
    have hlen : epilogueLength s = epilogueLength (goto .resp (resumed s)) + 1 := by
      simp [epilogueLength, htoken]
    have hdone : released (goto .resp (resumed s)) = released s := by
      simp [released, htoken, goto, resumed, hlock, hrate]
    rw [hlen, ← hdone]
    exact steps_of_step hstep hrun

/-- `BAUD_RESTORE` when the rate was raised, and on. -/
theorem Serving.steps_of_afterUnlock (h : Serving i s) (hst : s.st = afterUnlock s) (hlock : s.txlk = false) :
    steps (epilogueLength s) s = .next (released s) := by
  cases hrate : s.baudChg with
  | false =>
    rw [afterUnlock, hrate] at hst
    exact h.steps_of_afterRestore hst hlock hrate
  | true =>
    rw [afterUnlock, hrate, if_pos rfl] at hst
    have hstep : step s = .next (goto (afterRestore s) (baudRestored s)) := by
      rw [h.step_eq hst (by decide), exec_epilogue (by simp [hst])]
      simp only [stepEpilogue, hst]
      exact whenOffered_of_offers (h.offers .setBaud)
    have hnext : Serving i (goto (afterRestore s) (baudRestored s)) := ⟨h.quiet, h.request⟩
    have hrun := hnext.steps_of_afterRestore rfl hlock rfl
    have hlen : epilogueLength s = epilogueLength (goto (afterRestore s) (baudRestored s)) + 1 := by
      simp [epilogueLength, hrate]
      omega
    have hdone : released (goto (afterRestore s) (baudRestored s)) = released s := by
      simp [released, hrate, goto, baudRestored, hlock]
    rw [hlen, ← hdone]
    exact steps_of_step hstep hrun

/-- The epilogue from its first step (R204). -/
theorem Serving.steps_of_epilogueEntry (h : Serving i s) (hb : bitmapShape i = none) (hst : s.st = epilogueEntry s) :
    steps (epilogueLength s) s = .next (released s) := by
  cases hlock : s.txlk with
  | false =>
    rw [epilogueEntry, hlock] at hst
    exact h.steps_of_afterUnlock hst hlock
  | true =>
    rw [epilogueEntry, hlock, if_pos rfl] at hst
    have hstep : step s = .next (goto (afterUnlock s) (unlocked s)) := by
      rw [h.step_eq hst (by decide), exec_epilogue (.inl ⟨hst, hb⟩)]
      simp [stepEpilogue, hst]
    have hnext : Serving i (goto (afterUnlock s) (unlocked s)) := ⟨h.quiet, h.request⟩
    have hrun := hnext.steps_of_afterUnlock rfl rfl
    have hlen : epilogueLength s = epilogueLength (goto (afterUnlock s) (unlocked s)) + 1 := by
      simp [epilogueLength, hlock]
      omega
    have hdone : released (goto (afterUnlock s) (unlocked s)) = released s := by
      simp [released, hlock, goto, unlocked]
      exact ⟨rfl, rfl⟩
    rw [hlen, ← hdone]
    exact steps_of_step hstep hrun

/-- Settles O36. -/
theorem epilogueReleasesInOrder : Obligations.EpilogueReleasesInOrder := by
  intro i s hquiet _ hd hb hst
  have hs : Serving i s := ⟨hquiet, hd⟩
  refine ⟨_, _, ?_, hs.steps_of_epilogueEntry hb hst, rfl, ⟨rfl, rfl, rfl⟩, rfl, rfl, rfl, rfl, rfl⟩
  have := s.txlk.toNat_le
  have := s.baudChg.toNat_le
  have := s.excl.toNat_le
  unfold epilogueLength
  omega

/-! ## The prologue -/

/-- `LOCK`, while no other writer holds the lock (R77). -/
theorem Serving.step_lock (h : Serving i s) (hst : s.st = .lock) (hb : bitmapShape i = none) :
    step s = .next (goto .txFrame (locked s)) := by
  obtain ⟨_, _, hfree⟩ := h.quiet
  have hexec : exec i s = stepLock id s := by
    cases i with
    | bitmap => cases hb
    | _ => simp only [exec, execCmd, execWipe, frameOnly, execDlfile, execDlfs, download, execUpfont, execUpfs, upload,
        execLs, execFree, stepBracket, hst]
  rw [h.step_eq hst (by decide), hexec]
  simp only [stepLock, h.offers .lock, hfree]
  rfl

/-- The input discarded where the instance does so, and the lock taken (R202, R77). -/
def acquired (s : State) : State :=
  { s with
    st := .txFrame, txlk := true, rx := if s.cfg.flushOnAcquire = true then [] else s.rx,
    trace := s.trace ++ (if s.cfg.flushOnAcquire = true then [.flush] else []) ++ [.lock] }

/-- From the acquisition to the frame (R202, R215). -/
theorem Serving.steps_of_afterAcquisition (h : Serving i s) (hr : readExpecting i = true)
    (hst : s.st = afterAcquisition s) : ∃ k ≤ 2, steps k s = .next (acquired s) := by
  have hb := bitmapShape_of_readExpecting hr
  cases hflush : s.cfg.flushOnAcquire with
  | false =>
    rw [afterAcquisition, hflush] at hst
    refine ⟨1, by decide, (steps_one (h.step_lock hst hb)).trans ?_⟩
    simp [acquired, hflush, goto, locked]
  | true =>
    rw [afterAcquisition, hflush, if_pos rfl] at hst
    have hstep : step s = .next (goto .lock (flushed s)) := by
      rw [h.step_eq hst (by decide), exec_bracket hr (by simp [hst])]
      simp only [stepBracket, hst]
      exact whenOffered_of_offers (h.offers .flush)
    have hnext : Serving i (goto .lock (flushed s)) := ⟨h.quiet, h.request⟩
    refine ⟨2, le_rfl, (steps_of_step hstep (steps_one (hnext.step_lock rfl hb))).trans ?_⟩
    simp [acquired, hflush, goto, locked, flushed]

/-- The rate read, and raised and saved where it was another (R201). -/
def elevated (s : State) : State :=
  { s with
    st := afterAcquisition s, baud := Config.baudHigh,
    savedBaud := if s.baud ≠ Config.baudHigh then s.baud else s.savedBaud,
    baudChg := decide (s.baud ≠ Config.baudHigh) || s.baudChg,
    trace := s.trace ++
      (.getBaud s.baud :: (if s.baud ≠ Config.baudHigh then [.setBaud Config.baudHigh] else [])) }

/-- From `BAUD_GET` to the acquisition (R201). -/
theorem Serving.steps_of_baudGet (h : Serving i s) (he : elevating i = true) (hst : s.st = .baudGet) :
    ∃ k ≤ 2, steps k s = .next (elevated s) := by
  have hr := readExpecting_of_elevating he
  have hget : exec i s = .next (if s.baud = Config.baudHigh then goto (afterAcquisition s) (baudRead s)
      else goto .baudUp (baudSaved (baudRead s))) := by
    rw [exec_bracket hr (by simp [hst])]
    simp only [stepBracket, hst, he, if_true]
    exact whenOffered_of_offers (h.offers .getBaud)
  by_cases hhigh : s.baud = Config.baudHigh
  · refine ⟨1, by decide, ?_⟩
    rw [if_pos hhigh] at hget
    refine (steps_one ((h.step_eq hst (by decide)).trans hget)).trans ?_
    simp [elevated, hhigh, goto, baudRead]
  · refine ⟨2, le_rfl, ?_⟩
    rw [if_neg hhigh] at hget
    have hnext : Serving i (goto .baudUp (baudSaved (baudRead s))) := ⟨h.quiet, h.request⟩
    have hup : step (goto .baudUp (baudSaved (baudRead s))) =
        .next (goto (afterAcquisition s) (baudRaised (goto .baudUp (baudSaved (baudRead s))))) := by
      rw [hnext.step_eq (x := .baudUp) rfl (by decide), exec_bracket hr (by simp)]
      simp only [stepBracket, goto_st, he, if_true]
      exact whenOffered_of_offers (hnext.offers .setBaud)
    refine (steps_of_step ((h.step_eq hst (by decide)).trans hget) (steps_one hup)).trans ?_
    simp [elevated, hhigh, goto, baudRead, baudSaved, baudRaised]

/-- `PAUSE` (R200). -/
theorem Serving.step_pause (h : Serving i s) (hr : readExpecting i = true) (hst : s.st = .pause) :
    step s = .next (goto (if elevating i = true then .baudGet else afterAcquisition s) (paused s)) := by
  rw [h.step_eq hst (by decide), exec_bracket hr (by simp [hst])]
  simp only [stepBracket, hst]
  exact whenOffered_of_offers (h.offers .pause)

/-- Settles O35: the token, the rate where the request elevates, and the acquisition. -/
theorem prologueTakesTokenRateAndLock : Obligations.PrologueTakesTokenRateAndLock := by
  intro i s hst hquiet hinv hd
  have hreq := hinv.request hd
  simp only [requestInv, hst] at hreq
  obtain ⟨_, hr, ⟨_, hchg, _⟩, ⟨_, hhi, hwraps⟩, _⟩ := hreq
  have hs : Serving i s := ⟨hquiet, hd⟩
  have hpause := hs.step_pause hr hst
  cases he : elevating i with
  | false =>
    rw [he] at hpause
    have hpaused : Serving i (goto (afterAcquisition s) (paused s)) := ⟨hquiet, hd⟩
    obtain ⟨k, hk, hrun⟩ := hpaused.steps_of_afterAcquisition hr rfl
    refine ⟨k + 1, _, by omega, steps_of_step hpause hrun, rfl, rfl, rfl, rfl, hhi, hwraps, rfl, ?_⟩
    simp [acquired, goto, paused, hchg]
  | true =>
    rw [he] at hpause
    have hpaused : Serving i (goto .baudGet (paused s)) := ⟨hquiet, hd⟩
    obtain ⟨k, hk, hrate⟩ := hpaused.steps_of_baudGet he rfl
    have hready : Serving i (elevated (goto .baudGet (paused s))) := ⟨hquiet, hd⟩
    obtain ⟨l, hl, hrun⟩ := hready.steps_of_afterAcquisition hr rfl
    refine ⟨k + l + 1, _, by omega, steps_of_step hpause ((steps_add l hrate).trans hrun), rfl, rfl, rfl, rfl, hhi,
      hwraps, rfl, ?_⟩
    simp [acquired, elevated, goto, paused, hchg]
    tauto

/-! ## `cmd` and `wipe` -/

/-- A request of one frame, from `CHECK`: the lock, the bytes, and the response (R138, R139). -/
theorem Serving.steps_frameOnly {bytes : List Byte} (h : Serving i s) (hb : bitmapShape i = none)
    (hexec : ∀ u : State, exec i u = frameOnly bytes u) (hne : bytes ≠ []) (hst : s.st = .check)
    (hheld : nothingHeld s) :
    steps (bytes.length + 4) s = .next { s with
      st := .idle, fb := bytes, hi := BitVec.ofNat 8 bytes.length, hiWraps := bytes.length / 256, status := 0#4,
      value := BitVec.ofNat 32 bytes.length, aux := 0#32,
      trace := s.trace ++ [.lock] ++ bytes.map .tx ++
        [.unlock, .respond 0#4 (BitVec.ofNat 32 bytes.length) 0#32] } := by
  obtain ⟨hlock, hrate, htoken⟩ := hheld
  have hcheck : step s = .next (goto .lock (loadFrame bytes s)) := by
    rw [h.step_eq hst (by decide), hexec]
    simp only [frameOnly, hst]
  have hloaded : Serving i (goto .lock (loadFrame bytes s)) := ⟨h.quiet, h.request⟩
  have hlocks := hloaded.step_lock rfl hb
  have hsends : steps bytes.length (goto .txFrame (locked (goto .lock (loadFrame bytes s)))) =
      .next (finish .ok (BitVec.ofNat 32 bytes.length)
        (frameSent bytes (goto .txFrame (locked (goto .lock (loadFrame bytes s)))))) :=
    steps_txFrame (fun u hu => by rw [hexec, frameOnly, hu]) h.quiet h.request rfl rfl hne
  have hsent : Serving i (finish .ok (BitVec.ofNat 32 bytes.length)
      (frameSent bytes (goto .txFrame (locked (goto .lock (loadFrame bytes s)))))) := ⟨h.quiet, h.request⟩
  have hends := hsent.steps_of_epilogueEntry hb rfl
  have hlen : epilogueLength (finish .ok (BitVec.ofNat 32 bytes.length)
      (frameSent bytes (goto .txFrame (locked (goto .lock (loadFrame bytes s)))))) = 2 := by
    simp [epilogueLength, frameSent, hrate, htoken]
  rw [hlen] at hends
  refine (steps_of_step hcheck (steps_of_step hlocks ((steps_add 2 hsends).trans hends))).trans ?_
  simp [released, conclude, frameSent, goto, locked, loadFrame, hlock, hrate, htoken, sentCount, statusCode]

/-- Settles O28: `CHECK` by its definition, and the run of a request of one frame. -/
theorem cmdSendsItsFrame : Obligations.CmdSendsItsFrame := by
  intro op ps s hst
  refine ⟨by simp only [exec, execCmd, frameOnly, hst]; rfl, fun hquiet hheld hd => ?_⟩
  have hlen : (frame op ps).length = 2 + ps.length := length_frame op ps
  have hs : Serving (.cmd op ps) s := ⟨hquiet, hd⟩
  have hrun := hs.steps_frameOnly (bytes := frame op ps) rfl (fun _ => rfl) (List.cons_ne_nil _ _) hst hheld
  rw [hlen] at hrun
  rw [show ps.length + 6 = 2 + ps.length + 4 by omega]
  exact hrun

/-- Settles O29. -/
theorem wipeSendsFixedFrame : Obligations.WipeSendsFixedFrame := by
  intro s hst
  refine ⟨by simp only [exec, execWipe, frameOnly, hst]; rfl, fun hquiet hheld hd => ?_⟩
  have hs : Serving .wipe s := ⟨hquiet, hd⟩
  have hrun := hs.steps_frameOnly (bytes := wipeFrame) rfl (fun _ => rfl) (List.cons_ne_nil _ _) hst hheld
  rw [List.append_assoc, List.append_assoc] at hrun
  exact hrun

end

end Sys2Proof.Machine
end

section
/-! PROOFS. Downloads, `ls` and `free` (R206 to R208, R213, R214), from the frame's first byte in a quiet environment
with the whole reply received. -/
namespace Sys2Proof.Machine

/-! ## The length field -/

/-- The bytes of a length field have been taken (R26, R134). -/
def lenTaken (bytes rest : List Byte) (s : State) : State :=
  { s with
    rx := rest, lenIdx := BitVec.ofNat 3 (s.lenIdx.toNat + bytes.length),
    lenAcc := s.lenAcc + BitVec.ofNat 32 (fromLE bytes * 2 ^ (8 * s.lenIdx.toNat)),
    trace := s.trace ++ bytes.map fun b => .rx (some b) }

theorem lenTaken_nil {rest : List Byte} {s : State} (h : s.rx = rest) : lenTaken [] rest s = s := by
  cases s
  cases h
  simp [lenTaken, fromLE]

/-- A byte at its weight, as a word (R134). -/
theorem byte_shiftLeft_eq_ofNat (b : Byte) (k : Nat) : b.zeroExtend 32 <<< k = BitVec.ofNat 32 (b.toNat * 2 ^ k) := by
  apply BitVec.eq_of_toNat_eq
  rw [BitVec.toNat_shiftLeft, BitVec.toNat_setWidth_of_le (by decide), Nat.shiftLeft_eq, BitVec.toNat_ofNat]

/-- A byte, then the others. -/
theorem lenTaken_cons (b : Byte) (bytes rest : List Byte) {s : State} (hidx : s.lenIdx.toNat + 1 < 8) :
    lenTaken (b :: bytes) rest s = lenTaken bytes rest (lenByteTaken b (rxDelivered b (bytes ++ rest) s)) := by
  have hnext : (s.lenIdx + 1#3).toNat = s.lenIdx.toNat + 1 := BitVec.toNat_add_of_lt (by simpa using hidx)
  have hacc : s.lenAcc + BitVec.ofNat 32 (fromLE (b :: bytes) * 2 ^ (8 * s.lenIdx.toNat)) =
      s.lenAcc + (b.zeroExtend 32 <<< (8 * s.lenIdx.toNat)) +
        BitVec.ofNat 32 (fromLE bytes * 2 ^ (8 * (s.lenIdx.toNat + 1))) := by
    rw [byte_shiftLeft_eq_ofNat, BitVec.add_assoc, ← BitVec.ofNat_add, fromLE]
    congr 2
    ring
  have hcount : s.lenIdx.toNat + (b :: bytes).length = s.lenIdx.toNat + 1 + bytes.length := by
    rw [List.length_cons]; omega
  simp only [lenTaken, lenByteTaken_lenIdx, lenByteTaken_lenAcc, lenByteTaken_trace, rxDelivered_lenIdx,
    rxDelivered_lenAcc, rxDelivered_trace, hnext, hacc, hcount, List.map_cons]
  rw [List.append_assoc]
  rfl

section
variable {i : Instr} {s : State}

/-- `RX_LEN` takes the rest of a length field, one byte a step, and goes on (R134). -/
theorem Serving.steps_rxLen (hw : 0 < lengthWidth i) {bytes rest : List Byte} : ∀ {s : State}, Serving i s →
    s.tapped = false → s.st = .rxLen → s.rx = bytes ++ rest → bytes ≠ [] →
    s.lenIdx.toNat + bytes.length = s.lenW.toNat →
    steps bytes.length s = .next (afterLength i (lenDone (lenTaken bytes rest s))) := by
  induction bytes with
  | nil => intro s _ _ _ _ hne; exact absurd rfl hne
  | cons b bytes ih =>
    intro s hs htap hst hrx _ hfield
    rw [List.length_cons] at hfield
    have ⟨_, hoffer, _⟩ := hs.quiet
    have hwidth := s.lenW.isLt
    have hnext : (s.lenIdx + 1#3).toNat = s.lenIdx.toNat + 1 := BitVec.toNat_add_of_lt (by simp; omega)
    have hstep := (hs.step_eq hst (by decide)).trans (exec_rxLen_byte hw hst hoffer htap hrx)
    rw [lenTaken_cons b bytes rest (by omega)]
    rcases bytes with _ | ⟨c, bytes⟩
    · rw [if_neg (by rw [hnext, ← hfield]; exact lt_irrefl _)] at hstep
      rw [lenTaken_nil (rest := rest) (s := lenByteTaken b (rxDelivered b ([] ++ rest) s)) rfl]
      exact steps_one hstep
    · rw [if_pos (by rw [hnext, ← hfield, List.length_cons]; omega)] at hstep
      refine steps_of_step hstep (ih ⟨hs.quiet, hs.request⟩ htap hst rfl (List.cons_ne_nil _ _) ?_)
      rw [lenByteTaken_lenIdx, rxDelivered_lenIdx, hnext, lenByteTaken_lenW, rxDelivered_lenW, ← hfield]
      omega

/-! ## The payload -/

/-- The bytes of a payload have been read and handed over (R28, R30, R135). -/
def payloadHanded (bytes rest : List Byte) (s : State) : State :=
  { s with
    rx := rest, dbyte := bytes.getLastD s.dbyte, idx := s.idx + BitVec.ofNat 32 bytes.length,
    rem := s.rem - BitVec.ofNat 32 bytes.length,
    trace := s.trace ++ bytes.flatMap fun b => [.rx (some b), .data b] }

/-- One byte read and handed over. -/
def byteHanded (b : Byte) (rest : List Byte) (s : State) : State :=
  dataHanded (goto .dataOut (dataTaken b (rxDelivered b rest s)))

theorem payloadHanded_nil {rest : List Byte} {s : State} (h : s.rx = rest) : payloadHanded [] rest s = s := by
  cases s
  cases h
  simp [payloadHanded]

/-- A byte, then the others. -/
theorem payloadHanded_cons (b : Byte) (bytes rest : List Byte) {s : State} (hst : s.st = .rxData) :
    payloadHanded (b :: bytes) rest s = payloadHanded bytes rest (goto .rxData (byteHanded b (bytes ++ rest) s)) := by
  have hcount : BitVec.ofNat 32 (b :: bytes).length = 1#32 + BitVec.ofNat 32 bytes.length := by
    rw [List.length_cons, Nat.add_comm, BitVec.ofNat_add]
  simp only [payloadHanded, hcount, ← BitVec.add_assoc, ← BitVec.sub_sub, List.getLastD_cons, List.flatMap_cons,
    ← hst, byteHanded, goto, dataHanded, dataTaken, rxDelivered, List.append_assoc]
  rfl

/-- `RX_DATA` and `DATA_OUT` for one byte of the payload (R135). -/
theorem Serving.steps_payloadByte (hs : Serving i s) {b : Byte} {rest : List Byte} {n count : Word}
    (hp : payloadCount i n = some count) (htap : s.tapped = false) (hst : s.st = .rxData) (hrx : s.rx = b :: rest) :
    steps 2 s = .next (if s.rem - 1#32 = 0#32 then finish .ok s.n (byteHanded b rest s)
      else goto .rxData (byteHanded b rest s)) := by
  have ⟨_, hoffer, _⟩ := hs.quiet
  have htaken : step s = .next (goto .dataOut (dataTaken b (rxDelivered b rest s))) := by
    rw [hs.step_eq hst (by decide), exec_rxData hp hst]
    simp only [stepRxData, stepRx, receive_of_byte hoffer htap hrx]
  have hnext : Serving i (goto .dataOut (dataTaken b (rxDelivered b rest s))) := ⟨hs.quiet, hs.request⟩
  refine steps_of_step htaken (steps_one ?_)
  rw [hnext.step_eq (x := .dataOut) rfl (by decide), exec_dataOut hp rfl]
  exact whenOffered_of_offers (hnext.offers .data)

/-- A payload of at least one byte, and the end of the request (R135, R208). -/
theorem Serving.steps_payload {n count : Word} (hp : payloadCount i n = some count) {bytes rest : List Byte} :
    ∀ {s : State}, Serving i s → s.tapped = false → s.st = .rxData → s.rx = bytes ++ rest → bytes ≠ [] →
      bytes.length = s.rem.toNat →
      steps (2 * bytes.length) s = .next (finish .ok s.n (payloadHanded bytes rest s)) := by
  induction bytes with
  | nil => intro s _ _ _ _ hne; exact absurd rfl hne
  | cons b bytes ih =>
    intro s hs htap hst hrx _ hlen
    have hbyte := hs.steps_payloadByte hp htap hst hrx
    have hleft : (s.rem - 1#32).toNat = bytes.length := by
      rw [List.length_cons] at hlen
      have hone : 1#32 ≤ s.rem := BitVec.le_def.mpr (hlen ▸ Nat.le_add_left 1 bytes.length)
      rw [BitVec.toNat_sub_of_le hone, ← hlen]
      rfl
    rw [payloadHanded_cons b bytes rest hst, List.length_cons, Nat.mul_succ, Nat.add_comm]
    rcases bytes with _ | ⟨c, bytes⟩
    · rw [if_pos (BitVec.eq_of_toNat_eq hleft)] at hbyte
      rw [payloadHanded_nil (rest := rest) (s := goto .rxData (byteHanded b ([] ++ rest) s)) rfl]
      exact hbyte
    · rw [if_neg (by intro h; rw [h] at hleft; simp at hleft)] at hbyte
      exact (steps_add _ hbyte).trans
        (ih ⟨hs.quiet, hs.request⟩ htap rfl rfl (List.cons_ne_nil _ _) hleft.symm)

/-! ## From the frame's first byte -/

/-- The frame has been sent and the length field read (R131, R134). -/
def lengthRead (i : Instr) (field rest : List Byte) (s : State) : State :=
  lenDone (lenTaken field rest (beginLen (lengthWidth i) (frameSent s.fb s)))

theorem lengthRead_n (field rest : List Byte) :
    (lengthRead i field rest s).n = BitVec.ofNat 32 (fromLE field) := by
  simp [lengthRead, lenTaken, beginLen, lenStarted]

theorem lengthRead_trace (field rest : List Byte) :
    (lengthRead i field rest s).trace = s.trace ++ s.fb.map .tx ++ field.map fun b => .rx (some b) := rfl

theorem exec_txFrame_of_lengthWidth (hw : 0 < lengthWidth i) (hst : s.st = .txFrame) :
    exec i s = stepTxFrame (beginLen (lengthWidth i)) s := by
  rw [exec_txFrame i hst]
  cases i with
  | dlfile | dlfs | ls | free => rfl
  | cmd | bitmap | upfont | upfs | wipe => exact absurd hw (lt_irrefl 0)

/-- The frame and the length field of its reply. -/
theorem Serving.steps_lengthField (hs : Serving i s) (hw : 0 < lengthWidth i) {field rest : List Byte}
    (hfield : field.length = lengthWidth i) (htap : s.tapped = false)
    (hst : s.st = .txFrame) (hne : s.fb ≠ []) (hhi : s.hi = 0#8) (hwraps : s.hiWraps = 0)
    (hrx : s.rx = field ++ rest) :
    steps (s.fb.length + field.length) s = .next (afterLength i (lengthRead i field rest s)) := by
  have hsends : steps s.fb.length s = .next (beginLen (lengthWidth i) (frameSent s.fb s)) :=
    steps_txFrame (fun u hu => exec_txFrame_of_lengthWidth hw hu) hs.quiet hs.request hst
      (by rw [sentCount_of_fresh hhi hwraps, List.drop_zero]) hne
  have hready : Serving i (beginLen (lengthWidth i) (frameSent s.fb s)) := ⟨hs.quiet, hs.request⟩
  refine (steps_add _ hsends).trans (hready.steps_rxLen hw htap rfl hrx ?_ ?_)
  · rw [← List.length_pos_iff, hfield]; exact hw
  · change 0 + field.length = (BitVec.ofNat 3 (lengthWidth i)).toNat
    rw [hfield, BitVec.toNat_ofNat, Nat.mod_eq_of_lt ((lengthWidth_le i).trans_lt (by decide)), Nat.zero_add]

/-- The state the payload starts from. -/
theorem Serving.steps_lengthRead_payload {field payload rest : List Byte} {n count : Word} (hs : Serving i s)
    (hp : payloadCount i n = some count) (hlen : payload.length = count.toNat) (hcount : count ≠ 0#32)
    (htap : s.tapped = false) :
    steps (2 * payload.length) (goto .rxData (payloadStarted count (lengthRead i field (payload ++ rest) s))) =
      .next (finish .ok (BitVec.ofNat 32 (fromLE field))
        (payloadHanded payload rest
          (goto .rxData (payloadStarted count (lengthRead i field (payload ++ rest) s))))) := by
  have hready : Serving i (goto .rxData (payloadStarted count (lengthRead i field (payload ++ rest) s))) :=
    ⟨hs.quiet, hs.request⟩
  have hne : payload ≠ [] := by
    rintro rfl
    exact hcount (BitVec.eq_of_toNat_eq hlen.symm)
  rw [← lengthRead_n (i := i) (s := s) field (payload ++ rest)]
  exact hready.steps_payload hp htap rfl rfl hne hlen

/-- The reply of a download starts with its size. -/
theorem lengthRead_size (size : Word) (rest : List Byte) : (lengthRead i (leBytes size 4) rest s).n = size := by
  rw [lengthRead_n, fromLE_leBytes, Nat.mod_eq_of_lt size.isLt, BitVec.ofNat_toNat, BitVec.setWidth_eq]

/-- A download, from the frame's first byte (R208). -/
theorem Serving.steps_download (hs : Serving i s) (hi : ∃ elev ps, i = .dlfile elev ps ∨ i = .dlfs elev ps)
    {size : Word} {payload rest : List Byte} (hst : s.st = .txFrame) (hlock : s.txlk = true)
    (htap : s.tapped = false) (hne : s.fb ≠ []) (hhi : s.hi = 0#8) (hwraps : s.hiWraps = 0)
    (hrx : s.rx = leBytes size 4 ++ payload ++ rest) (hlen : payload.length = size.toNat) :
    ∃ t, steps (s.fb.length + 4 + 2 * payload.length) s = .next t ∧ t.st = .unlock ∧ t.rx = rest ∧
      t.n = size ∧ t.aux = 0#32 ∧ t.value = size ∧ t.status = (if size = 0#32 then 1#4 else 0#4) ∧
      t.txlk = true ∧ t.excl = s.excl ∧ t.baudChg = s.baudChg ∧
      t.trace = s.trace ++ s.fb.map .tx ++ (leBytes size 4).map (fun b => .rx (some b)) ++
        payload.flatMap (fun b => [.rx (some b), .data b]) := by
  obtain ⟨hwidth, hafter, hp⟩ : lengthWidth i = 4 ∧ afterLength i = afterSize ∧ payloadCount i size = some size := by
    obtain ⟨elev, ps, rfl | rfl⟩ := hi <;> exact ⟨rfl, rfl, rfl⟩
  have hread := hs.steps_lengthField (field := leBytes size 4) (rest := payload ++ rest) (by rw [hwidth]; decide)
    (by rw [hwidth, length_leBytes]) htap hst hne hhi hwraps (by rw [hrx, List.append_assoc])
  rw [length_leBytes, hafter, afterSize, lengthRead_size] at hread
  have hn := lengthRead_size (i := i) (s := s) size (payload ++ rest)
  by_cases hzero : size = 0#32
  · subst hzero
    rw [BitVec.toNat_zero, List.length_eq_zero_iff] at hlen
    subst hlen
    rw [if_pos rfl] at hread
    refine ⟨_, hread, conclude_st_of_txlk _ _ _ hlock, rfl, hn, rfl, rfl, rfl, hlock, rfl, rfl, ?_⟩
    rw [List.flatMap_nil, List.append_nil]
    exact lengthRead_trace _ ([] ++ rest)
  · rw [if_neg hzero, beginPayload, if_neg hzero] at hread
    have hrun := (steps_add (2 * payload.length) hread).trans
      (hs.steps_lengthRead_payload hp hlen hzero htap)
    refine ⟨_, hrun, conclude_st_of_txlk _ _ _ hlock, rfl, hn, rfl, ?_, (if_neg hzero).symm, hlock, rfl, rfl, rfl⟩
    rw [← lengthRead_n (i := i) (s := s) _ (payload ++ rest)]
    exact hn

/-- Settles O37. -/
theorem downloadDeliversPayload : Obligations.DownloadDeliversPayload := by
  intro i op elev ps s hi
  refine ⟨fun hst => ?_, fun size payload rest hst hquiet hlock htap hd hfb hhi hwraps hrx hlen => ?_⟩
  · obtain ⟨rfl, rfl⟩ | ⟨rfl, rfl⟩ := hi
    · simp only [exec, execDlfile, download, hst]; rfl
    · simp only [exec, execDlfs, download, hst]; rfl
  · have hs : Serving i s := ⟨hquiet, hd⟩
    have hdl : ∃ elev ps, i = .dlfile elev ps ∨ i = .dlfs elev ps := ⟨elev, ps, hi.imp And.left And.left⟩
    rw [← hfb]
    exact hs.steps_download hdl hst hlock htap (by rw [hfb]; exact List.cons_ne_nil _ _) hhi hwraps hrx hlen

/-- The four-byte records of at most 255 entries are counted without overflow (R110). -/
theorem toNat_recordBytes (count : Byte) :
    (BitVec.ofNat 32 (Config.recW * (count.zeroExtend 32).toNat)).toNat = 4 * count.toNat := by
  rw [BitVec.toNat_setWidth_of_le (by decide), BitVec.toNat_ofNat]
  exact Nat.mod_eq_of_lt (by have := count.isLt; simp only [Config.recW]; omega)

/-- Settles O38. -/
theorem lsDeliversRecords : Obligations.LsDeliversRecords := by
  intro ps s
  refine ⟨fun hst => by simp only [exec, execLs, hst]; rfl,
    fun count records rest hst hquiet hlock htap hd hfb hhi hwraps hrx hlen => ?_⟩
  have hs : Serving (.ls ps) s := ⟨hquiet, hd⟩
  have hread := hs.steps_lengthField (field := [count]) (rest := records ++ rest) (Nat.succ_pos _) rfl htap hst
    (by rw [hfb]; exact List.cons_ne_nil _ _) hhi hwraps hrx
  have hn : (lengthRead (.ls ps) [count] (records ++ rest) s).n = count.zeroExtend 32 := by
    rw [lengthRead_n]
    exact BitVec.eq_of_toNat_eq (by simp [fromLE])
  have hbytes := toNat_recordBytes count
  rw [← hfb]
  simp only [afterLength, hn, beginPayload] at hread
  by_cases hzero : BitVec.ofNat 32 (Config.recW * (count.zeroExtend 32).toNat) = 0#32
  · rw [hzero, BitVec.toNat_zero] at hbytes
    rw [← hbytes, List.length_eq_zero_iff] at hlen
    subst hlen
    rw [if_pos hzero] at hread
    refine ⟨_, hread, conclude_st_of_txlk _ _ _ hlock, rfl, rfl, rfl, rfl, hlock, rfl, rfl, ?_⟩
    rw [List.flatMap_nil, List.append_nil]
    exact lengthRead_trace _ ([] ++ rest)
  · rw [if_neg hzero] at hread
    have hrun := (steps_add (2 * records.length) hread).trans
      (hs.steps_lengthRead_payload rfl (hlen.trans hbytes.symm) hzero htap)
    refine ⟨_, hrun, conclude_st_of_txlk _ _ _ hlock, rfl, rfl, ?_, rfl, hlock, rfl, rfl, rfl⟩
    rw [← hn, lengthRead_n]
    rfl

/-- Settles O39. -/
theorem freeReportsCount : Obligations.FreeReportsCount := by
  intro ps s
  refine ⟨fun hst => by simp only [exec, execFree, hst]; rfl,
    fun b0 b1 b2 b3 rest hst hquiet hlock htap hd hfb hhi hwraps hrx => ?_⟩
  have hs : Serving (.free ps) s := ⟨hquiet, hd⟩
  have hread := hs.steps_lengthField (field := [b0, b1, b2, b3]) (rest := rest) (Nat.succ_pos _) rfl htap hst
    (by rw [hfb]; exact List.cons_ne_nil _ _) hhi hwraps hrx
  rw [← hfb]
  refine ⟨_, hread, conclude_st_of_txlk _ _ _ hlock, rfl, rfl, ?_, rfl, hlock, rfl, rfl, lengthRead_trace _ rest⟩
  have hvalue : fromLE [b0, b1, b2, b3] = b0.toNat + 2 ^ 8 * b1.toNat + 2 ^ 16 * b2.toNat + 2 ^ 24 * b3.toNat := by
    simp only [fromLE]
    omega
  have := b0.isLt
  have := b1.isLt
  have := b2.isLt
  have := b3.isLt
  calc _ = (BitVec.ofNat 32 (fromLE [b0, b1, b2, b3])).toNat := by
        rw [← lengthRead_n (i := .free ps) (s := s) _ rest]; rfl
    _ = _ := by
        rw [BitVec.toNat_ofNat, hvalue]
        exact Nat.mod_eq_of_lt (by omega)

end

end Sys2Proof.Machine
end

section
/-! PROOFS. Uploads (R209 to R211, R216), from `CHECK` and from the header's first byte in a quiet environment. -/
namespace Sys2Proof.Machine

/-! ## An upload under way -/

/-- The upload `i` of `len` bytes at `base` is under way in a quiet environment, its checks passed, no byte of the
payload changed, exclusivity kept and the lock held. -/
structure Uploading (i : Instr) (ps : List Word) (base len : Word) (s : State) : Prop where
  serving : Serving i s
  upload : i = .upfont ps base len ∨ i = .upfs ps base len
  fits : base.toNat + len.toNat ≤ 2 ^ 32
  unchanged : s.payChanged = []
  untapped : s.tapped = false
  locked : s.txlk = true

section
variable {i : Instr} {ps : List Word} {base len : Word} {s : State}

theorem Uploading.withheld (h : Uploading i ps base len s) : s.withheld = [] := by
  obtain ⟨_, hw, _⟩ := h.serving.quiet
  exact hw

theorem Uploading.uploadLen (h : Uploading i ps base len s) : uploadLen i = some len := uploadLen_of_upload h.upload

theorem Uploading.payloadByte_eq (h : Uploading i ps base len s) :
    payloadByte base s = memRead s.pay (base.toNat + s.idx.toNat) := by
  rw [payloadByte, h.unchanged]
  exact if_neg List.not_mem_nil

/-! ## One byte -/

/-- What follows the ready byte and each confirmation: the next byte, or the end (R211). -/
def nextByte (len : Word) (s : State) : State :=
  if s.idx.toNat < len.toNat then goto .upSend s else finish .ok len s

theorem nextByte_goto (x : St) (s : State) : nextByte len (goto x s) = nextByte len s := rfl

/-- A byte sent. -/
def byteSent (b : Byte) (s : State) : State := goto .upEcho (drawn 1 (payloadByteSent b s))

/-- A byte sent, echoed and confirmed. -/
def byteConfirmed (b : Byte) (rest : List Byte) (s : State) : State :=
  confirmSent (goto .upConf (rxDelivered b rest (byteSent b s)))

/-- `UP_SEND` (R211). -/
theorem Uploading.step_upSend (h : Uploading i ps base len s) (hst : s.st = .upSend)
    (hidx : s.idx.toNat < len.toNat) :
    step s = .next (byteSent (memRead s.pay (base.toNat + s.idx.toNat)) s) := by
  have hin : base.toNat + s.idx.toNat < 2 ^ 32 := by have := h.fits; omega
  rw [h.serving.step_eq hst (by decide), exec_upSend_sends h.upload hst h.withheld hin, h.payloadByte_eq]
  rfl

theorem Uploading.serving_byteSent (h : Uploading i ps base len s) (b : Byte) : Serving i (byteSent b s) :=
  ⟨h.serving.quiet, h.serving.request⟩

/-- `UP_SEND`, `UP_ECHO` and `UP_CONF` for a byte whose echo is right (R211). -/
theorem Uploading.steps_byte (h : Uploading i ps base len s) (hst : s.st = .upSend)
    (hidx : s.idx.toNat < len.toNat) {b : Byte} (hb : memRead s.pay (base.toNat + s.idx.toNat) = b)
    {rest : List Byte} (hrx : s.rx = b :: rest) : steps 3 s = .next (nextByte len (byteConfirmed b rest s)) := by
  have hsend := h.step_upSend hst hidx
  rw [hb] at hsend
  have hsent := h.serving_byteSent b
  have hecho : step (byteSent b s) = .next (goto .upConf (rxDelivered b rest (byteSent b s))) := by
    rw [hsent.step_eq (x := .upEcho) rfl (by decide), exec_upEcho h.uploadLen rfl, stepUpEcho, stepRx,
      receive_of_byte (s := byteSent b s) h.withheld h.untapped hrx]
    exact congrArg _ (if_neg (not_not.mpr rfl))
  have hechoed : Serving i (goto .upConf (rxDelivered b rest (byteSent b s))) :=
    ⟨h.serving.quiet, h.serving.request⟩
  have hconf : step (goto .upConf (rxDelivered b rest (byteSent b s))) =
      .next (nextByte len (byteConfirmed b rest s)) := by
    rw [hechoed.step_eq (x := .upConf) rfl (by decide), exec_upConf h.uploadLen rfl]
    exact whenOffered_of_offers (hechoed.offers .tx)
  exact steps_of_step hsend (steps_of_step hecho (steps_one hconf))

/-! ## The payload -/

/-- The first `m` bytes of the payload. -/
def payBytes (pay : Memory) (base : Word) (m : Nat) : List Byte :=
  (List.range m).map fun k => memRead pay (base.toNat + k)

theorem payBytes_succ (pay : Memory) (base : Word) (m : Nat) :
    payBytes pay base (m + 1) = payBytes pay base m ++ [memRead pay (base.toNat + m)] := by
  simp [payBytes, List.range_succ]

theorem length_payBytes (pay : Memory) (base : Word) (m : Nat) : (payBytes pay base m).length = m := by
  simp [payBytes]

theorem take_payBytes (pay : Memory) (base : Word) {k m : Nat} (h : k ≤ m) :
    (payBytes pay base m).take k = payBytes pay base k := by
  rw [payBytes, ← List.map_take, List.take_range, Nat.min_eq_left h, payBytes]

/-- The events of a byte sent, echoed and confirmed. -/
def confirmedEvents (b : Byte) : List Event := [.tx b, .rx (some b), .tx Config.confirm]

/-- The ready byte has been read, and `bytes` sent, echoed and confirmed. -/
def confirmed (bytes rest : List Byte) (s : State) : State :=
  { s with
    rx := rest, idx := s.idx + BitVec.ofNat 32 bytes.length, acked := s.acked + BitVec.ofNat 32 bytes.length,
    last := bytes.getLastD s.last, rph := if bytes = [] then s.rph else 3#2, draws := s.draws + bytes.length,
    trace := s.trace ++ [.rx (some Config.ready)] ++ bytes.flatMap confirmedEvents }

theorem confirmed_nil (rest : List Byte) (s : State) : confirmed [] rest s = rxDelivered Config.ready rest s := by
  simp [confirmed, rxDelivered]

/-- `IDX` counts the bytes sent. -/
theorem confirmed_idx_toNat {bytes rest : List Byte} (hidx : s.idx = 0#32) (hlen : bytes.length < 2 ^ 32) :
    (confirmed bytes rest s).idx.toNat = bytes.length := by
  simp only [confirmed, hidx, BitVec.zero_add, BitVec.toNat_ofNat]
  exact Nat.mod_eq_of_lt hlen

/-- `ACKED` counts the bytes confirmed. -/
theorem confirmed_acked_toNat {bytes rest : List Byte} (hacked : s.acked = 0#32) (hlen : bytes.length < 2 ^ 32) :
    (confirmed bytes rest s).acked.toNat = bytes.length := by
  simp only [confirmed, hacked, BitVec.zero_add, BitVec.toNat_ofNat]
  exact Nat.mod_eq_of_lt hlen

/-- The others, then a byte. -/
theorem confirmed_snoc (bytes : List Byte) (b : Byte) (rest : List Byte) (s : State) :
    goto .upConf (confirmed (bytes ++ [b]) rest s) =
      byteConfirmed b rest (goto .upSend (confirmed bytes (b :: rest) s)) := by
  simp only [confirmed, byteConfirmed, byteSent, goto, confirmSent, rxDelivered, drawn, payloadByteSent,
    List.length_append, List.length_singleton, BitVec.ofNat_add, BitVec.add_assoc, Nat.add_assoc,
    List.getLastD_concat, List.flatMap_append, List.flatMap_singleton, confirmedEvents, List.append_assoc,
    List.concat_ne_nil, if_false]
  rfl

/-- `RX_READY` with the ready byte, and `m` bytes with the right echoes (R210, R211). -/
theorem Uploading.steps_confirmed (h : Uploading i ps base len s) (hst : s.st = .rxReady) (hidx : s.idx = 0#32)
    {m : Nat} (hm : m ≤ len.toNat) : ∀ {rest : List Byte}, s.rx = Config.ready :: (payBytes s.pay base m ++ rest) →
      steps (1 + 3 * m) s = .next (nextByte len (confirmed (payBytes s.pay base m) rest s)) := by
  induction m with
  | zero =>
    intro rest hrx
    refine steps_one ?_
    rw [h.serving.step_eq hst (by decide), exec_rxReady h.uploadLen hst, stepRxReady, stepRx,
      receive_of_byte h.withheld h.untapped hrx]
    change _ = Host.Outcome.next (nextByte len (confirmed [] rest s))
    rw [confirmed_nil]
    exact congrArg _ (if_neg (not_not.mpr rfl))
  | succ m ih =>
    intro rest hrx
    rw [payBytes_succ, List.append_assoc] at hrx
    have hrun := ih (Nat.le_of_succ_le hm) hrx
    rw [List.singleton_append] at hrun
    have hcount : (confirmed (payBytes s.pay base m) (memRead s.pay (base.toNat + m) :: rest) s).idx.toNat = m := by
      rw [confirmed_idx_toNat hidx (by rw [length_payBytes]; exact Nat.lt_of_succ_le (hm.trans len.isLt.le)),
        length_payBytes]
    rw [nextByte, if_pos (by rw [hcount]; exact hm)] at hrun
    have hready : Uploading i ps base len
        (goto .upSend (confirmed (payBytes s.pay base m) (memRead s.pay (base.toNat + m) :: rest) s)) :=
      ⟨⟨h.serving.quiet, h.serving.request⟩, h.upload, h.fits, h.unchanged, h.untapped, h.locked⟩
    have hbyte := hready.steps_byte rfl (b := memRead s.pay (base.toNat + m)) (rest := rest)
      (by rw [goto_idx, hcount]; exact hm) (by rw [goto_idx, hcount]; rfl) rfl
    rw [← confirmed_snoc, nextByte_goto, ← payBytes_succ] at hbyte
    exact (steps_add 3 hrun).trans hbyte

/-! ## From the header's first byte -/

/-- The header has been sent (R209). -/
def uploadHeaderSent (s : State) : State := goto .rxReady (phase 2#2 (frameSent s.fb s))

/-- The header, sent from its first byte (R131, R209). -/
theorem Uploading.steps_header (h : Uploading i ps base len s) (hst : s.st = .txFrame) (hne : s.fb ≠ [])
    (hhi : s.hi = 0#8) (hwraps : s.hiWraps = 0) :
    steps s.fb.length s = .next (uploadHeaderSent s) ∧ Uploading i ps base len (uploadHeaderSent s) := by
  refine ⟨steps_txFrame (done := fun t => goto .rxReady (phase 2#2 t)) (fun u hu => ?_) h.serving.quiet
      h.serving.request hst (by rw [sentCount_of_fresh hhi hwraps, List.drop_zero]) hne,
    ⟨h.serving.quiet, h.serving.request⟩, h.upload, h.fits, h.unchanged, h.untapped, h.locked⟩
  rw [exec_txFrame i hu]
  rcases h.upload with rfl | rfl <;> rfl

/-- The header, the ready byte and `m` bytes with the right echoes. -/
theorem Uploading.steps_headerConfirmed (h : Uploading i ps base len s) (hst : s.st = .txFrame) (hne : s.fb ≠ [])
    (hhi : s.hi = 0#8) (hwraps : s.hiWraps = 0) (hidx : s.idx = 0#32) {m : Nat} (hm : m ≤ len.toNat)
    {rest : List Byte} (hrx : s.rx = Config.ready :: payBytes s.pay base m ++ rest) :
    steps (s.fb.length + (1 + 3 * m)) s =
      .next (nextByte len (confirmed (payBytes s.pay base m) rest (uploadHeaderSent s))) := by
  have ⟨hsends, hup⟩ := h.steps_header hst hne hhi hwraps
  exact (steps_add _ hsends).trans (hup.steps_confirmed rfl hidx hm hrx)

/-- The upload goes on with whatever has been confirmed. -/
theorem Uploading.goto_confirmed (h : Uploading i ps base len s) (bytes rest : List Byte) :
    Uploading i ps base len (goto .upSend (confirmed bytes rest (uploadHeaderSent s))) :=
  ⟨⟨h.serving.quiet, h.serving.request⟩, h.upload, h.fits, h.unchanged, h.untapped, h.locked⟩

/-- A wrong echo of byte `m`, after `m` bytes with the right echoes (R264). -/
theorem Uploading.steps_desync (h : Uploading i ps base len s) (hst : s.st = .txFrame) (hne : s.fb ≠ [])
    (hhi : s.hi = 0#8) (hwraps : s.hiWraps = 0) (hidx : s.idx = 0#32) {m : Nat} (hm : m < len.toNat)
    {e : Byte} {rest : List Byte} (hrx : s.rx = Config.ready :: payBytes s.pay base m ++ e :: rest)
    (hwrong : e ≠ memRead s.pay (base.toNat + m)) :
    ∃ v a, steps (s.fb.length + (1 + 3 * m) + 2) s = .next (conclude .uploadDesync v a (rxDelivered e rest
      (byteSent (memRead s.pay (base.toNat + m))
        (goto .upSend (confirmed (payBytes s.pay base m) (e :: rest) (uploadHeaderSent s)))))) := by
  have hrun := h.steps_headerConfirmed hst hne hhi hwraps hidx hm.le hrx
  have hcount : (confirmed (payBytes s.pay base m) (e :: rest) (uploadHeaderSent s)).idx.toNat = m := by
    rw [confirmed_idx_toNat (s := uploadHeaderSent s) hidx (by rw [length_payBytes]; exact hm.trans len.isLt),
      length_payBytes]
  rw [nextByte, if_pos (by rw [hcount]; exact hm)] at hrun
  have hready := h.goto_confirmed (payBytes s.pay base m) (e :: rest)
  have hsend := hready.step_upSend rfl (by rw [goto_idx, hcount]; exact hm)
  rw [goto_idx, hcount] at hsend
  have hsent := hready.serving_byteSent (memRead s.pay (base.toNat + m))
  have hdesync := (hsent.step_eq (x := .upEcho) rfl (by decide)).trans ((exec_upEcho h.uploadLen rfl).trans
    (stepUpEcho_of_wrong hready.withheld hready.untapped rfl hwrong))
  exact ⟨_, _, (steps_add 2 hrun).trans (steps_of_step hsend (steps_one hdesync))⟩

/-- The whole payload, confirmed: `OK(PAY_LEN, 0)` (R211). -/
theorem nextByte_of_all {bytes rest : List Byte} (hidx : s.idx = 0#32) (hlen : bytes.length = len.toNat) :
    nextByte len (confirmed bytes rest s) = finish .ok len (confirmed bytes rest s) := by
  have : (confirmed bytes rest s).idx = len := by simp [confirmed, hidx, hlen]
  rw [nextByte, this, if_neg (lt_irrefl _)]

/-! ## The bytes written and read -/

theorem txStream_append (l r : List Event) : txStream (l ++ r) = txStream l ++ txStream r := List.filterMap_append

theorem rxStream_append (l r : List Event) : rxStream (l ++ r) = rxStream l ++ rxStream r := List.filterMap_append

theorem txStream_map_tx (bytes : List Byte) : txStream (bytes.map .tx) = bytes := by
  induction bytes with
  | nil => rfl
  | cons b bytes ih => exact congrArg (b :: ·) ih

theorem rxStream_map_tx (bytes : List Byte) : rxStream (bytes.map .tx) = [] := by
  induction bytes with
  | nil => rfl
  | cons b bytes ih => exact ih

/-- Two bytes written for each one confirmed. -/
theorem length_txStream_confirmedEvents (bytes : List Byte) :
    (txStream (bytes.flatMap confirmedEvents)).length = 2 * bytes.length := by
  induction bytes with
  | nil => rfl
  | cons b bytes ih =>
    rw [List.flatMap_cons, txStream_append, List.length_append, ih, List.length_cons, Nat.mul_succ, Nat.add_comm]
    rfl

/-- One byte read for each one confirmed. -/
theorem length_rxStream_confirmedEvents (bytes : List Byte) :
    (rxStream (bytes.flatMap confirmedEvents)).length = bytes.length := by
  induction bytes with
  | nil => rfl
  | cons b bytes ih =>
    rw [List.flatMap_cons, rxStream_append, List.length_append, ih, List.length_cons, Nat.add_comm]
    rfl

/-- The bytes written since the header began, where `bytes` are confirmed (R216). -/
theorem length_txStream_confirmed (bytes rest : List Byte) (s : State) :
    (txStream (confirmed bytes rest (uploadHeaderSent s)).trace).length =
      (txStream s.trace).length + s.fb.length + 2 * bytes.length := by
  change (txStream (s.trace ++ s.fb.map .tx ++ [.rx (some Config.ready)] ++ bytes.flatMap confirmedEvents)).length = _
  simp only [txStream_append, txStream_map_tx, List.length_append, length_txStream_confirmedEvents]
  rfl

/-- The bytes read since the header began, where `bytes` are confirmed (R216). -/
theorem length_rxStream_confirmed (bytes rest : List Byte) (s : State) :
    (rxStream (confirmed bytes rest (uploadHeaderSent s)).trace).length =
      (rxStream s.trace).length + 1 + bytes.length := by
  change (rxStream (s.trace ++ s.fb.map .tx ++ [.rx (some Config.ready)] ++ bytes.flatMap confirmedEvents)).length = _
  simp only [rxStream_append, rxStream_map_tx, List.length_append, length_rxStream_confirmedEvents]
  rfl

theorem length_txStream_concat_tx (l : List Event) (b : Byte) :
    (txStream (l ++ [.tx b])).length = (txStream l).length + 1 := by
  rw [txStream_append, List.length_append]
  rfl

theorem txStream_concat_rx (l : List Event) (x : Option Byte) : txStream (l ++ [.rx x]) = txStream l := by
  rw [txStream_append]
  exact List.append_nil _

theorem rxStream_concat_tx (l : List Event) (b : Byte) : rxStream (l ++ [.tx b]) = rxStream l := by
  rw [rxStream_append]
  exact List.append_nil _

theorem length_rxStream_concat_rx (l : List Event) (b : Byte) :
    (rxStream (l ++ [.rx (some b)])).length = (rxStream l).length + 1 := by
  rw [rxStream_append, List.length_append]
  rfl

end

/-! ## The obligations -/

/-- An upload's header is not empty. -/
theorem frameOf_ne_nil {c : Config} {i : Instr} {ps : List Word} {base len : Word}
    (hi : i = .upfont ps base len ∨ i = .upfs ps base len) : frameOf c i ≠ [] := by
  rcases hi with rfl | rfl <;> exact List.cons_ne_nil _ _

/-- `CHECK` of an upload whose checks pass (R209, R211). -/
theorem exec_check_upload {i : Instr} {ps : List Word} {base len : Word} {s : State}
    (hi : i = .upfont ps base len ∨ i = .upfs ps base len) (hc : ownChecks s.cfg i = none) (hst : s.st = .check) :
    exec i s = .next (goto .pause (countersReset (loadFrame (frameOf s.cfg i) s))) := by
  rcases hi with rfl | rfl <;> rw [ownChecks] at hc <;>
    simp only [exec, execUpfont, execUpfs, upload, uploadCheck, fontUpload, fsUpload, hst, hc, frameOf]

/-- Settles O43. -/
theorem uploadSendsConfirmedPayload : Obligations.UploadSendsConfirmedPayload := by
  intro i ps base len s hi hc
  refine ⟨fun hst => exec_check_upload hi hc hst, ?_⟩
  intro payload rest hst hquiet hlock htap hpay hd hfb hhi hwraps hidx hacked hpayload hrx
  have hup : Uploading i ps base len s := ⟨⟨hquiet, hd⟩, hi, payEnd_le_of_ownChecks hi hc, hpay, htap, hlock⟩
  have hne : s.fb ≠ [] := hfb ▸ frameOf_ne_nil hi
  have hlen : payload.length = len.toNat := by rw [hpayload]; exact length_payBytes s.pay base _
  rw [hpayload] at hrx
  have hrun := hup.steps_headerConfirmed hst hne hhi hwraps hidx le_rfl hrx
  rw [payBytes, ← hpayload, nextByte_of_all (s := uploadHeaderSent s) hidx hlen] at hrun
  rw [Nat.add_assoc, ← hfb]
  refine ⟨_, hrun, conclude_st_of_txlk _ _ _ hlock, rfl, ?_, ?_, rfl, rfl, rfl, hlock, rfl, rfl, rfl⟩
  · change s.idx + BitVec.ofNat 32 payload.length = len
    rw [hidx, hlen, BitVec.zero_add, BitVec.ofNat_toNat, BitVec.setWidth_eq]
  · change s.acked + BitVec.ofNat 32 payload.length = len
    rw [hacked, hlen, BitVec.zero_add, BitVec.ofNat_toNat, BitVec.setWidth_eq]

/-- Settles O47, an end at a time. -/
theorem uploadByteCounts : Obligations.UploadByteCounts := by
  intro i ps base len s payload rest hi hc hst hquiet hlock htap hpay hd hfb hhi hwraps hidx hacked hpayload
  have hup : Uploading i ps base len s := ⟨⟨hquiet, hd⟩, hi, payEnd_le_of_ownChecks hi hc, hpay, htap, hlock⟩
  have hne : s.fb ≠ [] := hfb ▸ frameOf_ne_nil hi
  change payload = payBytes s.pay base len.toNat at hpayload
  subst hpayload
  refine ⟨fun hrx => ?success, fun r hr hrx => ?rejection, fun k b e hb he hrx => ?desync⟩
  case success =>
    have hrun := hup.steps_headerConfirmed hst hne hhi hwraps hidx le_rfl hrx
    rw [nextByte_of_all (s := uploadHeaderSent s) hidx (length_payBytes _ _ _)] at hrun
    refine ⟨_, _, hrun, conclude_st_of_txlk _ _ _ hlock, rfl, ?_, ?_⟩
    · rw [finish, conclude_trace, length_txStream_confirmed, length_payBytes]
    · rw [finish, conclude_trace, length_rxStream_confirmed, length_payBytes]
  case rejection =>
    have ⟨hsends, hsent⟩ := hup.steps_header hst hne hhi hwraps
    have hreject : step (uploadHeaderSent s) =
        .next (conclude .uploadRejected (r.zeroExtend 32) 0#32 (rxDelivered r rest (uploadHeaderSent s))) := by
      rw [hsent.serving.step_eq (x := .rxReady) rfl (by decide), exec_rxReady hsent.uploadLen rfl]
      exact stepRxReady_of_wrong len hsent.withheld hsent.untapped hrx hr
    refine ⟨_, _, (steps_add 1 hsends).trans (steps_one hreject), conclude_st_of_txlk _ _ _ hlock, rfl, ?_, ?_⟩
    · change (txStream (s.trace ++ s.fb.map .tx ++ [.rx (some r)])).length = _
      rw [txStream_concat_rx, txStream_append, txStream_map_tx, List.length_append]
    · change (rxStream (s.trace ++ s.fb.map .tx ++ [.rx (some r)])).length = _
      rw [length_rxStream_concat_rx, rxStream_append, rxStream_map_tx, List.append_nil]
  case desync =>
    obtain ⟨hk, hb⟩ := List.getElem?_eq_some_iff.mp hb
    rw [length_payBytes] at hk
    rw [take_payBytes _ _ hk.le] at hrx
    have hsmall : (payBytes s.pay base k).length < 2 ^ 32 := by rw [length_payBytes]; exact hk.trans len.isLt
    have hwrong : e ≠ memRead s.pay (base.toNat + k) := by
      simp only [payBytes, List.getElem_map, List.getElem_range] at hb
      rw [hb]
      exact he
    obtain ⟨v, a, hrun⟩ := hup.steps_desync hst hne hhi hwraps hidx hk hrx hwrong
    refine ⟨_, _, hrun, conclude_st_of_txlk _ _ _ hlock, rfl, ?_, ?_, ?_, ?_⟩
    · have hcount := (confirmed_idx_toNat (s := uploadHeaderSent s) (rest := e :: rest) hidx hsmall).trans
        (length_payBytes _ _ _)
      exact (BitVec.toNat_add_of_lt (by have := len.isLt; simp only [goto_idx, hcount]; simp; omega)).trans
        (congrArg (· + 1) hcount)
    · exact (confirmed_acked_toNat (s := uploadHeaderSent s) (rest := e :: rest) hacked hsmall).trans
        (length_payBytes _ _ _)
    · change (txStream ((confirmed (payBytes s.pay base k) (e :: rest) (uploadHeaderSent s)).trace ++
        [.tx _] ++ [.rx (some e)])).length = _
      rw [txStream_concat_rx, length_txStream_concat_tx, length_txStream_confirmed, length_payBytes]
    · change (rxStream ((confirmed (payBytes s.pay base k) (e :: rest) (uploadHeaderSent s)).trace ++
        [.tx _] ++ [.rx (some e)])).length = _
      rw [length_rxStream_concat_rx, rxStream_concat_tx, length_rxStream_confirmed, length_payBytes]
      omega

end Sys2Proof.Machine
end
